-- ==== Sys2Proof/Word.lean ====
section
/-! DEFINITION. The two bit-vector types of the block: the 32-bit bus word and the byte.
Wide registers hold naturals (00_scope R11), so no wider bit vector is needed. -/

namespace Sys2Proof

/-- A bus word, the command word, and the 32-bit registers (20_memory R61, 30_encoding R80). -/
abbrev Word := BitVec 32

/-- A byte of the message buffer (10_state R30). -/
abbrev Byte := BitVec 8

end Sys2Proof
end

