-- ==== Sys2Proof/Syntax.lean ====
section
/-! DEFINITION. The command set: one constructor per row of 30_encoding R84, its operands in the
order rd, rs1, rs2, rs3 (R88), and each command's name and assembler spelling. -/

namespace Sys2Proof

/-- An operand register X0 to X15 (10_state R22). -/
abbrev Reg := Fin 16

/-- A command with its register operands (30_encoding R84). -/
inductive Instr where
  /-- does nothing (R101) -/
  | nop
  /-- ARG random bits into rd (R102) -/
  | rand (rd : Reg)
  /-- latch the Montgomery context for modulus rs1 (R121) -/
  | montsetup (rs1 : Reg)
  /-- Montgomery product (R122) -/
  | montmul (rd rs1 rs2 : Reg)
  /-- into Montgomery form (R123) -/
  | montin (rd rs1 : Reg)
  /-- out of Montgomery form (R124) -/
  | montout (rd rs1 : Reg)
  /-- latch the Barrett context for modulus rs1 (R127) -/
  | barsetup (rs1 : Reg)
  /-- reduce modulo the Barrett context's modulus (R128) -/
  | barred (rd rs1 : Reg)
  /-- modular power (R130) -/
  | modexp (rd rs1 rs2 rs3 : Reg)
  /-- probabilistic primality test, ARG rounds (R153) -/
  | mrtest (rd rs1 : Reg)
  /-- search for a probable prime of at most ARG bits (R154) -/
  | primegen (rd : Reg)
  /-- greatest common divisor (R172) -/
  | gcd (rd rs1 rs2 : Reg)
  /-- coprimality test (R173) -/
  | coprime (rd rs1 rs2 : Reg)
  /-- extended gcd into rd, rd+1, rd+2 (R179) -/
  | egcd (rd rs1 rs2 : Reg)
  /-- modular inverse of rs1 modulo rs2 (R180) -/
  | modinv (rd rs1 rs2 : Reg)
  /-- search for a value of at most ARG bits coprime to rs1 (R182) -/
  | coprimegen (rd rs1 : Reg)
  /-- keypair from random primes of at most ARG bits (R201) -/
  | keygen
  /-- keypair from supplied primes, e of at most ARG bits (R203) -/
  | keyderive (rs1 rs2 : Reg)
  /-- keypair from supplied primes and exponent (R204) -/
  | keyderivee (rs1 rs2 rs3 : Reg)
  /-- clear the keypair (R205) -/
  | keyclr
  /-- encrypt with the public key (R223) -/
  | enc (rd rs1 : Reg)
  /-- decrypt with the private key (R224) -/
  | dec (rd rs1 : Reg)
  /-- message buffer to integer (R226) -/
  | b2i (rd : Reg)
  /-- integer to message buffer (R227) -/
  | i2b (rs1 : Reg)
deriving DecidableEq, Repr

/-- The command's name in R84. -/
def Instr.mnemonic : Instr → String
  | .nop => "NOP"
  | .rand _ => "RAND"
  | .montsetup _ => "MONTSETUP"
  | .montmul _ _ _ => "MONTMUL"
  | .montin _ _ => "MONTIN"
  | .montout _ _ => "MONTOUT"
  | .barsetup _ => "BARSETUP"
  | .barred _ _ => "BARRED"
  | .modexp _ _ _ _ => "MODEXP"
  | .mrtest _ _ => "MRTEST"
  | .primegen _ => "PRIMEGEN"
  | .gcd _ _ _ => "GCD"
  | .coprime _ _ _ => "COPRIME"
  | .egcd _ _ _ => "EGCD"
  | .modinv _ _ _ => "MODINV"
  | .coprimegen _ _ => "COPRIMEGEN"
  | .keygen => "KEYGEN"
  | .keyderive _ _ => "KEYDERIVE"
  | .keyderivee _ _ _ => "KEYDERIVEE"
  | .keyclr => "KEYCLR"
  | .enc _ _ => "ENC"
  | .dec _ _ => "DEC"
  | .b2i _ => "B2I"
  | .i2b _ => "I2B"

/-- The operands in assembler order: rd, rs1, rs2, rs3, unused fields omitted (R88). -/
def Instr.operands : Instr → List Reg
  | .nop | .keygen | .keyclr => []
  | .rand a | .montsetup a | .barsetup a | .primegen a | .b2i a | .i2b a => [a]
  | .montin a b | .montout a b | .barred a b | .mrtest a b | .coprimegen a b
  | .keyderive a b | .enc a b | .dec a b => [a, b]
  | .montmul a b c | .gcd a b c | .coprime a b c | .egcd a b c | .modinv a b c
  | .keyderivee a b c => [a, b, c]
  | .modexp a b c d => [a, b, c, d]

/-- A register's spelling, X0 to X15 (R88). -/
def Reg.asm (r : Reg) : String := "X" ++ toString r.val

/-- The assembler spelling of a command (R88), without the `#n` that stands for a write of ARG. -/
def Instr.asm (i : Instr) : String :=
  match i.operands with
  | [] => i.mnemonic
  | rs => i.mnemonic ++ " " ++ ", ".intercalate (rs.map Reg.asm)

end Sys2Proof
end

