-- ==== Sys2Proof/WellFormed.lean ====
section
/-! DEFINITION. The one check on operands the encoding does not make by its form: EGCD writes
three consecutive registers and so needs rd ≤ 13 (30_encoding R82, R85 (d)). -/

namespace Sys2Proof

/-- Whether a command's operands are ones the block accepts (R85 (d)). -/
def Instr.wellFormed : Instr → Bool
  | .egcd rd _ _ => decide (rd.val ≤ 13)
  | .nop | .rand _ | .montsetup _ | .montmul _ _ _ | .montin _ _ | .montout _ _
  | .barsetup _ | .barred _ _ | .modexp _ _ _ _ | .mrtest _ _ | .primegen _
  | .gcd _ _ _ | .coprime _ _ _ | .modinv _ _ _ | .coprimegen _ _ | .keygen
  | .keyderive _ _ | .keyderivee _ _ _ | .keyclr | .enc _ _ | .dec _ _ | .b2i _ | .i2b _ => true

end Sys2Proof
end

