-- ==== Sys2Proof/Decode.lean ====
section
/-! DEFINITION. Decoding a command word (30_encoding R80 to R86), total and rejecting by name, the
encoder written from the same table, and the table R84 itself as mask and match pairs. -/

namespace Sys2Proof

/-- Why a word is no command: the four cases of R85. All of them complete with ILLEGAL_CMD; which
name a word with several faults gets has no effect (log 15). -/
inductive Illegal where
  /-- R85 (a): the opcode is not in R84 -/
  | unassignedOpcode
  /-- R85 (b): bits [31:24] are not 0 -/
  | reservedBits
  /-- R85 (c): a field the command does not use is not 0 -/
  | unusedField
  /-- R85 (d): EGCD with rd > 13 -/
  | egcdDestination
deriving DecidableEq, Repr

/-! ## Fields (R80) -/

def opcodeField (w : Word) : BitVec 8 := w.extractLsb' 0 8
def rdField (w : Word) : Reg := (w.extractLsb' 8 4).toFin
def rs1Field (w : Word) : Reg := (w.extractLsb' 12 4).toFin
def rs2Field (w : Word) : Reg := (w.extractLsb' 16 4).toFin
def rs3Field (w : Word) : Reg := (w.extractLsb' 20 4).toFin
def reservedField (w : Word) : BitVec 8 := w.extractLsb' 24 8

/-- A command word with the given fields and reserved bits 0 (R80). -/
def packFields (op : BitVec 8) (rd rs1 rs2 rs3 : Reg) : Word :=
  (0 : BitVec 8) ++ BitVec.ofFin (w := 4) rs3 ++ BitVec.ofFin (w := 4) rs2
    ++ BitVec.ofFin (w := 4) rs1 ++ BitVec.ofFin (w := 4) rd ++ op

/-! ## The table (R84) -/

/-- A row of R84. -/
structure Row where
  mnemonic : String
  value    : Word
  mask     : Word
deriving DecidableEq, Repr

/-- The first rows of R84: control, montgomery_mult, barrett_reduce, modexp_engine, primality. -/
def tableArithmetic : List Row :=
  [ ⟨"NOP", 0x00000000, 0xFFFFFFFF⟩,
    ⟨"RAND", 0x00000001, 0xFFFFF0FF⟩,
    ⟨"MONTSETUP", 0x00000010, 0xFFFF0FFF⟩,
    ⟨"MONTMUL", 0x00000011, 0xFFF000FF⟩,
    ⟨"MONTIN", 0x00000012, 0xFFFF00FF⟩,
    ⟨"MONTOUT", 0x00000013, 0xFFFF00FF⟩,
    ⟨"BARSETUP", 0x00000018, 0xFFFF0FFF⟩,
    ⟨"BARRED", 0x00000019, 0xFFFF00FF⟩,
    ⟨"MODEXP", 0x00000020, 0xFF0000FF⟩,
    ⟨"MRTEST", 0x00000028, 0xFFFF00FF⟩,
    ⟨"PRIMEGEN", 0x00000029, 0xFFFFF0FF⟩ ]

/-- The other rows of R84: number theory, keypair, codec. -/
def tableKeysAndCodec : List Row :=
  [ ⟨"GCD", 0x00000030, 0xFFF000FF⟩,
    ⟨"COPRIME", 0x00000031, 0xFFF000FF⟩,
    ⟨"EGCD", 0x00000032, 0xFFF000FF⟩,
    ⟨"MODINV", 0x00000033, 0xFFF000FF⟩,
    ⟨"COPRIMEGEN", 0x00000034, 0xFFFF00FF⟩,
    ⟨"KEYGEN", 0x00000040, 0xFFFFFFFF⟩,
    ⟨"KEYDERIVE", 0x00000041, 0xFFF00FFF⟩,
    ⟨"KEYDERIVEE", 0x00000042, 0xFF000FFF⟩,
    ⟨"KEYCLR", 0x00000043, 0xFFFFFFFF⟩,
    ⟨"ENC", 0x00000048, 0xFFFF00FF⟩,
    ⟨"DEC", 0x00000049, 0xFFFF00FF⟩,
    ⟨"B2I", 0x00000050, 0xFFFFF0FF⟩,
    ⟨"I2B", 0x00000051, 0xFFFF0FFF⟩ ]

/-- The complete command table (R84). -/
def opcodeTable : List Row := tableArithmetic ++ tableKeysAndCodec

/-- The row of R84 a word matches: `(w & mask) == match`. -/
def Row.accepts (r : Row) (w : Word) : Bool := w &&& r.mask == r.value

/-! ## Decoding -/

/-- Accept `i` if every field it does not use is 0 (R85 (c)); the four marks say which of rd, rs1,
rs2, rs3 it uses. -/
def ifUnusedZero (rd rs1 rs2 rs3 : Bool) (w : Word) (i : Instr) : Except Illegal Instr :=
  if (rd || rdField w == 0) && (rs1 || rs1Field w == 0) && (rs2 || rs2Field w == 0)
      && (rs3 || rs3Field w == 0)
  then .ok i else .error .unusedField

/-- The command whose opcode is given, with its fields (R84), or the reason there is none. -/
def decodeOpcode (op : BitVec 8) (w : Word) : Except Illegal Instr :=
  let d := rdField w
  let s := rs1Field w
  let t := rs2Field w
  let u := rs3Field w
  match op with
  | 0x00 => ifUnusedZero false false false false w .nop
  | 0x01 => ifUnusedZero true false false false w (.rand d)
  | 0x10 => ifUnusedZero false true false false w (.montsetup s)
  | 0x11 => ifUnusedZero true true true false w (.montmul d s t)
  | 0x12 => ifUnusedZero true true false false w (.montin d s)
  | 0x13 => ifUnusedZero true true false false w (.montout d s)
  | 0x18 => ifUnusedZero false true false false w (.barsetup s)
  | 0x19 => ifUnusedZero true true false false w (.barred d s)
  | 0x20 => ifUnusedZero true true true true w (.modexp d s t u)
  | 0x28 => ifUnusedZero true true false false w (.mrtest d s)
  | 0x29 => ifUnusedZero true false false false w (.primegen d)
  | 0x30 => ifUnusedZero true true true false w (.gcd d s t)
  | 0x31 => ifUnusedZero true true true false w (.coprime d s t)
  | 0x32 =>
    if 13 < d.val then .error .egcdDestination
    else ifUnusedZero true true true false w (.egcd d s t)
  | 0x33 => ifUnusedZero true true true false w (.modinv d s t)
  | 0x34 => ifUnusedZero true true false false w (.coprimegen d s)
  | 0x40 => ifUnusedZero false false false false w .keygen
  | 0x41 => ifUnusedZero false true true false w (.keyderive s t)
  | 0x42 => ifUnusedZero false true true true w (.keyderivee s t u)
  | 0x43 => ifUnusedZero false false false false w .keyclr
  | 0x48 => ifUnusedZero true true false false w (.enc d s)
  | 0x49 => ifUnusedZero true true false false w (.dec d s)
  | 0x50 => ifUnusedZero true false false false w (.b2i d)
  | 0x51 => ifUnusedZero false true false false w (.i2b s)
  | _ => .error .unassignedOpcode

/-- Decode a command word: total, each word a command or illegal (R85, R86). -/
def decode (w : Word) : Except Illegal Instr :=
  if reservedField w ≠ 0 then .error .reservedBits else decodeOpcode (opcodeField w) w

/-! ## Encoding -/

/-- The word of a command (R84): unused fields and reserved bits 0. -/
def encode : Instr → Word
  | .nop => packFields 0x00 0 0 0 0
  | .rand d => packFields 0x01 d 0 0 0
  | .montsetup s => packFields 0x10 0 s 0 0
  | .montmul d s t => packFields 0x11 d s t 0
  | .montin d s => packFields 0x12 d s 0 0
  | .montout d s => packFields 0x13 d s 0 0
  | .barsetup s => packFields 0x18 0 s 0 0
  | .barred d s => packFields 0x19 d s 0 0
  | .modexp d s t u => packFields 0x20 d s t u
  | .mrtest d s => packFields 0x28 d s 0 0
  | .primegen d => packFields 0x29 d 0 0 0
  | .gcd d s t => packFields 0x30 d s t 0
  | .coprime d s t => packFields 0x31 d s t 0
  | .egcd d s t => packFields 0x32 d s t 0
  | .modinv d s t => packFields 0x33 d s t 0
  | .coprimegen d s => packFields 0x34 d s 0 0
  | .keygen => packFields 0x40 0 0 0 0
  | .keyderive s t => packFields 0x41 0 s t 0
  | .keyderivee s t u => packFields 0x42 0 s t u
  | .keyclr => packFields 0x43 0 0 0 0
  | .enc d s => packFields 0x48 d s 0 0
  | .dec d s => packFields 0x49 d s 0 0
  | .b2i d => packFields 0x50 d 0 0 0
  | .i2b s => packFields 0x51 0 s 0 0

/-- The command the decoder reads from an instruction of `nbits` bits numbered as the opcode table
numbers them: a command is one 32-bit word, so bits above `nbits` are 0 and the rest is the word. -/
def decodeTableWord (nbits w : Nat) : Option Instr :=
  match decode (BitVec.ofNat 32 (w % 2 ^ nbits)) with
  | .ok i => some i
  | .error _ => none

end Sys2Proof
end

