-- ==== Sys2Proof/Config.lean ====
section
/-! DEFINITION. What one implementation fixes: the parameters of 00_scope R9 and the constants of
the interface. The two OPEN parameters are data, held in State and never changed by a step, so
that a statement about every state covers every implementation. No rule of the spec leaves a
value undefined, so there is no free value here. -/

namespace Sys2Proof

/-- The OPEN parameters of R9. `words` is WW = W/32, so that W is a multiple of 32 by form. -/
structure Params where
  words         : Nat
  retryCapReset : Word
deriving DecidableEq, Repr

/-- W, the width in bits of the operand registers (R9). -/
def Params.width (p : Params) : Nat := 32 * p.words

/-- W/8, the size of MBUF in bytes (R10, 10_state R30). -/
def Params.bytes (p : Params) : Nat := 4 * p.words

/-- The legal values of R9: 32 ≤ W ≤ 4096 and W a multiple of 32. -/
abbrev Params.Legal (p : Params) : Prop := 1 ≤ p.words ∧ p.words ≤ 128

/-- The parameters `State.reset` takes: W = 32 as in the spec's test vectors, and the suggested
RETRY_CAP_RESET. DESIGN CHOICE (logs 1 and 2): unsafe, R9 leaves both OPEN. -/
def Params.reference : Params := { words := 1, retryCapReset := 0x00100000 }

namespace Config

/-- PRIMEGEN_ROUNDS (R9): rounds of the Miller-Rabin test in the prime generator. -/
def primegenRounds : Nat := 10

/-- The constant the ID register reads (10_state R27). -/
def idValue : Word := 0x4D4D0001

/-- PARAM[31:24]: the interface version (00_scope R2, 10_state R27). -/
def interfaceVersion : BitVec 8 := 1

/-- PARAM[23:16]: NREG, the number of operand registers (R9). -/
def registerCount : BitVec 8 := 16

end Config

end Sys2Proof
end

