-- ==== Sys2Proof/Machine/State.lean ====
section
/-! DEFINITION. The state of the block as plain data: the bank a command's snapshot copies
(10_state R36), the phase with a running command's own progress (R21, R35), the remaining control
and status bits (R24, R25), and the three agents' inputs still to come (R20, 70 R279). -/

namespace Sys2Proof.Machine

/-! ## Errors and writes of a command -/

/-- The outcome codes of STATUS.ERR (60_exceptions R241). Codes 10 to 15 are never produced, so
they have no name. -/
inductive ErrCode where
  | ok | illegalCmd | invalidArg | noInverse | modulusOverflow | entropyUnavailable
  | retryBudgetExceeded | noContext | keyLocked | resultOverflow
deriving DecidableEq, Repr

/-- The keypair registers (10_state R31). -/
structure KeyRegs where
  kn   : Nat
  ke   : Nat
  kd   : Nat
  kp   : Nat
  kq   : Nat
  kphi : Nat
deriving DecidableEq, Repr

/-- The Montgomery context (R32): MCTX_N, MCTX_NP, MCTX_R2. -/
structure MontCtx where
  n  : Nat
  np : Nat
  r2 : Nat
deriving DecidableEq, Repr

/-- The Barrett context (R33): BCTX_N, BCTX_K, BCTX_MU. -/
structure BarCtx where
  n  : Nat
  k  : Nat
  mu : Nat
deriving DecidableEq, Repr

/-- One scheduled write of a command's result (00_scope R12, R13). -/
inductive Write where
  /-- `X[r] <- v` -/
  | x (r : Reg) (v : Nat)
  /-- `RES <- v` -/
  | res (v : Bool)
  /-- the six key registers and KV (44 R200, R205) -/
  | key (k : KeyRegs) (kv : Bool)
  /-- the Montgomery context, with MV = 1 (41 R121) -/
  | mont (c : MontCtx)
  /-- the Barrett context, with BV = 1 (41 R127) -/
  | bar (c : BarCtx)
  /-- `MBUF[0], MBUF[1], …` (45 R227) -/
  | mbuf (bytes : List Byte)
  /-- `MLEN <- n` -/
  | mlen (n : Nat)
deriving DecidableEq, Repr

/-- How a command's rule ends: its scheduled writes, or one error code (60 R240). -/
inductive Result where
  | ok (writes : List Write)
  | raise (e : ErrCode)
deriving DecidableEq, Repr

/-! ## Where a sampling command waits for entropy (10_state R35, 60 R258) -/

/-- Which prime search a candidate belongs to: PRIMEGEN's loop (42 R154), or loop P or Q of KEYGEN
(44 R201). -/
inductive Search where
  | primegen (rd : Reg)
  | keygenP
  | keygenQ (p : Nat)
deriving DecidableEq, Repr

/-- Who asked for the Miller-Rabin verdict: MRTEST, or a search whose candidates are `nb` bits wide
and which has drawn `c` of them. -/
inductive MrUse where
  | mrtest (rd : Reg)
  | search (s : Search) (nb c : Nat)
deriving DecidableEq, Repr

/-- Who runs the coprime loop: COPRIMEGEN (43 R182), or Derive with its primes (44 R202). -/
inductive CoprimeUse where
  | coprimegen (rd : Reg)
  | derive (p q : Nat)
deriving DecidableEq, Repr

/-- A point of a command's rule just before a draw, with all the command has computed so far. -/
inductive WaitPoint where
  /-- RAND's one draw of `k` bits (40 R102) -/
  | rand (rd : Reg) (k : Nat)
  /-- a candidate loop after `c` draws of `nb` bits -/
  | candidate (s : Search) (nb c : Nat)
  /-- SampleWitness(num) at width `w` after `c` draws (42 R152), with `rounds` rounds of R151 still
  to pass, this one included -/
  | witness (use : MrUse) (num rounds w c : Nat)
  /-- CoprimeLoop(m, nb) after `c` draws (43 R181) -/
  | coprime (use : CoprimeUse) (m nb c : Nat)
deriving DecidableEq, Repr

/-- A command's rule up to its next draw or its end. -/
inductive Advance where
  | done (r : Result)
  | wait (p : WaitPoint)
deriving DecidableEq, Repr

/-! ## The bank and the phase -/

/-- The message buffer's bytes: (index, byte) cells in canonical form, see `Memory.wf` in Ops. -/
abbrev Memory := List Host.Cell

/-- Everything a command's snapshot copies (R36), in the live state and in the snapshot. -/
structure Bank where
  cmd      : Word
  x        : Vector Nat 16
  arg      : Word
  retryCap : Word
  chk      : Bool
  key      : KeyRegs
  kv       : Bool
  mont     : MontCtx
  mv       : Bool
  bar      : BarCtx
  bv       : Bool
  mbuf     : Memory
  mlen     : Nat
  efail    : Bool
deriving DecidableEq, Repr

/-- The control state (R21). While BUSY it holds the snapshot (R36) and, once the command has run
into a draw that is not answered yet, the point where it waits (R35). -/
inductive Phase where
  | idle
  | busy (snap : Bank) (point : Option WaitPoint)
deriving DecidableEq, Repr

/-! ## The agents' inputs -/

/-- A host bus access (20_memory R61): a byte offset in the 2^15-byte window (R60), the width in
bytes, and the data of a write. -/
inductive Access where
  | read (offset : BitVec 15) (bytes : Nat)
  | write (offset : BitVec 15) (bytes : Nat) (data : Word)
deriving DecidableEq, Repr

/-- What the bus gives back for an access: read data, and whether it is a bus error (R61). -/
structure Response where
  data  : Word
  error : Bool
deriving DecidableEq, Repr

/-- An answer of the entropy source (60 R257). To a request of k bits, `value v` gives v mod 2^k, so
that every number below 2^k and no other can be the answer (log 4). -/
inductive Answer where
  | value (v : Nat)
  | fail
deriving DecidableEq, Repr

/-- One system step still to come (70 R279). -/
inductive Event where
  /-- the host makes one access -/
  | host (a : Access)
  /-- the engine makes one step -/
  | engine
  /-- the entropy source answers the outstanding request -/
  | answer (a : Answer)
  /-- the source answers a request that a reset has withdrawn (R270) -/
  | lateAnswer (a : Answer)
  /-- the reset input is asserted (R270) -/
  | hardReset
deriving DecidableEq, Repr

/-! ## The machine -/

/-- The whole machine: the block, its parameters, and what its environment will do. -/
structure State where
  /-- the implementation's parameters (00_scope R9); no step changes them -/
  params   : Params
  /-- R21, R35, R36 -/
  phase    : Phase
  /-- the live registers -/
  bank     : Bank
  /-- CTRL.IE (R24) -/
  ie       : Bool
  /-- STATUS.DONE (R25) -/
  done     : Bool
  /-- STATUS.RES (R25) -/
  res      : Bool
  /-- STATUS.ERR (R25, 60 R241) -/
  err      : ErrCode
  /-- STATUS.IGN (R25) -/
  ign      : Bool
  /-- STATUS.CMDLOST (R25) -/
  cmdLost  : Bool
  /-- the system steps to come, the next one first (log 3); the model's own field -/
  schedule : List Event
  /-- the answers the entropy source has ready for the coming requests (log 4); the model's own -/
  entropy  : List Answer
  /-- the bus's response to the last host access (log 7); the model's own field -/
  response : Option Response
deriving DecidableEq, Repr

/-- No behaviour of this hardware stops it: an error is a command's outcome (60 R240), a bad bus
access gets a response (20_memory R61), a hung command stays BUSY (70 R276). So there is no fault
(log 14). -/
inductive Fault where
deriving DecidableEq, Repr

/-- Reasons to refuse an instruction. -/
inductive Refusal where
  /-- raised by an arm of `exec` whose instruction has no meaning yet, under its mnemonic; safe: the
  machine stops. No arm raises it now. -/
  | notModelled (mnemonic : String)
deriving DecidableEq, Repr

/-- The outcome of a step or a meaning. -/
abbrev Out := Host.Outcome State Fault Refusal

/-! ## Reset (10_state R38) -/

/-- The bank after a reset: 0 everywhere, but CHK = 1 and RETRYCAP = RETRY_CAP_RESET; `efail` is 0
after a hardware reset and kept by a soft reset (70 R270, R271). -/
def Bank.reset (p : Params) (efail : Bool) : Bank :=
  { cmd := 0, x := Vector.replicate 16 0, arg := 0, retryCap := p.retryCapReset, chk := true,
    key := ⟨0, 0, 0, 0, 0, 0⟩, kv := false, mont := ⟨0, 0, 0⟩, mv := false,
    bar := ⟨0, 0, 0⟩, bv := false, mbuf := [], mlen := 0, efail := efail }

/-- The state right after hardware reset of an implementation with parameters `p`, no input to
come. -/
def State.resetOf (p : Params) : State :=
  { params := p, phase := .idle, bank := Bank.reset p false, ie := false, done := false,
    res := false, err := .ok, ign := false, cmdLost := false, schedule := [], entropy := [],
    response := none }

/-- The state after reset of the reference implementation (logs 1 and 2). -/
def State.reset : State := State.resetOf Params.reference

end Sys2Proof.Machine
end

