-- ==== Sys2Proof/Machine/Arith.lean ====
section
/-! DEFINITION. The exact arithmetic of the units on naturals (00_scope R11, 41 R120, 42 R151,
43 R171 to R177, 45 R221, R222). Every function is structurally recursive, so that it runs. -/

namespace Sys2Proof.Machine

/-- The number of bits of v without leading zeros (R11). -/
def bitlen (v : Nat) : Nat := if v = 0 then 0 else Nat.log2 v + 1

/-- `b^e mod n` by repeated squaring over `fuel` bits of `e`. -/
def powModBits (n : Nat) : Nat → Nat → Nat → Nat
  | 0, _, _ => 1 % n
  | fuel + 1, b, e =>
    if e = 0 then 1 % n
    else
      let h := powModBits n fuel (b * b % n) (e / 2)
      if e % 2 = 1 then b * h % n else h

/-- `(b^e) mod n`, exact, with 0^0 = 1 (41 R130). `Laws` proves it equal to `b ^ e % n` (log 12). -/
def powMod (b e n : Nat) : Nat := powModBits n (bitlen e) b e

/-! ## Extended gcd (43 R176, R177) -/

/-- The three results of the extended gcd, coefficients signed. -/
structure Bezout where
  g : Nat
  x : Int
  y : Int
deriving DecidableEq, Repr

/-- The loop of R176 from (r0, r1), (s0, s1), (t0, t1). `fuel` bounds the iterations; r1 + 1 is
enough, since r1 falls in each. -/
def egcdLoop : Nat → Nat → Nat → Int → Int → Int → Int → Bezout
  | 0, r0, _, s0, _, t0, _ => ⟨r0, s0, t0⟩
  | fuel + 1, r0, r1, s0, s1, t0, t1 =>
    if r1 = 0 then ⟨r0, s0, t0⟩
    else
      let q : Int := Int.ofNat (r0 / r1)
      egcdLoop fuel r1 (r0 % r1) s1 (s0 - q * s1) t1 (t0 - q * t1)

/-- EGCD_RAW(a, b) (R176). -/
def egcdRaw (a b : Nat) : Bezout := egcdLoop (b + 1) a b 1 0 0 1

/-- Add `n` once if negative (R177). -/
def addWhenNegative (z : Int) (n : Nat) : Int := if z < 0 then z + Int.ofNat n else z

/-- EGCD_NORM(a, b) (R177). -/
def egcdNorm (a b : Nat) : Bezout :=
  let raw := egcdRaw a b
  ⟨raw.g, addWhenNegative raw.x b, addWhenNegative raw.y a⟩

/-- The residue of x in [0, n) with a·x ≡ gcd(a, n) (mod n); the inverse of a when they are coprime
(00_scope R15, 41 R120, R121). -/
def inverseMod (a n : Nat) : Nat := ((egcdRaw a n).x % Int.ofNat n).toNat

/-! ## Montgomery and Barrett (41 R120, R121, R127) -/

/-- R⁻¹ in [0, N) for the radix R = 2^width (R120). -/
def radixInverse (width n : Nat) : Nat := inverseMod (2 ^ width) n

/-- The Montgomery context of modulus n (R121). -/
def montCtxOf (width n : Nat) : MontCtx :=
  { n := n
    np := (2 ^ width - inverseMod n (2 ^ width)) % 2 ^ width
    r2 := 2 ^ (2 * width) % n }

/-- The Barrett context of modulus n (R127). -/
def barCtxOf (n : Nat) : BarCtx :=
  { n := n, k := bitlen n, mu := 2 ^ (2 * bitlen n) / n }

/-! ## One Miller-Rabin round (42 R151) -/

/-- Halve d while it is even, counting: (d, r) with the number equal to d·2^r. `fuel` bounds the
halvings. -/
def oddPart : Nat → Nat → Nat → Nat × Nat
  | 0, d, r => (d, r)
  | fuel + 1, d, r => if d % 2 = 0 then oddPart fuel (d / 2) (r + 1) else (d, r)

/-- Whether one of `count` squarings of x modulo num reaches num − 1. -/
def squaringsReach (num : Nat) : Nat → Nat → Bool
  | 0, _ => false
  | count + 1, x =>
    let x' := x * x % num
    if x' = num - 1 then true else squaringsReach num count x'

/-- Whether num ≥ 4 passes the round with witness a (R151): zero squarings when r ≤ 1. -/
def witnessPasses (num a : Nat) : Bool :=
  let dr := oddPart (bitlen num) (num - 1) 0
  let x := powMod a dr.1 num
  if x = 1 ∨ x = num - 1 then true else squaringsReach num (dr.2 - 1) x

/-! ## Byte messages (45 R221, R222) -/

/-- The big-endian unsigned reading of a message (R221). -/
def bytesToInt (bs : List Byte) : Nat := bs.foldl (fun v b => v * 256 + b.toNat) 0

/-- The length of the minimal encoding, at least one byte (R222). -/
def intLength (v : Nat) : Nat := max 1 ((bitlen v + 7) / 8)

/-- The minimal big-endian encoding (R222). -/
def intToBytes (v : Nat) : List Byte :=
  (List.range (intLength v)).map fun i => BitVec.ofNat 8 (v / 256 ^ (intLength v - 1 - i))

end Sys2Proof.Machine
end

