-- ==== Sys2Proof/Machine/Ops.lean ====
section
/-! DEFINITION. The shared operations: the message buffer's bytes, words of wide registers, the
start of a command (10_state R26, R36), applying scheduled writes, completion with its errors
(60_exceptions R245, R247), the entropy port (R257 to R259), and the two resets (70 R270, R271). -/

namespace Sys2Proof.Machine

/-! ## The message buffer (10_state R30)

Cells (index, byte) with strictly rising indices and no cell equal to what an unlisted index reads
as, so that equal buffers are equal lists (log 9). -/

/-- What an unlisted byte reads as: the reset contents of MBUF (R30, R38). -/
def Memory.blankByte : Byte := 0

/-- MBUF[a]. -/
def Memory.read : Memory → Nat → Byte
  | [], _ => Memory.blankByte
  | (i, b) :: rest, a => if i = a then b else Memory.read rest a

/-- MBUF[a] <- b, keeping the canonical form. -/
def Memory.write : Memory → Nat → Byte → Memory
  | [], a, b => if b = Memory.blankByte then [] else [(a, b)]
  | (i, c) :: rest, a, b =>
    if a < i then (if b = Memory.blankByte then (i, c) :: rest else (a, b) :: (i, c) :: rest)
    else if a = i then (if b = Memory.blankByte then rest else (a, b) :: rest)
    else (i, c) :: Memory.write rest a b

/-- MBUF[a], MBUF[a+1], … <- the bytes. -/
def Memory.writeAll : Memory → Nat → List Byte → Memory
  | m, _, [] => m
  | m, a, b :: bs => Memory.writeAll (Memory.write m a b) (a + 1) bs

/-- MBUF[0..n). -/
def Memory.bytes (m : Memory) (n : Nat) : List Byte := (List.range n).map (Memory.read m)

/-- The canonical form: indices rise strictly from `lo` on, and no listed byte is the blank one. -/
def Memory.wfFrom : Nat → Memory → Bool
  | _, [] => true
  | lo, (i, b) :: rest => decide (lo ≤ i) && b != Memory.blankByte && Memory.wfFrom (i + 1) rest

/-- The canonical form of the message buffer. -/
def Memory.wf (m : Memory) : Bool := Memory.wfFrom 0 m

/-- Whether every listed index is below n. -/
def Memory.below (m : Memory) (n : Nat) : Bool := m.all fun c => decide (c.1 < n)

/-! ## Words of wide registers and of MBUF (20_memory R63, R64) -/

/-- Word k of a wide value: bits [32k+31:32k]. -/
def getWord (v k : Nat) : Word := BitVec.ofNat 32 (v / 2 ^ (32 * k))

/-- The value with word k replaced, every other bit kept. -/
def setWord (v k : Nat) (d : Word) : Nat :=
  v / 2 ^ (32 * (k + 1)) * 2 ^ (32 * (k + 1)) + d.toNat * 2 ^ (32 * k) + v % 2 ^ (32 * k)

/-- Bus word j of MBUF: byte 4j+b in bits [8b+7:8b]. -/
def Memory.busWord (m : Memory) (j : Nat) : Word :=
  m.read (4 * j + 3) ++ m.read (4 * j + 2) ++ m.read (4 * j + 1) ++ m.read (4 * j)

/-- The four bytes of a bus word, lane 0 first. -/
def wordBytes (d : Word) : List Byte :=
  [d.extractLsb' 0 8, d.extractLsb' 8 8, d.extractLsb' 16 8, d.extractLsb' 24 8]

/-! ## Operand registers -/

/-- X[r] of a bank (10_state R22). -/
def Bank.readX (b : Bank) (r : Reg) : Nat := b.x[r]

/-- The bank with X[r] = v. -/
def Bank.writeX (b : Bank) (r : Reg) (v : Nat) : Bank := { b with x := b.x.set r v }

/-! ## Start, completion and acknowledgement of a command -/

/-- Accept a command word while IDLE (10_state R26): store it, take the snapshot (R36), set BUSY,
clear DONE and ERR. -/
def State.start (s : State) (w : Word) : State :=
  let bank := { s.bank with cmd := w }
  { s with bank := bank, phase := .busy bank none, done := false, err := .ok }

/-- One scheduled write takes effect (00_scope R12). -/
def State.applyWrite (s : State) : Write → State
  | .x r v => { s with bank := s.bank.writeX r v }
  | .res v => { s with res := v }
  | .key k kv => { s with bank := { s.bank with key := k, kv := kv } }
  | .mont c => { s with bank := { s.bank with mont := c, mv := true } }
  | .bar c => { s with bank := { s.bank with bar := c, bv := true } }
  | .mbuf bytes => { s with bank := { s.bank with mbuf := s.bank.mbuf.writeAll 0 bytes } }
  | .mlen n => { s with bank := { s.bank with mlen := n } }

/-- Completion, the trap-entry analogue (60 R247): on success every scheduled write and ERR = 0; on
an error ERR alone (R245); then BUSY = 0 and DONE = 1. -/
def State.complete (s : State) : Result → State
  | .ok ws => { ws.foldl State.applyWrite s with err := .ok, phase := .idle, done := true }
  | .raise e => { s with err := e, phase := .idle, done := true }

/-- Acknowledgement, the trap-return analogue (60 R248), and the other write-1-to-clear bits of
STATUS (10_state R25): ERR is kept. -/
def State.acknowledge (s : State) (v : Word) : State :=
  { s with
    done := s.done && !v.getLsbD 1
    ign := s.ign && !v.getLsbD 12
    cmdLost := s.cmdLost && !v.getLsbD 13 }

/-! ## The entropy port and the retry cap (60 R257 to R259) -/

/-- The width of the draw a wait point is about to make. -/
def WaitPoint.width : WaitPoint → Nat
  | .rand _ k => k
  | .candidate _ nb _ => nb
  | .witness _ _ _ w _ => w
  | .coprime _ _ nb _ => nb

/-- The draws its sampling loop has made; RAND is no loop and has no cap check (40 R102). -/
def WaitPoint.count : WaitPoint → Option Nat
  | .rand _ _ => none
  | .candidate _ _ c => some c
  | .witness _ _ _ _ c => some c
  | .coprime _ _ _ c => some c

/-- CAPCHECK(c) (R258): whether it raises. -/
def capReached (cap : Nat) : Option Nat → Bool
  | none => false
  | some c => cap != 0 && c == cap

/-- The error before a draw, if any: the cap is checked first, then EFAIL (60 R246, R257). -/
def WaitPoint.blocked (cap : Nat) (efail : Bool) (p : WaitPoint) : Option ErrCode :=
  if capReached cap p.count then some .retryBudgetExceeded
  else if efail then some .entropyUnavailable
  else none

/-! ## Reset -/

/-- The block after a reset that leaves EFAIL at `efail`; the agents' inputs are not the block's and
stay (70 R270: the entropy source is not reset). -/
def State.resetBlock (s : State) (efail : Bool) : State :=
  { State.resetOf s.params with
    bank := Bank.reset s.params efail, schedule := s.schedule, entropy := s.entropy,
    response := s.response }

/-- Hardware reset (70 R270), in any phase. -/
def State.hardReset (s : State) : State := { s.resetBlock false with response := none }

/-- Soft reset (70 R271), in any phase: EFAIL keeps its value. -/
def State.softReset (s : State) : State := s.resetBlock s.bank.efail

/-! ## Fetching the command -/

/-- The command word the engine decodes: the snapshot's, while BUSY (10_state R26, R36). -/
def State.fetch (s : State) : Option Word :=
  match s.phase with
  | .idle => none
  | .busy snap _ => some snap.cmd

/-- The block as it is just after a CMD write of `w` in IDLE, with the engine to move next. -/
def State.withCommand (s : State) (w : Word) : State :=
  { State.start s w with schedule := .engine :: s.schedule }

/-- A run is loaded from outside the block: the system steps to come and the answers the entropy
source has ready (log 6). -/
def State.load (s : State) (events : List Event) (answers : List Answer) : State :=
  { s with schedule := events, entropy := answers }

end Sys2Proof.Machine
end

