-- ==== Sys2Proof/Machine/Operands.lean ====
section
/-! DEFINITION. Every operand form of 30_encoding R81: register fields and ARG, read from the
snapshot (10_state R36), and the parameters. -/

namespace Sys2Proof.Machine

/-- The snapshot the running command reads (R36). In IDLE, where the step never runs a command, it
is the one a start would take (log 13). -/
def State.snap (s : State) : Bank :=
  match s.phase with
  | .idle => s.bank
  | .busy snap _ => snap

/-- The value of a register field: the W-bit value in the snapshot (R81). -/
def State.src (s : State) (r : Reg) : Nat := s.snap.readX r

/-- ARG as an unsigned integer (R81). -/
def State.argument (s : State) : Nat := s.snap.arg.toNat

/-- CAP: RETRYCAP as snapshotted (60 R258). -/
def State.cap (s : State) : Nat := s.snap.retryCap.toNat

/-- W. -/
def State.width (s : State) : Nat := s.params.width

/-- The bit-width check of RAND, PRIMEGEN, COPRIMEGEN and KEYDERIVE: 1 ≤ k ≤ W (60 R243). -/
def State.badWidth (s : State) (k : Nat) : Bool := decide (k = 0 ∨ s.width < k)

/-- The second and third destinations of EGCD, rd+1 and rd+2 (43 R179). -/
def Reg.plus (r : Reg) (n : Nat) : Reg := Fin.ofNat 16 (r.val + n)

/-- Where the command resumes: at its wait point if it has one, else from its start. -/
def State.resume (s : State) (start : Advance) : Advance :=
  match s.phase with
  | .busy _ (some p) => .wait p
  | _ => start

end Sys2Proof.Machine
end

