-- ==== Sys2Proof/Machine/Flags.lean ====
section
/-! DEFINITION. The status and control words (10_state R24, R25, R27), the codes of STATUS.ERR
(60_exceptions R241), and the outputs irq and entropy request (R37). There are no arithmetic
condition codes (R34). -/

namespace Sys2Proof.Machine

/-- The code of STATUS.ERR (60 R241). -/
def ErrCode.code : ErrCode → BitVec 4
  | .ok => 0
  | .illegalCmd => 1
  | .invalidArg => 2
  | .noInverse => 3
  | .modulusOverflow => 4
  | .entropyUnavailable => 5
  | .retryBudgetExceeded => 6
  | .noContext => 7
  | .keyLocked => 8
  | .resultOverflow => 9

/-- STATUS.BUSY (R21). -/
def State.busy (s : State) : Bool :=
  match s.phase with
  | .idle => false
  | .busy _ _ => true

/-- One status bit as a bit vector. -/
def flagBit (b : Bool) : BitVec 1 := BitVec.ofBool b

/-- The STATUS word (R25), most significant field first: 0, CMDLOST, IGN, ERR, EFAIL, BV, MV, KV,
RES, 0, DONE, BUSY. -/
def State.statusWord (s : State) : Word :=
  (0 : BitVec 18) ++ flagBit s.cmdLost ++ flagBit s.ign ++ s.err.code ++ flagBit s.bank.efail
    ++ flagBit s.bank.bv ++ flagBit s.bank.mv ++ flagBit s.bank.kv ++ flagBit s.res
    ++ (0 : BitVec 1) ++ flagBit s.done ++ flagBit s.busy

/-- The CTRL word (R24): bits 31 to 2 read 0. -/
def State.ctrlWord (s : State) : Word := (0 : BitVec 30) ++ flagBit s.bank.chk ++ flagBit s.ie

/-- The ID word (R27). -/
def idWord : Word := Config.idValue

/-- The PARAM word (R27): interface version, NREG, W. -/
def paramWord (p : Params) : Word :=
  Config.interfaceVersion ++ Config.registerCount ++ BitVec.ofNat 16 p.width

/-- The interrupt output (R37, 60 R250): a level. -/
def State.irq (s : State) : Bool := s.ie && s.done

/-- The entropy-port request that is outstanding, its width (R37, 60 R257). -/
def State.request (s : State) : Option Nat :=
  match s.phase with
  | .busy _ (some p) => some p.width
  | _ => none

/-- A write of CTRL without SRST (R24): IE always, CHK only while IDLE. -/
def State.writeCtrl (s : State) (v : Word) : State :=
  if s.busy then { s with ie := v.getLsbD 0 }
  else { s with ie := v.getLsbD 0, bank := { s.bank with chk := v.getLsbD 1 } }

end Sys2Proof.Machine
end

