-- ==== Sys2Proof/Machine/Bus.lean ====
section
/-! DEFINITION. The host's bus accesses (spec/20_memory.md R60 to R68): the address map, reads,
and writes with what a BUSY block does with them (10_state R23 to R30). -/

namespace Sys2Proof.Machine

/-- The read-only wide windows of the map (R62). KP, KQ and KPHI have none (10_state R31). -/
inductive RoWindow where
  | kn | ke | kd | mctxN | mctxNp | mctxR2 | bctxN | bctxMu
deriving DecidableEq, Repr

/-- What a word of the window is (R62). -/
inductive Target where
  | id | param | ctrl | status | cmd | arg | retryCap | mlen | bctxK
  | x (r : Reg) (k : Nat)
  | ro (w : RoWindow) (k : Nat)
  | mbuf (j : Nat)
  | unmapped
deriving DecidableEq, Repr

/-- The single-word registers of R62. -/
def controlTarget (offset : Nat) : Target :=
  match offset with
  | 0x0000 => .id
  | 0x0004 => .param
  | 0x0008 => .ctrl
  | 0x000C => .status
  | 0x0010 => .cmd
  | 0x0014 => .arg
  | 0x0018 => .retryCap
  | 0x001C => .mlen
  | 0x0020 => .bctxK
  | _ => .unmapped

/-- The window of 0x400 bytes with the given number from 0x5000 on (R62), and its words. -/
def wideTarget (words window k : Nat) : Target :=
  match window with
  | 0 => if k < words then .ro .kn k else .unmapped
  | 1 => if k < words then .ro .ke k else .unmapped
  | 2 => if k < words then .ro .kd k else .unmapped
  | 3 => if k < words then .ro .mctxN k else .unmapped
  | 4 => if k < words then .ro .mctxNp k else .unmapped
  | 5 => if k < words then .ro .mctxR2 k else .unmapped
  | 6 => if k < words then .ro .bctxN k else .unmapped
  | 7 => if k < words + 1 then .ro .bctxMu k else .unmapped
  | 8 => if k < words then .mbuf k else .unmapped
  | _ => .unmapped

/-- The address map (R62): a word at or beyond a window's size is unmapped (R65). -/
def busTarget (words offset : Nat) : Target :=
  if offset < 0x1000 then controlTarget offset
  else
    let k := offset % 0x400 / 4
    if offset < 0x5000 then
      if k < words then .x (Fin.ofNat 16 ((offset - 0x1000) / 0x400)) k else .unmapped
    else wideTarget words ((offset - 0x5000) / 0x400) k

/-- The value of a read-only window. -/
def Bank.roValue (b : Bank) : RoWindow → Nat
  | .kn => b.key.kn
  | .ke => b.key.ke
  | .kd => b.key.kd
  | .mctxN => b.mont.n
  | .mctxNp => b.mont.np
  | .mctxR2 => b.mont.r2
  | .bctxN => b.bar.n
  | .bctxMu => b.bar.mu

/-- What a read of a mapped word returns; live values, so a BUSY block shows those from before the
command (10_state R23, 92 D43). -/
def State.readTarget (s : State) : Target → Word
  | .id => idWord
  | .param => paramWord s.params
  | .ctrl => s.ctrlWord
  | .status => s.statusWord
  | .cmd => s.bank.cmd
  | .arg => s.bank.arg
  | .retryCap => s.bank.retryCap
  | .mlen => BitVec.ofNat 32 s.bank.mlen
  | .bctxK => BitVec.ofNat 32 s.bank.bar.k
  | .x r k => getWord (s.bank.readX r) k
  | .ro w k => getWord (s.bank.roValue w) k
  | .mbuf j => s.bank.mbuf.busWord j
  | .unmapped => 0

/-- A write of a register the host may change only while IDLE: dropped while BUSY, with IGN
(10_state R23, R28, R29, R30). -/
def State.writeIdle (s : State) (bank : Bank) : State :=
  if s.busy then { s with ign := true } else { s with bank := bank }

/-- What a write to a mapped word does. -/
def State.writeTarget (s : State) (v : Word) : Target → State
  | .ctrl => if v.getLsbD 31 then s.softReset else s.writeCtrl v
  | .status => s.acknowledge v
  | .cmd => if s.busy then { s with cmdLost := true } else s.start v
  | .arg => s.writeIdle { s.bank with arg := v }
  | .retryCap => s.writeIdle { s.bank with retryCap := v }
  | .mlen => s.writeIdle { s.bank with mlen := min (v.toNat % 2 ^ 16) s.params.bytes }
  | .x r k => s.writeIdle (s.bank.writeX r (setWord (s.bank.readX r) k v))
  | .mbuf j => s.writeIdle { s.bank with mbuf := s.bank.mbuf.writeAll (4 * j) (wordBytes v) }
  | .id | .param | .bctxK | .ro _ _ | .unmapped => s

/-- Whether an access gets a bus error: not 32 bits wide, or not at a multiple of 4 (R61). -/
def badAccess (offset : BitVec 15) (bytes : Nat) : Bool :=
  decide (bytes ≠ 4 ∨ offset.toNat % 4 ≠ 0)

/-- One host access (R61, R65, R67): one step, BUSY or not. -/
def State.hostAccess (s : State) : Access → State
  | .read offset bytes =>
    if badAccess offset bytes then { s with response := some ⟨0, true⟩ }
    else { s with
      response := some ⟨s.readTarget (busTarget s.params.words offset.toNat), false⟩ }
  | .write offset bytes v =>
    if badAccess offset bytes then { s with response := some ⟨0, true⟩ }
    else { s.writeTarget v (busTarget s.params.words offset.toNat) with
      response := some ⟨0, false⟩ }

end Sys2Proof.Machine
end

