-- ==== Sys2Proof/Machine/Sampling.lean ====
section
/-! DEFINITION. The sampling loops as transitions between draws: what a command does with an answer
(42 R151, R152, R154; 43 R181; 44 R201, R202), and the engine's run from a wait point over the
answers at hand (60 R257 to R259). Between two draws nothing is observable, so the engine goes on
until the command ends or a request is not answered (70 R280, log 5). -/

namespace Sys2Proof.Machine

/-! ## Between draws -/

/-- SampleWitness(num) begins for the next of `rounds` rounds: width bitlen(num − 2), no draw yet
(42 R152). -/
def beginWitness (use : MrUse) (num rounds : Nat) : Advance :=
  .wait (.witness use num rounds (bitlen (num - 2)) 0)

/-- CoprimeLoop(m, nb) begins (43 R181). -/
def beginCoprime (use : CoprimeUse) (m nb : Nat) : Advance := .wait (.coprime use m nb 0)

/-- Derive(p, q, eb) up to its e loop (44 R202). -/
def beginDerive (p q eb : Nat) : Advance :=
  beginCoprime (.derive p q) ((p - 1) * (q - 1)) eb

/-- The key registers of primes p, q and exponent e, d from EGCD_NORM(e, φ) (44 R202, R204). -/
def keyOf (p q e : Nat) : KeyRegs :=
  let phi := (p - 1) * (q - 1)
  { kn := p * q, ke := e, kd := (egcdNorm e phi).x.toNat, kp := p, kq := q, kphi := phi }

/-- A search has found a probable prime: PRIMEGEN ends (42 R154), KEYGEN goes from loop P to loop Q
and from loop Q to Derive (44 R201). -/
def primeFound (s : Search) (nb prime : Nat) : Advance :=
  match s with
  | .primegen rd => .done (.ok [.x rd prime])
  | .keygenP => .wait (.candidate (.keygenQ prime) nb 0)
  | .keygenQ p => beginDerive p prime nb

/-- The Miller-Rabin verdict on num goes to whoever asked: MRTEST ends (42 R153), a search takes the
candidate or draws its next one (42 R154, 44 R201). -/
def verdict (use : MrUse) (num : Nat) (v : Bool) : Advance :=
  match use with
  | .mrtest rd => .done (.ok [.x rd (if v then 1 else 0), .res v])
  | .search s nb c => if v then primeFound s nb num else .wait (.candidate s nb c)

/-- MR(num, k) up to its first draw or its verdict (42 R151). -/
def beginMr (use : MrUse) (num k : Nat) : Advance :=
  if num < 2 then verdict use num false
  else if num = 2 ∨ num = 3 then verdict use num true
  else if k = 0 then verdict use num true
  else beginWitness use num k

/-- A candidate has been drawn, the c-th of its loop: loop Q rejects p before any witness draw
(44 R201); else it is tested with 10 rounds (42 R154). -/
def candidateDrawn (s : Search) (nb c cand : Nat) : Advance :=
  if s = .keygenQ cand then .wait (.candidate s nb c)
  else beginMr (.search s nb c) cand Config.primegenRounds

/-- A number v has been drawn at width w as the c-th draw of SampleWitness(num) (42 R152), and, if
it is a witness, its round runs (R151). -/
def witnessDrawn (use : MrUse) (num rounds w c v : Nat) : Advance :=
  if 2 ≤ v ∧ v ≤ num - 2 then
    if witnessPasses num v then
      if rounds - 1 = 0 then verdict use num true else beginWitness use num (rounds - 1)
    else verdict use num false
  else if num - 2 < v then .wait (.witness use num rounds (max 2 (w - 1)) c)
  else .wait (.witness use num rounds w c)

/-- CoprimeLoop has found its value: COPRIMEGEN ends (43 R182), Derive computes the keypair
(44 R202). -/
def coprimeFound (use : CoprimeUse) (e : Nat) : Advance :=
  match use with
  | .coprimegen rd => .done (.ok [.x rd e])
  | .derive p q => .done (.ok [.key (keyOf p q e) true])

/-- The c-th draw of CoprimeLoop(m, nb) gave v (43 R181). -/
def coprimeDrawn (use : CoprimeUse) (m nb c v : Nat) : Advance :=
  if v < m ∧ Nat.gcd m v = 1 then coprimeFound use v else .wait (.coprime use m nb c)

/-- The rule goes on from a wait point whose draw gave v. -/
def WaitPoint.answered (v : Nat) : WaitPoint → Advance
  | .rand rd _ => .done (.ok [.x rd v])
  | .candidate s nb c => candidateDrawn s nb (c + 1) v
  | .witness use num rounds w c => witnessDrawn use num rounds w (c + 1) v
  | .coprime use m nb c => coprimeDrawn use m nb (c + 1) v

/-! ## Over the answers at hand -/

/-- How the engine's run over the answers ends. -/
inductive DriveEnd where
  /-- the command has ended; `rest` are the answers it has not consumed -/
  | ended (r : Result) (rest : List Answer)
  /-- the source answered FAIL (60 R257) -/
  | failed (rest : List Answer)
  /-- no answer is at hand for the draw of this point -/
  | starved (p : WaitPoint)
deriving DecidableEq, Repr

/-- Run from a wait point over the answers (60 R257): before each draw the cap and EFAIL, then one
transaction with the source. A k-bit request yields a value below 2^k. -/
def drive (cap : Nat) (efail : Bool) : List Answer → WaitPoint → DriveEnd
  | [], p =>
    match p.blocked cap efail with
    | some e => .ended (.raise e) []
    | none => .starved p
  | a :: rest, p =>
    match p.blocked cap efail with
    | some e => .ended (.raise e) (a :: rest)
    | none =>
      match a with
      | .fail => .failed rest
      | .value v =>
        match p.answered (v % 2 ^ p.width) with
        | .done r => .ended r rest
        | .wait q => drive cap efail rest q

/-- The state after the engine's run: completed, completed with EFAIL set (60 R259), or still BUSY
at the point that waits for an answer. -/
def State.settle (s : State) : DriveEnd → State
  | .ended r rest => State.complete { s with entropy := rest } r
  | .failed rest =>
    State.complete { s with entropy := rest, bank := { s.bank with efail := true } }
      (.raise .entropyUnavailable)
  | .starved p => { s with entropy := [], phase := .busy s.snap (some p) }

/-- The engine advances a command: to its end, or to a request that is not answered. -/
def State.advance (s : State) : Advance → State
  | .done r => s.complete r
  | .wait p => s.settle (drive s.cap s.snap.efail s.entropy p)

/-- A command that draws no entropy runs to its completion. -/
def State.finish (s : State) (r : Result) : Out := .next (s.complete r)

/-- A sampling command runs, from its start or from where it waits. -/
def State.sample (s : State) (start : Advance) : Out := .next (s.advance (s.resume start))

end Sys2Proof.Machine
end

