-- ==== Sys2Proof/Machine/Codec.lean ====
section
/-! DEFINITION. Codec commands (spec/45_codec.md). -/

namespace Sys2Proof.Machine

/-- The modular power of a message under the keypair, with the checks of ENC and DEC: the keypair,
then, if CHK = 1, the message below KN (R223, R224). -/
def codecResult (s : State) (rd : Reg) (message exponent : Nat) : Result :=
  if s.snap.kv then
    if s.snap.chk && decide (s.snap.key.kn ≤ message) then .raise .modulusOverflow
    else .ok [.x rd (powMod message exponent s.snap.key.kn)]
  else .raise .noContext

/-- ENC (R223): (m^KE) mod KN. -/
def execEnc (rd rs1 : Reg) (s : State) : Out :=
  s.finish (codecResult s rd (s.src rs1) s.snap.key.ke)

/-- DEC (R224): (c^KD) mod KN. -/
def execDec (rd rs1 : Reg) (s : State) : Out :=
  s.finish (codecResult s rd (s.src rs1) s.snap.key.kd)

/-- B2I (R226): the big-endian reading of MBUF[0..MLEN). -/
def execB2i (rd : Reg) (s : State) : Out :=
  s.finish (.ok [.x rd (bytesToInt (s.snap.mbuf.bytes s.snap.mlen))])

/-- I2B (R227): the minimal encoding, the rest of MBUF zero, and its length. -/
def execI2b (rs1 : Reg) (s : State) : Out :=
  let bytes := intToBytes (s.src rs1)
  s.finish
    (.ok [.mbuf (bytes ++ List.replicate (s.params.bytes - bytes.length) 0), .mlen bytes.length])

end Sys2Proof.Machine
end

