-- ==== Sys2Proof/Machine/ControlRandom.lean ====
section
/-! DEFINITION. Control and randomness commands (spec/40_control_random.md). -/

namespace Sys2Proof.Machine

/-- NOP (R101): no write. -/
def execNop (s : State) : Out := s.finish (.ok [])

/-- RAND (R102): one draw of ARG bits, no cap check. -/
def execRand (rd : Reg) (s : State) : Out :=
  s.sample
    (if s.badWidth s.argument then .done (.raise .invalidArg) else .wait (.rand rd s.argument))

end Sys2Proof.Machine
end

