-- ==== Sys2Proof/Machine/Keypair.lean ====
section
/-! DEFINITION. Keypair commands (spec/44_keypair.md): rsa_keypair_derivation_engine. A command
that succeeds writes all six key registers and KV in one commit (R200). -/

namespace Sys2Proof.Machine

/-- Whether supplied primes are refused: p < 2, q < 2 or p = q (R203, R204). -/
def badPrimes (p q : Nat) : Bool := decide (p < 2 ∨ q < 2 ∨ p = q)

/-- KEYGEN (R201): the lock, then 1 ≤ ARG ≤ W/2, then loops P and Q and Derive. -/
def execKeygen (s : State) : Out :=
  s.sample
    (if s.snap.kv then .done (.raise .keyLocked)
     else if s.argument = 0 ∨ s.width / 2 < s.argument then .done (.raise .invalidArg)
     else .wait (.candidate .keygenP s.argument 0))

/-- KEYDERIVE (R203): the lock, the bit width, the primes, the product, then Derive. -/
def execKeyderive (rs1 rs2 : Reg) (s : State) : Out :=
  s.sample
    (if s.snap.kv then .done (.raise .keyLocked)
     else if s.badWidth s.argument then .done (.raise .invalidArg)
     else if badPrimes (s.src rs1) (s.src rs2) then .done (.raise .invalidArg)
     else if 2 ^ s.width ≤ s.src rs1 * s.src rs2 then .done (.raise .resultOverflow)
     else beginDerive (s.src rs1) (s.src rs2) s.argument)

/-- KEYDERIVEE (R204): the lock, the primes, the product, the range of e, the inverse. -/
def execKeyderivee (rs1 rs2 rs3 : Reg) (s : State) : Out :=
  let p := s.src rs1
  let q := s.src rs2
  let e := s.src rs3
  let phi := (p - 1) * (q - 1)
  s.finish
    (if s.snap.kv then .raise .keyLocked
     else if badPrimes p q then .raise .invalidArg
     else if 2 ^ s.width ≤ p * q then .raise .resultOverflow
     else if e = 0 ∨ phi ≤ e then .raise .invalidArg
     else if (egcdNorm e phi).g ≠ 1 then .raise .noInverse
     else .ok [.key (keyOf p q e) true])

/-- KEYCLR (R205): all six key registers 0 and KV = 0, whatever KV was. -/
def execKeyclr (s : State) : Out := s.finish (.ok [.key ⟨0, 0, 0, 0, 0, 0⟩ false])

end Sys2Proof.Machine
end

