-- ==== Sys2Proof/Machine/Modular.lean ====
section
/-! DEFINITION. The modular arithmetic datapath (spec/41_modular_arithmetic.md): montgomery_mult,
barrett_reduce, modexp_engine. The results are the rules' definitions; the informative algorithms
R125, R129 and R131 are not steps. -/

namespace Sys2Proof.Machine

/-- MONTSETUP (R121): the modulus must be odd. -/
def execMontsetup (rs1 : Reg) (s : State) : Out :=
  s.finish
    (if s.src rs1 % 2 = 0 then .raise .invalidArg
     else .ok [.mont (montCtxOf s.width (s.src rs1))])

/-- MONTMUL (R122): (a·b·R⁻¹) mod N for every pair of W-bit operands. -/
def execMontmul (rd rs1 rs2 : Reg) (s : State) : Out :=
  let n := s.snap.mont.n
  s.finish
    (if s.snap.mv then .ok [.x rd (s.src rs1 * s.src rs2 * radixInverse s.width n % n)]
     else .raise .noContext)

/-- MONTIN (R123): (a·2^W) mod N. -/
def execMontin (rd rs1 : Reg) (s : State) : Out :=
  s.finish
    (if s.snap.mv then .ok [.x rd (s.src rs1 * 2 ^ s.width % s.snap.mont.n)]
     else .raise .noContext)

/-- MONTOUT (R124): (a·R⁻¹) mod N. -/
def execMontout (rd rs1 : Reg) (s : State) : Out :=
  let n := s.snap.mont.n
  s.finish
    (if s.snap.mv then .ok [.x rd (s.src rs1 * radixInverse s.width n % n)]
     else .raise .noContext)

/-- BARSETUP (R127): the modulus must not be 0. -/
def execBarsetup (rs1 : Reg) (s : State) : Out :=
  s.finish
    (if s.src rs1 = 0 then .raise .invalidArg else .ok [.bar (barCtxOf (s.src rs1))])

/-- BARRED (R128): the context, then the domain a < 2^(2K), then a mod N. -/
def execBarred (rd rs1 : Reg) (s : State) : Out :=
  s.finish
    (if s.snap.bv then
      if 2 ^ (2 * s.snap.bar.k) ≤ s.src rs1 then .raise .invalidArg
      else .ok [.x rd (s.src rs1 % s.snap.bar.n)]
     else .raise .noContext)

/-- MODEXP (R130): (b^e) mod n. It reads and changes no context. -/
def execModexp (rd rs1 rs2 rs3 : Reg) (s : State) : Out :=
  s.finish
    (if s.src rs3 = 0 then .raise .invalidArg
     else .ok [.x rd (powMod (s.src rs1) (s.src rs2) (s.src rs3))])

end Sys2Proof.Machine
end

