-- ==== Sys2Proof/Machine/NumberTheory.lean ====
section
/-! DEFINITION. Number-theoretic commands (spec/43_number_theory.md): extended_gcd_unit,
modular_inverse_unit and the coprime search. `Nat.gcd` is the Euclidean algorithm of R171. -/

namespace Sys2Proof.Machine

/-- GCD (R172). -/
def execGcd (rd rs1 rs2 : Reg) (s : State) : Out :=
  s.finish (.ok [.x rd (Nat.gcd (s.src rs1) (s.src rs2))])

/-- COPRIME (R173): the verdict goes to rd and RES. -/
def execCoprime (rd rs1 rs2 : Reg) (s : State) : Out :=
  let v := decide (Nat.gcd (s.src rs1) (s.src rs2) = 1)
  s.finish (.ok [.x rd (if v then 1 else 0), .res v])

/-- EGCD (R179): g, x̂, ŷ to rd, rd+1, rd+2. The decoder refuses rd > 13 (30_encoding R85 (d)); the
meaning reports the same ILLEGAL_CMD (log 13). -/
def execEgcd (rd rs1 rs2 : Reg) (s : State) : Out :=
  let b := egcdNorm (s.src rs1) (s.src rs2)
  s.finish
    (if 13 < rd.val then .raise .illegalCmd
     else .ok [.x rd b.g, .x (Reg.plus rd 1) b.x.toNat, .x (Reg.plus rd 2) b.y.toNat])

/-- MODINV (R180): φ = 0 first, then gcd(e, φ) = 1. -/
def execModinv (rd rs1 rs2 : Reg) (s : State) : Out :=
  let b := egcdNorm (s.src rs1) (s.src rs2)
  s.finish
    (if s.src rs2 = 0 then .raise .invalidArg
     else if b.g ≠ 1 then .raise .noInverse
     else .ok [.x rd b.x.toNat])

/-- COPRIMEGEN (R182): the bit width first, then modulus 0, then the loop. -/
def execCoprimegen (rd rs1 : Reg) (s : State) : Out :=
  s.sample
    (if s.badWidth s.argument then .done (.raise .invalidArg)
     else if s.src rs1 = 0 then .done (.raise .invalidArg)
     else beginCoprime (.coprimegen rd) (s.src rs1) s.argument)

end Sys2Proof.Machine
end

