-- ==== Sys2Proof/Machine/Primality.lean ====
section
/-! DEFINITION. Primality commands (spec/42_primality.md): miller_rabin_engine and the prime search
of prime_generator_fsm. The procedure MR and its witness sampling are in Sampling and Arith. -/

namespace Sys2Proof.Machine

/-- MRTEST (R153): ARG rounds of MR on X[rs1]; the verdict goes to rd and RES. -/
def execMrtest (rd rs1 : Reg) (s : State) : Out :=
  s.sample
    (if s.argument = 0 then .done (.raise .invalidArg)
     else beginMr (.mrtest rd) (s.src rs1) s.argument)

/-- PRIMEGEN (R154): candidates of ARG bits until one passes 10 rounds. -/
def execPrimegen (rd : Reg) (s : State) : Out :=
  s.sample
    (if s.badWidth s.argument then .done (.raise .invalidArg)
     else .wait (.candidate (.primegen rd) s.argument 0))

end Sys2Proof.Machine
end

