-- ==== Sys2Proof/Machine/Dispatch.lean ====
section
/-! DEFINITION. The dispatch from commands to their meanings, one arm per constructor. -/

namespace Sys2Proof.Machine

def exec (i : Instr) (s : State) : Host.Outcome State Fault Refusal :=
  match i with
  -- spec/40
  | .nop => Sys2Proof.Machine.execNop s
  | .rand rd => Sys2Proof.Machine.execRand rd s
  -- spec/41
  | .montsetup rs1 => Sys2Proof.Machine.execMontsetup rs1 s
  | .montmul rd rs1 rs2 => Sys2Proof.Machine.execMontmul rd rs1 rs2 s
  | .montin rd rs1 => Sys2Proof.Machine.execMontin rd rs1 s
  | .montout rd rs1 => Sys2Proof.Machine.execMontout rd rs1 s
  | .barsetup rs1 => Sys2Proof.Machine.execBarsetup rs1 s
  | .barred rd rs1 => Sys2Proof.Machine.execBarred rd rs1 s
  | .modexp rd rs1 rs2 rs3 => Sys2Proof.Machine.execModexp rd rs1 rs2 rs3 s
  -- spec/42
  | .mrtest rd rs1 => Sys2Proof.Machine.execMrtest rd rs1 s
  | .primegen rd => Sys2Proof.Machine.execPrimegen rd s
  -- spec/43
  | .gcd rd rs1 rs2 => Sys2Proof.Machine.execGcd rd rs1 rs2 s
  | .coprime rd rs1 rs2 => Sys2Proof.Machine.execCoprime rd rs1 rs2 s
  | .egcd rd rs1 rs2 => Sys2Proof.Machine.execEgcd rd rs1 rs2 s
  | .modinv rd rs1 rs2 => Sys2Proof.Machine.execModinv rd rs1 rs2 s
  | .coprimegen rd rs1 => Sys2Proof.Machine.execCoprimegen rd rs1 s
  -- spec/44
  | .keygen => Sys2Proof.Machine.execKeygen s
  | .keyderive rs1 rs2 => Sys2Proof.Machine.execKeyderive rs1 rs2 s
  | .keyderivee rs1 rs2 rs3 => Sys2Proof.Machine.execKeyderivee rs1 rs2 rs3 s
  | .keyclr => Sys2Proof.Machine.execKeyclr s
  -- spec/45
  | .enc rd rs1 => Sys2Proof.Machine.execEnc rd rs1 s
  | .dec rd rs1 => Sys2Proof.Machine.execDec rd rs1 s
  | .b2i rd => Sys2Proof.Machine.execB2i rd s
  | .i2b rs1 => Sys2Proof.Machine.execI2b rs1 s

end Sys2Proof.Machine
end

