-- ==== Sys2Proof/Machine/Engine.lean ====
section
/-! DEFINITION. What each system step does (70_reset_and_hazards R279): an engine step with the decode
of the command word, an entropy answer, a host access, a hardware reset. -/

namespace Sys2Proof.Machine

/-- One engine step: decode the snapshot's command word and run it; an illegal word completes with
ILLEGAL_CMD (30_encoding R85, 60 R242); in IDLE there is nothing to do. -/
def engineStep (s : State) : Host.Outcome State Fault Refusal :=
  match s.fetch with
  | none => .next s
  | some w =>
    match decode w with
    | .ok i => exec i s
    | .error _ => .next (s.complete (.raise .illegalCmd))

/-- The entropy source answers: the outstanding request's transaction takes place (60 R257). With no
request outstanding the answer belongs to a withdrawn one and is discarded (70 R270). -/
def answerStep (a : Answer) (s : State) : Host.Outcome State Fault Refusal :=
  match s.request with
  | some _ => engineStep { s with entropy := a :: s.entropy }
  | none => .next s

/-- One scheduled event. -/
def eventStep (e : Event) (s : State) : Host.Outcome State Fault Refusal :=
  match e with
  | .host a => .next (s.hostAccess a)
  | .engine => engineStep s
  | .answer a => answerStep a s
  | .lateAnswer _ => .next s
  | .hardReset => .next s.hardReset

end Sys2Proof.Machine
end

