-- ==== Sys2Proof/Machine/Step.lean ====
section
/-! DEFINITION. One system step (70_reset_and_hazards R279): the next entry of the schedule, one of
a host access, an engine step, an answer of the entropy source, or a hardware reset. With the
schedule empty, a BUSY block's engine moves (the weak fairness of R279) and an IDLE block waits for
its host (logs 3 and 5). -/

namespace Sys2Proof.Machine

/-- One step of the machine. -/
def step (s : State) : Host.Outcome State Fault Refusal :=
  match s.schedule with
  | [] => engineStep s
  | e :: rest => eventStep e { s with schedule := rest }

/-- `s` with the command word `w` accepted and the engine to move next, so that the next step
fetches and runs exactly it: a command is one 32-bit word, and it is fetched from the snapshot that
its CMD write takes (10_state R26, R36; log 6). -/
def State.withFetchWord (s : State) (nbits w : Nat) : State :=
  s.withCommand (BitVec.ofNat 32 (w % 2 ^ nbits))

end Sys2Proof.Machine
end

