-- ==== Sys2Proof/Machine/HostOps.lean ====
section
/-! DEFINITION. The host's pseudo-operations (30_encoding R89) as the bus accesses they expand to.
`ENT k -> v` is no host operation: it is an entry of the list of answers. -/

namespace Sys2Proof.Machine

/-- `WR off, v`. -/
def opWr (offset : BitVec 15) (v : Word) : Event := .host (.write offset 4 v)

/-- `RD off`. -/
def opRd (offset : BitVec 15) : Event := .host (.read offset 4)

/-- The offset of word k of X[i]: 0x1000 + 0x400·i + 4·k (20_memory R62). -/
def xOffset (i : Reg) (k : Nat) : BitVec 15 := BitVec.ofNat 15 (0x1000 + 0x400 * i.val + 4 * k)

/-- `SETR Xi, v`: the WW words, word 0 first. -/
def opSetr (p : Params) (i : Reg) (v : Nat) : List Event :=
  (List.range p.words).map fun k => opWr (xOffset i k) (getWord v k)

/-- `GETR Xi`: the WW reads. -/
def opGetr (p : Params) (i : Reg) : List Event :=
  (List.range p.words).map fun k => opRd (xOffset i k)

/-- The value of a GETR from the words read, word 0 first (20_memory R63). -/
def assembleWords (ws : List Word) : Nat := ws.foldr (fun w v => w.toNat + 2 ^ 32 * v) 0

/-- `CMD word`. -/
def opCmd (w : Word) : Event := opWr 0x0010 w

/-- `X … #n`: ARG = n, then the command. -/
def opCmdArg (w n : Word) : List Event := [opWr 0x0014 n, opCmd w]

/-- One turn of `WAIT`: the engine moves, then the host reads STATUS. The host repeats it until
BUSY = 0; how often is its own affair (log 3). -/
def opWaitTurn : List Event := [.engine, opRd 0x000C]

/-- `ACK`: write 1 to STATUS.DONE. -/
def opAck : Event := opWr 0x000C 0x00000002

end Sys2Proof.Machine
end

