-- ==== Sys2Proof/Machine/Procedures.lean ====
section
/-! DEFINITION. The sampling procedures once more, written in the order of the rules' pseudocode
(42 R151, R152, R154; 43 R181; 44 R201, R202) as functions of the answers, with nothing to resume.
The meanings in Sampling stop and resume between draws; statements compare the two. -/

namespace Sys2Proof.Machine

/-- How a procedure over a list of answers ends. -/
inductive Ran (α : Type) where
  /-- it returns, and these answers are left -/
  | value (a : α) (rest : List Answer)
  /-- it raises an error; `efail` says whether an answer FAIL has set EFAIL -/
  | raised (e : ErrCode) (efail : Bool) (rest : List Answer)
  /-- it waits for an answer that is not there -/
  | starved
deriving DecidableEq, Repr

/-- Go on after a procedure that returned. -/
def Ran.andThen {α β : Type} (m : Ran α) (f : α → List Answer → Ran β) : Ran β :=
  match m with
  | .value a rest => f a rest
  | .raised e efail rest => .raised e efail rest
  | .starved => .starved

/-- What the entropy port and the cap are to one command: CAP and EFAIL from the snapshot. -/
structure Port where
  cap   : Nat
  efail : Bool
deriving DecidableEq, Repr

/-- The port of a state's snapshot. -/
def State.port (s : State) : Port := { cap := s.cap, efail := s.snap.efail }

namespace Procedure

/-- ENTROPY(k) (60 R257). -/
def entropy (port : Port) (k : Nat) (answers : List Answer) : Ran Nat :=
  if port.efail then .raised .entropyUnavailable false answers
  else
    match answers with
    | [] => .starved
    | .fail :: rest => .raised .entropyUnavailable true rest
    | .value v :: rest => .value (v % 2 ^ k) rest

/-- One turn of a sampling loop: CAPCHECK(c), then ENTROPY(k) (60 R258). -/
def cappedEntropy (port : Port) (c k : Nat) (answers : List Answer) : Ran Nat :=
  if port.cap ≠ 0 ∧ c = port.cap then .raised .retryBudgetExceeded false answers
  else entropy port k answers

/-- The loop of SampleWitness(num) with hi = num − 2, at width w after c draws (42 R152). `fuel`
bounds the turns; one more than the answers is enough, since each turn takes one. -/
def sampleLoop (port : Port) (hi : Nat) : Nat → Nat → Nat → List Answer → Ran Nat
  | 0, _, _, _ => .starved
  | fuel + 1, w, c, answers =>
    (cappedEntropy port c w answers).andThen fun v rest =>
      if 2 ≤ v ∧ v ≤ hi then .value v rest
      else if hi < v then sampleLoop port hi fuel (max 2 (w - 1)) (c + 1) rest
      else sampleLoop port hi fuel w (c + 1) rest

/-- SampleWitness(num) (42 R152). -/
def sampleWitness (port : Port) (num : Nat) (answers : List Answer) : Ran Nat :=
  sampleLoop port (num - 2) (answers.length + 1) (bitlen (num - 2)) 0 answers

/-- The rounds of MR(num, k) for num ≥ 4 (42 R151). -/
def rounds (port : Port) (num : Nat) : Nat → List Answer → Ran Bool
  | 0, answers => .value true answers
  | k + 1, answers =>
    (sampleWitness port num answers).andThen fun a rest =>
      if witnessPasses num a then rounds port num k rest else .value false rest

/-- MR(num, k) (42 R151). -/
def mr (port : Port) (num k : Nat) (answers : List Answer) : Ran Bool :=
  if num < 2 then .value false answers
  else if num = 2 ∨ num = 3 then .value true answers
  else rounds port num k answers

/-- A prime candidate loop (42 R154, 44 R201): draws of nb bits, a candidate equal to `skip`
rejected before any witness draw, the first that passes 10 rounds returned. -/
def primeLoop (port : Port) (nb : Nat) (skip : Option Nat) :
    Nat → Nat → List Answer → Ran Nat
  | 0, _, _ => .starved
  | fuel + 1, c, answers =>
    (cappedEntropy port c nb answers).andThen fun cand rest =>
      if skip = some cand then primeLoop port nb skip fuel (c + 1) rest
      else
        (mr port cand Config.primegenRounds rest).andThen fun v rest' =>
          if v then .value cand rest' else primeLoop port nb skip fuel (c + 1) rest'

/-- The candidate loop from its start. -/
def findPrime (port : Port) (nb : Nat) (skip : Option Nat) (answers : List Answer) : Ran Nat :=
  primeLoop port nb skip (answers.length + 1) 0 answers

/-- The loop of CoprimeLoop(m, nb) after c draws (43 R181). -/
def coprimeLoop (port : Port) (m nb : Nat) : Nat → Nat → List Answer → Ran Nat
  | 0, _, _ => .starved
  | fuel + 1, c, answers =>
    (cappedEntropy port c nb answers).andThen fun cand rest =>
      if cand < m ∧ Nat.gcd m cand = 1 then .value cand rest
      else coprimeLoop port m nb fuel (c + 1) rest

/-- CoprimeLoop(m, nb) (43 R181). -/
def findCoprime (port : Port) (m nb : Nat) (answers : List Answer) : Ran Nat :=
  coprimeLoop port m nb (answers.length + 1) 0 answers

/-- Derive(p, q, eb) (44 R202), as the key registers it writes. -/
def deriveKey (port : Port) (p q eb : Nat) (answers : List Answer) : Ran KeyRegs :=
  (findCoprime port ((p - 1) * (q - 1)) eb answers).andThen fun e rest =>
    .value (keyOf p q e) rest

/-- Loops P and Q and Derive of KEYGEN (44 R201). -/
def keygen (port : Port) (b : Nat) (answers : List Answer) : Ran KeyRegs :=
  (findPrime port b none answers).andThen fun p rest =>
    (findPrime port b (some p) rest).andThen fun q rest' => deriveKey port p q b rest'

end Procedure

end Sys2Proof.Machine
end

