-- ==== Sys2Proof/Safety.lean ====
section
/-! DEFINITION. The terms of the claims: the invariant of every reachable state (10_state R39 with
the widths of R22 to R33 and the snapshot of R36), and the frames, that is what a command leaves
unchanged. -/

namespace Sys2Proof.Machine

/-! ## The invariant -/

/-- Every register value fits its width (00_scope R10, 10_state R22, R30 to R33), and MBUF is in
canonical form within its W/8 bytes. -/
abbrev Bank.Fits (p : Params) (b : Bank) : Prop :=
  (∀ r : Reg, b.readX r < 2 ^ p.width)
  ∧ (b.key.kn < 2 ^ p.width ∧ b.key.ke < 2 ^ p.width ∧ b.key.kd < 2 ^ p.width
    ∧ b.key.kp < 2 ^ p.width ∧ b.key.kq < 2 ^ p.width ∧ b.key.kphi < 2 ^ p.width)
  ∧ (b.mont.n < 2 ^ p.width ∧ b.mont.np < 2 ^ p.width ∧ b.mont.r2 < 2 ^ p.width)
  ∧ (b.bar.n < 2 ^ p.width ∧ b.bar.k ≤ p.width ∧ b.bar.mu < 2 ^ (p.width + 2))
  ∧ (b.mlen ≤ p.bytes ∧ b.mbuf.wf = true ∧ b.mbuf.below p.bytes = true)

/-- KN, KPHI, KE and KD are what the key commands derive from KP and KQ (44 R202, R206). -/
abbrev KeyRegs.IsDerived (k : KeyRegs) : Prop :=
  k.kn = k.kp * k.kq ∧ k.kphi = (k.kp - 1) * (k.kq - 1)
  ∧ 0 < k.ke ∧ k.ke < k.kphi ∧ Nat.gcd k.ke k.kphi = 1
  ∧ k.kd < k.kphi ∧ k.ke * k.kd % k.kphi = 1

/-- The keypair laws of R39: with KV the six laws, without it all six registers 0. -/
abbrev Bank.KeyLaws (b : Bank) : Prop :=
  (b.kv = true → 2 ≤ b.key.kp ∧ 2 ≤ b.key.kq ∧ b.key.kp ≠ b.key.kq ∧ b.key.IsDerived)
  ∧ (b.kv = false → b.key = ⟨0, 0, 0, 0, 0, 0⟩)

/-- The context laws of R32, R33 and R39. -/
abbrev Bank.ContextLaws (p : Params) (b : Bank) : Prop :=
  (b.mv = true →
    b.mont.n % 2 = 1 ∧ (b.mont.np * b.mont.n + 1) % 2 ^ p.width = 0
    ∧ b.mont.r2 = 2 ^ (2 * p.width) % b.mont.n)
  ∧ (b.bv = true →
    1 ≤ b.bar.n ∧ b.bar.k = bitlen b.bar.n ∧ b.bar.mu = 2 ^ (2 * b.bar.k) / b.bar.n)

/-- Whether a search is the one of command `i`, whose candidates have the width of ARG. -/
def Search.belongs (i : Instr) : Search → Bool
  | .primegen rd => i == .primegen rd
  | .keygenP => i == .keygen
  | .keygenQ _ => i == .keygen

/-- Whether a wait point is one of command `i` run on bank `b`. -/
def WaitPoint.belongs (i : Instr) (b : Bank) : WaitPoint → Bool
  | .rand rd k => i == .rand rd && k == b.arg.toNat
  | .candidate s nb _ => s.belongs i && nb == b.arg.toNat
  | .witness (.mrtest rd) num rounds _ _ =>
    match i with
    | .mrtest rd' rs1 => rd == rd' && num == b.readX rs1 && decide (rounds ≤ b.arg.toNat)
    | _ => false
  | .witness (.search s nb _) _ rounds _ _ =>
    s.belongs i && nb == b.arg.toNat && decide (rounds ≤ Config.primegenRounds)
  | .coprime (.coprimegen rd) m nb _ =>
    match i with
    | .coprimegen rd' rs1 => rd == rd' && m == b.readX rs1 && nb == b.arg.toNat
    | _ => false
  | .coprime (.derive p q) _ nb _ =>
    (match i with
      | .keygen => true
      | .keyderive rs1 rs2 => p == b.readX rs1 && q == b.readX rs2
      | _ => false) && nb == b.arg.toNat

/-- The values a search holds: its width is legal, a KEYGEN search runs without a keypair, and the
prime loop P has found lies in [2, 2^nb) (44 R201). -/
def Search.inRange (width : Nat) (kv : Bool) (nb : Nat) : Search → Bool
  | .primegen _ => decide (1 ≤ nb ∧ nb ≤ width)
  | .keygenP => decide (1 ≤ nb ∧ nb ≤ width / 2) && !kv
  | .keygenQ p => decide (1 ≤ nb ∧ nb ≤ width / 2 ∧ 2 ≤ p ∧ p < 2 ^ nb) && !kv

/-- The values a wait point holds (42 R151, R152; 43 R181; 44 R201, R202). -/
def WaitPoint.inRange (width : Nat) (kv : Bool) : WaitPoint → Bool
  | .rand _ k => decide (1 ≤ k ∧ k ≤ width)
  | .candidate s nb _ => s.inRange width kv nb
  | .witness use num rounds w _ =>
    decide (4 ≤ num ∧ num < 2 ^ width ∧ 1 ≤ rounds ∧ 2 ≤ w ∧ w ≤ bitlen (num - 2))
    && (match use with
      | .mrtest _ => true
      | .search s nb _ =>
        s.inRange width kv nb && decide (num < 2 ^ nb) && decide (s ≠ .keygenQ num))
  | .coprime use m nb _ =>
    decide (1 ≤ nb ∧ nb ≤ width)
    && (match use with
      | .coprimegen _ => decide (1 ≤ m ∧ m < 2 ^ width)
      | .derive p q =>
        decide (2 ≤ p ∧ 2 ≤ q ∧ p ≠ q ∧ p * q < 2 ^ width ∧ m = (p - 1) * (q - 1)) && !kv)

/-- The draws of each loop a wait point is in stay within CAP when there is one, and the draw it is
about to make is below it (60 R258). -/
def WaitPoint.withinCap (cap : Nat) : WaitPoint → Bool
  | .rand _ _ => true
  | .candidate _ _ c => cap == 0 || decide (c < cap)
  | .witness (.mrtest _) _ _ _ c => cap == 0 || decide (c < cap)
  | .witness (.search _ _ c') _ _ _ c => cap == 0 || decide (c < cap ∧ c' ≤ cap)
  | .coprime _ _ _ c => cap == 0 || decide (c < cap)

/-- A wait point of the running command: the bank's command word decodes to a command it belongs
to, its values are in range, and its draw is really requested (60 R257). -/
def WaitPoint.sound (p : Params) (b : Bank) (q : WaitPoint) : Bool :=
  (match decode b.cmd with
    | .ok i => q.belongs i b
    | .error _ => false)
  && q.inRange p.width b.kv && q.withinCap b.retryCap.toNat && !b.efail

/-- While BUSY the snapshot is the live bank (R36), DONE = 0 and ERR = 0 (R39), and the wait point,
if any, is one of the running command. -/
def State.controlSound (s : State) : Bool :=
  match s.phase with
  | .idle => true
  | .busy snap point =>
    decide (snap = s.bank) && !s.done && decide (s.err = .ok)
    && (match point with
      | none => true
      | some q => q.sound s.params s.bank)

/-- The invariant of every reachable state. -/
abbrev State.Inv (s : State) : Prop :=
  s.params.Legal ∧ s.bank.Fits s.params ∧ s.bank.KeyLaws ∧ s.bank.ContextLaws s.params
  ∧ s.controlSound = true

/-! ## Frames -/

/-- The command has completed with this outcome code: IDLE, DONE = 1 (60 R247). -/
abbrev State.EndedWith (t : State) (e : ErrCode) : Prop :=
  t.phase = .idle ∧ t.done = true ∧ t.err = e

/-- The command has completed with success. -/
abbrev State.Succeeded (t : State) : Prop := t.EndedWith .ok

/-- What no command touches: the parameters, CTRL.IE, IGN, CMDLOST, and the host's side. -/
abbrev State.SameOutside (s t : State) : Prop :=
  t.params = s.params ∧ t.ie = s.ie ∧ t.ign = s.ign ∧ t.cmdLost = s.cmdLost
  ∧ t.schedule = s.schedule ∧ t.response = s.response

/-- CMD, ARG, RETRYCAP and CHK are unchanged. -/
abbrev Bank.SameControls (b c : Bank) : Prop :=
  c.cmd = b.cmd ∧ c.arg = b.arg ∧ c.retryCap = b.retryCap ∧ c.chk = b.chk

/-- The operand registers outside `written` are unchanged. -/
abbrev Bank.SameXBut (b c : Bank) (written : List Reg) : Prop :=
  ∀ r : Reg, r ∉ written → c.readX r = b.readX r

/-- The keypair, its secret part too, is unchanged. -/
abbrev Bank.SameKeys (b c : Bank) : Prop := c.key = b.key ∧ c.kv = b.kv

/-- The Montgomery context is unchanged. -/
abbrev Bank.SameMont (b c : Bank) : Prop := c.mont = b.mont ∧ c.mv = b.mv

/-- The Barrett context is unchanged. -/
abbrev Bank.SameBar (b c : Bank) : Prop := c.bar = b.bar ∧ c.bv = b.bv

/-- Every byte of MBUF reads as before, and MLEN is unchanged. -/
abbrev Bank.SameMessage (b c : Bank) : Prop :=
  (∀ a : Nat, c.mbuf.read a = b.mbuf.read a) ∧ c.mlen = b.mlen

/-- The frame of a command whose only destinations are the operand registers `written`: every other
register, context, key, byte of MBUF and status bit is unchanged. RES and the answers left are said
apart. -/
abbrev State.OnlyX (s t : State) (written : List Reg) : Prop :=
  s.SameOutside t ∧ s.bank.SameXBut t.bank written ∧ s.bank.SameControls t.bank
  ∧ s.bank.SameKeys t.bank ∧ s.bank.SameMont t.bank ∧ s.bank.SameBar t.bank
  ∧ s.bank.SameMessage t.bank ∧ t.bank.efail = s.bank.efail

/-- The command ends with error `e` and nothing but BUSY, DONE and ERR changes (60 R245). -/
abbrev State.FailsCleanly (s t : State) (e : ErrCode) : Prop :=
  t.EndedWith e ∧ s.OnlyX t [] ∧ t.res = s.res ∧ t.entropy = s.entropy

/-- The frame of a command that writes the key registers and KV only (44 R200). -/
abbrev State.OnlyKeys (s t : State) : Prop :=
  s.SameOutside t ∧ s.bank.SameXBut t.bank [] ∧ s.bank.SameControls t.bank
  ∧ s.bank.SameMont t.bank ∧ s.bank.SameBar t.bank ∧ s.bank.SameMessage t.bank
  ∧ t.bank.efail = s.bank.efail ∧ t.res = s.res

/-- The command ends with error `e` after draws: EFAIL is set if `failed`, the answers left are
`rest`, and nothing else changes but BUSY, DONE and ERR (60 R245). -/
abbrev State.RaisesAfterDraws (s t : State) (e : ErrCode) (failed : Bool)
    (rest : List Answer) : Prop :=
  t.EndedWith e ∧ s.SameOutside t
  ∧ t.bank = { s.bank with efail := s.bank.efail || failed }
  ∧ t.res = s.res ∧ t.entropy = rest

/-- The command is still BUSY, waiting for an answer with none at hand, and nothing the host can
read has changed (60 R257). -/
abbrev State.WaitsForAnswer (s t : State) : Prop :=
  (∃ p, t.phase = .busy s.snap (some p)) ∧ s.SameOutside t ∧ t.bank = s.bank
  ∧ t.res = s.res ∧ t.done = s.done ∧ t.err = s.err ∧ t.entropy = []

/-- A command's step from `s` to `t` follows a procedure: it succeeds with what `onSuccess` says of
the returned value, ends with the error raised, or waits where the procedure lacks an answer. -/
def State.Follows {α : Type} (s t : State) (r : Ran α) (onSuccess : α → Prop) : Prop :=
  match r with
  | .value a rest => t.Succeeded ∧ t.entropy = rest ∧ onSuccess a
  | .raised e failed rest => s.RaisesAfterDraws t e failed rest
  | .starved => s.WaitsForAnswer t

/-- `t` is the state after the host has started command `i` in `s` and the engine has run it. -/
abbrev State.RunsTo (s : State) (i : Instr) (t : State) : Prop :=
  exec i (s.start (encode i)) = .next t

/-- A command has been accepted and has not run into an unanswered draw yet (10_state R26). -/
def State.atStart (s : State) : Bool :=
  match s.phase with
  | .busy _ none => true
  | _ => false

/-- The running command waits for an entropy answer (60 R257). -/
def State.waiting (s : State) : Bool :=
  match s.phase with
  | .busy _ (some _) => true
  | _ => false

/-- The most draws a command makes when there is a cap (70 R277). -/
def drawBound (i : Instr) (s : State) : Nat :=
  match i with
  | .rand _ => 1
  | .mrtest _ _ => s.argument * s.cap
  | .primegen _ => s.cap * (1 + 10 * s.cap)
  | .coprimegen _ _ => s.cap
  | .keygen => 2 * s.cap * (1 + 10 * s.cap) + s.cap
  | .keyderive _ _ => s.cap
  | .nop | .montsetup _ | .montmul _ _ _ | .montin _ _ | .montout _ _ | .barsetup _ | .barred _ _
  | .modexp _ _ _ _ | .gcd _ _ _ | .coprime _ _ _ | .egcd _ _ _ | .modinv _ _ _
  | .keyderivee _ _ _ | .keyclr | .enc _ _ | .dec _ _ | .b2i _ | .i2b _ => 0

/-! ## What the host can see -/

/-- The key registers without their secret part KP, KQ, KPHI (10_state R31). -/
def KeyRegs.masked (k : KeyRegs) : KeyRegs := { k with kp := 0, kq := 0, kphi := 0 }

/-- A bank without the secret key registers. -/
def Bank.masked (b : Bank) : Bank := { b with key := b.key.masked }

/-- A phase without the secret key registers of the snapshot. -/
def Phase.masked : Phase → Phase
  | .idle => .idle
  | .busy snap point => .busy snap.masked point

/-- A state without the secret key registers. -/
def State.masked (s : State) : State :=
  { s with bank := s.bank.masked, phase := s.phase.masked }

/-! ## Kinds of steps -/

/-- A step is a hardware reset (70 R270). -/
def State.resetComing (s : State) : Bool :=
  match s.schedule with
  | .hardReset :: _ => true
  | _ => false

/-- A step is a host write of CTRL with SRST (70 R271). -/
def State.softResetComing (s : State) : Bool :=
  match s.schedule with
  | .host (.write offset bytes v) :: _ =>
    !badAccess offset bytes && offset.toNat == 8 && v.getLsbD 31
  | _ => false

end Sys2Proof.Machine
end

