-- ==== Sys2Proof/Certificates/Slice0/Obligations.lean ====
section
/-! DEFINITION. The statements for the provers. Each docstring names the rule of spec/ it
formalises. No statement fixes W or RETRY_CAP_RESET but the one about State.reset itself, and none
rests on an entropy answer's value but where its hypotheses say so. The schedule, the list of
answers and the bus response are fields of the model's own (logs 3, 4 and 7); what a statement says
of them is the model's form, not the spec's words. -/

open Sys2Proof Sys2Proof.Machine

/-! ## Encoding -/

/-- Decoding an encoded well-formed command gives it back, and a word that decodes to a command is
that command's only encoding, the command being well-formed (R84, R85). -/
def Obligations.DecodeAndEncodeAgree : Prop :=
  (∀ i : Instr, i.wellFormed = true → decode (encode i) = .ok i)
  ∧ (∀ (w : Word) (i : Instr), decode w = .ok i → encode i = w ∧ i.wellFormed = true)

/-- R86: every word is either a legal word of exactly one row of the table, and decodes to that
row's command, or illegal; not both. A row's word is legal but where it is EGCD with rd > 13. -/
def Obligations.EveryWordIsOneRowOrIllegal : Prop :=
  ∀ w : Word,
    (∃ row ∈ opcodeTable, row.accepts w = true
      ∧ (∀ row' ∈ opcodeTable, row'.accepts w = true → row' = row)
      ∧ (row.mnemonic = "EGCD" → (rdField w).val ≤ 13)
      ∧ ∃ i, decode w = .ok i ∧ i.mnemonic = row.mnemonic)
    ∨ ((∀ row ∈ opcodeTable, row.accepts w = true →
          row.mnemonic = "EGCD" ∧ 13 < (rdField w).val)
      ∧ ∃ e, decode w = .error e)

/-- Words the spec writes out (spec/95, 30_encoding) decode to what it says they are. -/
def Obligations.SpecWordsDecode : Prop :=
  decode 0x00000000 = .ok .nop ∧ decode 0x00000301 = .ok (.rand 3)
  ∧ decode 0x00021311 = .ok (.montmul 3 1 2) ∧ decode 0x00321420 = .ok (.modexp 4 1 2 3)
  ∧ decode 0x00001228 = .ok (.mrtest 2 1) ∧ decode 0x00000D32 = .ok (.egcd 13 0 0)
  ∧ decode 0x00321042 = .ok (.keyderivee 1 2 3) ∧ decode 0x00005051 = .ok (.i2b 5)
  ∧ decode 0x00000E32 = .error .egcdDestination ∧ decode 0x00F21311 = .error .unusedField
  ∧ decode 0x00000044 = .error .unassignedOpcode ∧ decode 0x01000000 = .error .reservedBits

/-! ## Steps -/

/-- When the command word of a BUSY block decodes to a command, an engine step (scheduled, or with
nothing scheduled, or on the answer to the outstanding request) is `exec` of it; the schedule's
entry is used up and nothing else happens around it. A word placed by `withFetchWord` is what the
very next step runs, as after a CMD write of it (R26). That the engine moves when nothing is
scheduled, and withFetchWord, are the model's choices (logs 3 and 6). -/
def Obligations.StepRunsTheDecodedCommand : Prop :=
  ∀ (s : State) (w : Word) (i : Instr), decode w = .ok i →
    (s.fetch = some w →
      (∀ rest, s.schedule = .engine :: rest → step s = exec i { s with schedule := rest })
      ∧ (s.schedule = [] → step s = exec i s)
      ∧ (∀ a rest, s.schedule = .answer a :: rest → s.waiting = true →
          step s = exec i { s with schedule := rest, entropy := a :: s.entropy }))
    ∧ step (s.withFetchWord 32 w.toNat) = exec i (s.start w)

/-- R85: an illegal word completes with ILLEGAL_CMD and changes nothing but BUSY, DONE and ERR, in an
engine step that is scheduled and, as for a legal word, in one taken with nothing scheduled, which
is the model's choice (log 3). A word is illegal when it matches no row, which covers (a), (b) and
(c), or is EGCD with rd > 13. -/
def Obligations.IllegalWordEndsWithIllegalCmd : Prop :=
  ∀ (s : State) (w : Word), s.fetch = some w →
    (∀ row ∈ opcodeTable, row.accepts w = true →
      row.mnemonic = "EGCD" ∧ 13 < (rdField w).val) →
    (∀ rest, s.schedule = .engine :: rest →
      ∃ t, step s = .next t ∧ State.FailsCleanly { s with schedule := rest } t .illegalCmd)
    ∧ (s.schedule = [] → ∃ t, step s = .next t ∧ s.FailsCleanly t .illegalCmd)

/-- R26: a CMD write in IDLE stores the word, takes the snapshot, sets BUSY and clears DONE and ERR;
while BUSY it is dropped and sets CMDLOST; a read returns the last word accepted and changes
nothing but the bus's response. -/
def Obligations.CmdWriteStartsACommand : Prop :=
  ∀ (s : State) (v : Word) (rest : List Event),
    (s.schedule = .host (.write 0x0010 4 v) :: rest → s.phase = .idle →
      step s = .next { s with
        schedule := rest, response := some ⟨0, false⟩,
        bank := { s.bank with cmd := v },
        phase := .busy { s.bank with cmd := v } none, done := false, err := .ok })
    ∧ (s.schedule = .host (.write 0x0010 4 v) :: rest → s.busy = true →
      step s = .next { s with
        schedule := rest, response := some ⟨0, false⟩, cmdLost := true })
    ∧ (s.schedule = .host (.read 0x0010 4) :: rest →
      step s = .next { s with schedule := rest, response := some ⟨s.bank.cmd, false⟩ })

/-! ## Completion and errors -/

/-- R240, R247: no command stops the machine. Every command's step ends in a completion (IDLE, with
DONE) or waits BUSY for an answer, and leaves the parameters, CTRL.IE, the sticky bits and the
host's side alone; the answers it leaves are the last of those it had. -/
def Obligations.EveryCommandCompletesOrWaits : Prop :=
  ∀ (i : Instr) (s : State), ∃ t, exec i s = .next t ∧ s.SameOutside t
    ∧ (∃ used, s.entropy = used ++ t.entropy)
    ∧ ((t.phase = .idle ∧ t.done = true) ∨ s.WaitsForAnswer t)

/-- R245: a command that ends with an error changes no operand register, key register, context,
flag, MBUF or MLEN; EFAIL changes only if the error is an entropy failure; the answers it consumed
are consumed. -/
def Obligations.FailedCommandChangesOnlyStatus : Prop :=
  ∀ (i : Instr) (s t : State), exec i s = .next t → t.phase = .idle → t.err ≠ .ok →
    s.SameOutside t ∧ t.done = true ∧ t.res = s.res
    ∧ t.bank = { s.bank with efail := t.bank.efail }
    ∧ (t.bank.efail = s.bank.efail ∨ (t.bank.efail = true ∧ t.err = .entropyUnavailable))
    ∧ ∃ used, s.entropy = used ++ t.entropy

/-- R25, R241, R248: a read of STATUS shows each field in its place, ERR as the code of the table,
and 0 in bits 2 and 31:14. A write clears DONE, IGN and CMDLOST where it has a 1 and changes nothing
else, ERR included, in any phase. -/
def Obligations.StatusIsReadAndAcknowledged : Prop :=
  ∀ (s : State) (v : Word) (rest : List Event),
    (s.schedule = .host (.read 0x000C 4) :: rest →
      ∃ w, step s = .next { s with schedule := rest, response := some ⟨w, false⟩ }
        ∧ w.getLsbD 0 = s.busy ∧ w.getLsbD 1 = s.done ∧ w.getLsbD 2 = false
        ∧ w.getLsbD 3 = s.res ∧ w.getLsbD 4 = s.bank.kv ∧ w.getLsbD 5 = s.bank.mv
        ∧ w.getLsbD 6 = s.bank.bv ∧ w.getLsbD 7 = s.bank.efail
        ∧ w.extractLsb' 8 4 =
            (match s.err with
            | .ok => 0 | .illegalCmd => 1 | .invalidArg => 2 | .noInverse => 3
            | .modulusOverflow => 4 | .entropyUnavailable => 5 | .retryBudgetExceeded => 6
            | .noContext => 7 | .keyLocked => 8 | .resultOverflow => 9)
        ∧ w.getLsbD 12 = s.ign ∧ w.getLsbD 13 = s.cmdLost
        ∧ ∀ n, 14 ≤ n → w.getLsbD n = false)
    ∧ (s.schedule = .host (.write 0x000C 4 v) :: rest →
      step s = .next { s with
        schedule := rest, response := some ⟨0, false⟩,
        done := if v.getLsbD 1 then false else s.done,
        ign := if v.getLsbD 12 then false else s.ign,
        cmdLost := if v.getLsbD 13 then false else s.cmdLost })

/-- R250: irq is CTRL.IE and STATUS.DONE. A completion raises it when IE is set; acknowledging,
starting a command and both resets lower it; clearing IE masks it and leaves DONE. -/
def Obligations.InterruptFollowsDoneAndEnable : Prop :=
  (∀ s : State, s.irq = true ↔ s.ie = true ∧ s.done = true)
  ∧ (∀ (i : Instr) (s t : State), exec i s = .next t → t.phase = .idle → t.irq = s.ie)
  ∧ (∀ (s t : State) (v : Word) (rest : List Event),
      s.schedule = .host (.write 0x000C 4 v) :: rest → v.getLsbD 1 = true →
      step s = .next t → t.irq = false)
  ∧ (∀ (s t : State) (v : Word) (rest : List Event),
      s.schedule = .host (.write 0x0010 4 v) :: rest → s.phase = .idle →
      step s = .next t → t.irq = false)
  ∧ (∀ (s t : State) (v : Word) (rest : List Event),
      s.schedule = .host (.write 0x0008 4 v) :: rest → v.getLsbD 31 = false →
      step s = .next t → t.done = s.done ∧ t.irq = (v.getLsbD 0 && s.done))
  ∧ (∀ s t : State, s.resetComing = true ∨ s.softResetComing = true →
      step s = .next t → t.irq = false)

/-! ## Commands: control and randomness -/

/-- R101: NOP completes with success and changes nothing but BUSY, DONE and ERR. -/
def Obligations.NopOnlyCompletes : Prop :=
  ∀ s : State, ∃ t, exec .nop s = .next t ∧ t.Succeeded ∧ s.OnlyX t [] ∧ t.res = s.res
    ∧ t.entropy = s.entropy

/-- R102: RAND writes one draw of ARG bits to rd, with INVALID_ARG outside 1 ≤ ARG ≤ W before any
draw, ENTROPY_UNAVAILABLE on EFAIL or FAIL, and no cap check. -/
def Obligations.RandWritesOneDraw : Prop :=
  ∀ (s : State) (rd : Reg), s.atStart = true →
    (s.argument = 0 ∨ s.width < s.argument →
      ∃ t, exec (.rand rd) s = .next t ∧ s.FailsCleanly t .invalidArg)
    ∧ (1 ≤ s.argument → s.argument ≤ s.width →
      (s.snap.efail = true →
        ∃ t, exec (.rand rd) s = .next t ∧ s.FailsCleanly t .entropyUnavailable)
      ∧ (s.snap.efail = false →
        (∀ v rest, s.entropy = .value v :: rest →
          ∃ t, exec (.rand rd) s = .next t ∧ t.Succeeded
            ∧ t.bank.readX rd = v % 2 ^ s.argument ∧ s.OnlyX t [rd] ∧ t.res = s.res
            ∧ t.entropy = rest)
        ∧ (∀ rest, s.entropy = .fail :: rest →
          ∃ t, exec (.rand rd) s = .next t
            ∧ s.RaisesAfterDraws t .entropyUnavailable true rest)
        ∧ (s.entropy = [] →
          ∃ t, exec (.rand rd) s = .next t ∧ s.WaitsForAnswer t
            ∧ t.request = some s.argument)))

/-! ## Commands: modular arithmetic -/

/-- R121: MONTSETUP with an odd modulus latches N, the N' with N'·N ≡ -1 (mod 2^W), 2^(2W) mod N and
MV = 1; with an even one it ends with INVALID_ARG. -/
def Obligations.MontsetupLatchesTheContext : Prop :=
  ∀ (s : State) (rs1 : Reg),
    (s.src rs1 % 2 = 0 →
      ∃ t, exec (.montsetup rs1) s = .next t ∧ s.FailsCleanly t .invalidArg)
    ∧ (s.src rs1 % 2 = 1 →
      ∃ t, exec (.montsetup rs1) s = .next t ∧ t.Succeeded
        ∧ t.bank.mont.n = s.src rs1
        ∧ t.bank.mont.np < 2 ^ s.width ∧ (t.bank.mont.np * s.src rs1 + 1) % 2 ^ s.width = 0
        ∧ t.bank.mont.r2 = 2 ^ (2 * s.width) % s.src rs1
        ∧ t.bank.mv = true
        ∧ s.SameOutside t ∧ s.bank.SameXBut t.bank [] ∧ s.bank.SameControls t.bank
        ∧ s.bank.SameKeys t.bank ∧ s.bank.SameBar t.bank ∧ s.bank.SameMessage t.bank
        ∧ t.bank.efail = s.bank.efail ∧ t.res = s.res ∧ t.entropy = s.entropy)

/-- R122: MONTMUL writes (a·b·R⁻¹) mod N for every pair of operands, R⁻¹ the inverse of 2^W in
[0, N); without a context it ends with NO_CONTEXT. MCTX_N is odd when MV = 1 (R32). -/
def Obligations.MontmulIsTheMontgomeryProduct : Prop :=
  ∀ (s : State) (rd rs1 rs2 : Reg),
    (s.snap.mv = false →
      ∃ t, exec (.montmul rd rs1 rs2) s = .next t ∧ s.FailsCleanly t .noContext)
    ∧ (s.snap.mv = true → s.snap.mont.n % 2 = 1 →
      ∃ t rInv, exec (.montmul rd rs1 rs2) s = .next t ∧ t.Succeeded
        ∧ rInv < s.snap.mont.n ∧ 2 ^ s.width * rInv % s.snap.mont.n = 1 % s.snap.mont.n
        ∧ t.bank.readX rd = s.src rs1 * s.src rs2 * rInv % s.snap.mont.n
        ∧ s.OnlyX t [rd] ∧ t.res = s.res ∧ t.entropy = s.entropy)

/-- R123 and R124: MONTIN writes (a·2^W) mod N and MONTOUT writes (a·R⁻¹) mod N; without a context
both end with NO_CONTEXT. MCTX_N is odd when MV = 1 (R32). -/
def Obligations.MontinAndMontoutConvert : Prop :=
  ∀ (s : State) (rd rs1 : Reg),
    (s.snap.mv = false →
      (∃ t, exec (.montin rd rs1) s = .next t ∧ s.FailsCleanly t .noContext)
      ∧ ∃ t, exec (.montout rd rs1) s = .next t ∧ s.FailsCleanly t .noContext)
    ∧ (s.snap.mv = true →
      ∃ t, exec (.montin rd rs1) s = .next t ∧ t.Succeeded
        ∧ t.bank.readX rd = s.src rs1 * 2 ^ s.width % s.snap.mont.n
        ∧ s.OnlyX t [rd] ∧ t.res = s.res ∧ t.entropy = s.entropy)
    ∧ (s.snap.mv = true → s.snap.mont.n % 2 = 1 →
      ∃ t rInv, exec (.montout rd rs1) s = .next t ∧ t.Succeeded
        ∧ rInv < s.snap.mont.n ∧ 2 ^ s.width * rInv % s.snap.mont.n = 1 % s.snap.mont.n
        ∧ t.bank.readX rd = s.src rs1 * rInv % s.snap.mont.n
        ∧ s.OnlyX t [rd] ∧ t.res = s.res ∧ t.entropy = s.entropy)

/-- R126: the laws of the Montgomery commands, over runs of one command after another: MONTMUL of
MONTIN(a) and MONTIN(b) is what MONTIN gives of a·b mod N; MONTOUT after MONTIN is a mod N; MONTMUL
is commutative; every result lies in [0, N). -/
def Obligations.MontgomeryLaws : Prop :=
  ∀ (s : State), s.bank.mv = true → s.bank.mont.n % 2 = 1 →
    (∀ (t t' u : State) (a b c d e : Reg), c ≠ d → b ≠ c →
        s.RunsTo (.montin c a) t → t.RunsTo (.montin d b) t' → t'.RunsTo (.montmul e c d) u →
        u.bank.readX e
          = s.bank.readX a * s.bank.readX b % s.bank.mont.n * 2 ^ s.width % s.bank.mont.n)
    ∧ (∀ (t u : State) (a b c : Reg), s.RunsTo (.montin b a) t → t.RunsTo (.montout c b) u →
        u.bank.readX c = s.bank.readX a % s.bank.mont.n)
    ∧ (∀ (t u : State) (a b c : Reg), s.RunsTo (.montmul c a b) t →
        s.RunsTo (.montmul c b a) u → t.bank.readX c = u.bank.readX c)
    ∧ (∀ (t : State) (a b c : Reg),
        s.RunsTo (.montmul c a b) t ∨ s.RunsTo (.montin c a) t ∨ s.RunsTo (.montout c a) t →
        t.bank.readX c < s.bank.mont.n)

/-- R127: BARSETUP with N ≥ 1 latches N, its bit length K (2^(K-1) ≤ N < 2^K), ⌊2^(2K)/N⌋ and
BV = 1; with N = 0 it ends with INVALID_ARG. -/
def Obligations.BarsetupLatchesTheContext : Prop :=
  ∀ (s : State) (rs1 : Reg),
    (s.src rs1 = 0 →
      ∃ t, exec (.barsetup rs1) s = .next t ∧ s.FailsCleanly t .invalidArg)
    ∧ (s.src rs1 ≠ 0 →
      ∃ t, exec (.barsetup rs1) s = .next t ∧ t.Succeeded
        ∧ t.bank.bar.n = s.src rs1 ∧ 1 ≤ t.bank.bar.k
        ∧ 2 ^ (t.bank.bar.k - 1) ≤ s.src rs1 ∧ s.src rs1 < 2 ^ t.bank.bar.k
        ∧ t.bank.bar.mu = 2 ^ (2 * t.bank.bar.k) / s.src rs1
        ∧ t.bank.bv = true
        ∧ s.SameOutside t ∧ s.bank.SameXBut t.bank [] ∧ s.bank.SameControls t.bank
        ∧ s.bank.SameKeys t.bank ∧ s.bank.SameMont t.bank ∧ s.bank.SameMessage t.bank
        ∧ t.bank.efail = s.bank.efail ∧ t.res = s.res ∧ t.entropy = s.entropy)

/-- R128: BARRED writes a mod BCTX_N for a < 2^(2K); NO_CONTEXT without a context, then
INVALID_ARG outside the domain. -/
def Obligations.BarredReduces : Prop :=
  ∀ (s : State) (rd rs1 : Reg),
    (s.snap.bv = false →
      ∃ t, exec (.barred rd rs1) s = .next t ∧ s.FailsCleanly t .noContext)
    ∧ (s.snap.bv = true → 2 ^ (2 * s.snap.bar.k) ≤ s.src rs1 →
      ∃ t, exec (.barred rd rs1) s = .next t ∧ s.FailsCleanly t .invalidArg)
    ∧ (s.snap.bv = true → s.src rs1 < 2 ^ (2 * s.snap.bar.k) →
      ∃ t, exec (.barred rd rs1) s = .next t ∧ t.Succeeded
        ∧ t.bank.readX rd = s.src rs1 % s.snap.bar.n
        ∧ s.OnlyX t [rd] ∧ t.res = s.res ∧ t.entropy = s.entropy)

/-- R130: MODEXP writes (b^e) mod n, exact, with 0^0 = 1; INVALID_ARG if n = 0. No context
changes. -/
def Obligations.ModexpIsTheModularPower : Prop :=
  ∀ (s : State) (rd rs1 rs2 rs3 : Reg),
    (s.src rs3 = 0 →
      ∃ t, exec (.modexp rd rs1 rs2 rs3) s = .next t ∧ s.FailsCleanly t .invalidArg)
    ∧ (s.src rs3 ≠ 0 →
      ∃ t, exec (.modexp rd rs1 rs2 rs3) s = .next t ∧ t.Succeeded
        ∧ t.bank.readX rd = s.src rs1 ^ s.src rs2 % s.src rs3
        ∧ s.OnlyX t [rd] ∧ t.res = s.res ∧ t.entropy = s.entropy)

/-! ## Commands: primality -/

/-- R153 with R151 and R152: MRTEST with ARG rounds follows the procedure MR on X[rs1] over the
answers, its verdict going to rd and RES; INVALID_ARG if ARG = 0. What a round computes is
MillerRabinRoundIsTheStrongTest. -/
def Obligations.MrtestFollowsMillerRabin : Prop :=
  ∀ (s : State) (rd rs1 : Reg), s.atStart = true →
    (s.argument = 0 →
      ∃ t, exec (.mrtest rd rs1) s = .next t ∧ s.FailsCleanly t .invalidArg)
    ∧ (s.argument ≠ 0 →
      ∃ t, exec (.mrtest rd rs1) s = .next t
        ∧ s.Follows t (Procedure.mr s.port (s.src rs1) s.argument s.entropy)
            (fun v => t.bank.readX rd = (if v then 1 else 0) ∧ t.res = v ∧ s.OnlyX t [rd]))

/-- R151's round: with num − 1 = d·2^r and d odd, a witness passes just when a^d mod num is 1 or
num − 1, or one of the r − 1 squarings a^(d·2^j) mod num, 1 ≤ j < r, is num − 1; there is none for
r ≤ 1. So MRTEST of num ≥ 4 with one round, on a draw v of bitlen(num − 2) bits that lies in
[2, num − 2], completes with that verdict in rd and RES and changes nothing else. -/
def Obligations.MillerRabinRoundIsTheStrongTest : Prop :=
  ∀ num d r : Nat, 4 ≤ num → num - 1 = d * 2 ^ r → d % 2 = 1 →
    (∀ a : Nat, witnessPasses num a = true ↔
      (a ^ d % num = 1 ∨ a ^ d % num = num - 1
        ∨ ∃ j, 1 ≤ j ∧ j < r ∧ a ^ (d * 2 ^ j) % num = num - 1))
    ∧ (∀ (s : State) (rd rs1 : Reg) (w draw v : Nat) (rest : List Answer), s.atStart = true →
        s.src rs1 = num → s.argument = 1 → s.snap.efail = false →
        s.entropy = .value draw :: rest → 2 ^ (w - 1) ≤ num - 2 → num - 2 < 2 ^ w →
        v = draw % 2 ^ w → 2 ≤ v → v ≤ num - 2 →
        ∃ t, exec (.mrtest rd rs1) s = .next t ∧ t.Succeeded
          ∧ ((v ^ d % num = 1 ∨ v ^ d % num = num - 1
              ∨ ∃ j, 1 ≤ j ∧ j < r ∧ v ^ (d * 2 ^ j) % num = num - 1) →
            t.bank.readX rd = 1 ∧ t.res = true)
          ∧ (v ^ d % num ≠ 1 → v ^ d % num ≠ num - 1 →
            (∀ j, 1 ≤ j → j < r → v ^ (d * 2 ^ j) % num ≠ num - 1) →
            t.bank.readX rd = 0 ∧ t.res = false)
          ∧ s.OnlyX t [rd] ∧ t.entropy = rest)

/-- R156: whatever the answers and the number of rounds, MRTEST never reports a prime composite. -/
def Obligations.PrimeIsNeverReportedComposite : Prop :=
  ∀ (s t : State) (rd rs1 : Reg), s.atStart = true → Nat.Prime (s.src rs1) →
    exec (.mrtest rd rs1) s = .next t → t.Succeeded →
    t.bank.readX rd = 1 ∧ t.res = true

/-- R154: PRIMEGEN follows the candidate loop with 10 rounds over the answers and writes the first
candidate that passes; INVALID_ARG outside 1 ≤ ARG ≤ W. -/
def Obligations.PrimegenFollowsTheCandidateLoop : Prop :=
  ∀ (s : State) (rd : Reg), s.atStart = true →
    (s.argument = 0 ∨ s.width < s.argument →
      ∃ t, exec (.primegen rd) s = .next t ∧ s.FailsCleanly t .invalidArg)
    ∧ (1 ≤ s.argument → s.argument ≤ s.width →
      ∃ t, exec (.primegen rd) s = .next t
        ∧ s.Follows t (Procedure.findPrime s.port s.argument none s.entropy)
            (fun cand => t.bank.readX rd = cand ∧ s.OnlyX t [rd] ∧ t.res = s.res))

/-! ## Commands: number theory -/

/-- R172 and R173 with R171: GCD writes the greatest common divisor; COPRIME writes 1 to rd and RES
if it is 1, else 0. -/
def Obligations.GcdAndCoprimeFindTheCommonDivisor : Prop :=
  ∀ (s : State) (rd rs1 rs2 : Reg),
    (∃ t, exec (.gcd rd rs1 rs2) s = .next t ∧ t.Succeeded
      ∧ t.bank.readX rd ∣ s.src rs1 ∧ t.bank.readX rd ∣ s.src rs2
      ∧ (∀ c, c ∣ s.src rs1 → c ∣ s.src rs2 → c ∣ t.bank.readX rd)
      ∧ s.OnlyX t [rd] ∧ t.res = s.res ∧ t.entropy = s.entropy)
    ∧ (∃ t, exec (.coprime rd rs1 rs2) s = .next t ∧ t.Succeeded
      ∧ ((∀ c, c ∣ s.src rs1 → c ∣ s.src rs2 → c = 1) → t.bank.readX rd = 1 ∧ t.res = true)
      ∧ (∀ c, c ∣ s.src rs1 → c ∣ s.src rs2 → c ≠ 1 → t.bank.readX rd = 0 ∧ t.res = false)
      ∧ s.OnlyX t [rd] ∧ t.entropy = s.entropy)

/-- R177 and R179: EGCD with rd ≤ 13 writes g to rd and the normalized coefficients of R176's
recurrence to rd+1 and rd+2; they lie below max(b, 2) and max(a, 2), and x̂·a + ŷ·b = g + k·a·b
with k 0 or 1. With rd > 13, where decode already refuses the word, that the meaning too ends with
ILLEGAL_CMD is the model's choice (log 13). -/
def Obligations.EgcdWritesNormalizedCoefficients : Prop :=
  ∀ (s : State) (rd rs1 rs2 : Reg),
    (13 < rd.val →
      ∃ t, exec (.egcd rd rs1 rs2) s = .next t ∧ s.FailsCleanly t .illegalCmd)
    ∧ (∀ r1 r2 : Reg, r1.val = rd.val + 1 → r2.val = rd.val + 2 →
      ∃ t, exec (.egcd rd rs1 rs2) s = .next t ∧ t.Succeeded
        ∧ t.bank.readX rd = Nat.gcd (s.src rs1) (s.src rs2)
        ∧ (t.bank.readX r1 : Int) = (egcdNorm (s.src rs1) (s.src rs2)).x
        ∧ (t.bank.readX r2 : Int) = (egcdNorm (s.src rs1) (s.src rs2)).y
        ∧ t.bank.readX r1 < max (s.src rs2) 2 ∧ t.bank.readX r2 < max (s.src rs1) 2
        ∧ (∃ k, k ≤ 1 ∧ t.bank.readX r1 * s.src rs1 + t.bank.readX r2 * s.src rs2
            = t.bank.readX rd + k * (s.src rs1 * s.src rs2))
        ∧ s.OnlyX t [rd, r1, r2] ∧ t.res = s.res ∧ t.entropy = s.entropy)

/-- R180: MODINV writes the inverse of e in [0, φ); INVALID_ARG if φ = 0, then NO_INVERSE if
gcd(e, φ) ≠ 1. -/
def Obligations.ModinvWritesTheInverse : Prop :=
  ∀ (s : State) (rd rs1 rs2 : Reg),
    (s.src rs2 = 0 →
      ∃ t, exec (.modinv rd rs1 rs2) s = .next t ∧ s.FailsCleanly t .invalidArg)
    ∧ (s.src rs2 ≠ 0 → Nat.gcd (s.src rs1) (s.src rs2) ≠ 1 →
      ∃ t, exec (.modinv rd rs1 rs2) s = .next t ∧ s.FailsCleanly t .noInverse)
    ∧ (s.src rs2 ≠ 0 → Nat.gcd (s.src rs1) (s.src rs2) = 1 →
      ∃ t, exec (.modinv rd rs1 rs2) s = .next t ∧ t.Succeeded
        ∧ t.bank.readX rd < s.src rs2
        ∧ s.src rs1 * t.bank.readX rd % s.src rs2 = 1 % s.src rs2
        ∧ s.OnlyX t [rd] ∧ t.res = s.res ∧ t.entropy = s.entropy)

/-- R182 with R181: COPRIMEGEN follows CoprimeLoop over the answers; INVALID_ARG for the bit width,
then for modulus 0. A returned value is below the modulus and coprime to it. -/
def Obligations.CoprimegenFollowsTheCoprimeLoop : Prop :=
  ∀ (s : State) (rd rs1 : Reg), s.atStart = true →
    (s.argument = 0 ∨ s.width < s.argument ∨ s.src rs1 = 0 →
      ∃ t, exec (.coprimegen rd rs1) s = .next t ∧ s.FailsCleanly t .invalidArg)
    ∧ (1 ≤ s.argument → s.argument ≤ s.width → s.src rs1 ≠ 0 →
      ∃ t, exec (.coprimegen rd rs1) s = .next t
        ∧ s.Follows t (Procedure.findCoprime s.port (s.src rs1) s.argument s.entropy)
            (fun v => t.bank.readX rd = v ∧ v < s.src rs1 ∧ Nat.gcd (s.src rs1) v = 1
              ∧ s.OnlyX t [rd] ∧ t.res = s.res))

/-! ## Commands: keypair -/

/-- R201 with R202: KEYGEN ends with KEY_LOCKED while KV = 1; else with INVALID_ARG outside
1 ≤ ARG ≤ W/2; else it follows loops P and Q and Derive over the answers, and writes the six key
registers and KV and nothing else: primes below 2^ARG that differ, and the values Derive gives of
them. -/
def Obligations.KeygenFollowsItsLoops : Prop :=
  ∀ s : State, s.atStart = true →
    (s.snap.kv = true → ∃ t, exec .keygen s = .next t ∧ s.FailsCleanly t .keyLocked)
    ∧ (s.snap.kv = false → s.argument = 0 ∨ s.width / 2 < s.argument →
      ∃ t, exec .keygen s = .next t ∧ s.FailsCleanly t .invalidArg)
    ∧ (s.snap.kv = false → 1 ≤ s.argument → s.argument ≤ s.width / 2 →
      ∃ t, exec .keygen s = .next t
        ∧ s.Follows t (Procedure.keygen s.port s.argument s.entropy)
            (fun k => t.bank.key = k ∧ t.bank.kv = true ∧ s.OnlyKeys t
              ∧ 2 ≤ k.kp ∧ k.kp < 2 ^ s.argument ∧ 2 ≤ k.kq ∧ k.kq < 2 ^ s.argument
              ∧ k.kp ≠ k.kq ∧ k.IsDerived))

/-- R203 with R202: KEYDERIVE checks the lock (KEY_LOCKED), the bit width and the primes
(INVALID_ARG), then the product (RESULT_OVERFLOW), then follows Derive over the answers, whose
keypair is of the supplied primes. -/
def Obligations.KeyderiveFollowsDerive : Prop :=
  ∀ (s : State) (rs1 rs2 : Reg), s.atStart = true →
    (s.snap.kv = true →
      ∃ t, exec (.keyderive rs1 rs2) s = .next t ∧ s.FailsCleanly t .keyLocked)
    ∧ (s.snap.kv = false → s.argument = 0 ∨ s.width < s.argument →
      ∃ t, exec (.keyderive rs1 rs2) s = .next t ∧ s.FailsCleanly t .invalidArg)
    ∧ (s.snap.kv = false → 1 ≤ s.argument → s.argument ≤ s.width →
      (s.src rs1 < 2 ∨ s.src rs2 < 2 ∨ s.src rs1 = s.src rs2 →
        ∃ t, exec (.keyderive rs1 rs2) s = .next t ∧ s.FailsCleanly t .invalidArg)
      ∧ (2 ≤ s.src rs1 → 2 ≤ s.src rs2 → s.src rs1 ≠ s.src rs2 →
        (2 ^ s.width ≤ s.src rs1 * s.src rs2 →
          ∃ t, exec (.keyderive rs1 rs2) s = .next t ∧ s.FailsCleanly t .resultOverflow)
        ∧ (s.src rs1 * s.src rs2 < 2 ^ s.width →
          ∃ t, exec (.keyderive rs1 rs2) s = .next t
            ∧ s.Follows t
                (Procedure.deriveKey s.port (s.src rs1) (s.src rs2) s.argument s.entropy)
                (fun k => t.bank.key = k ∧ t.bank.kv = true ∧ s.OnlyKeys t
                  ∧ k.kp = s.src rs1 ∧ k.kq = s.src rs2 ∧ k.IsDerived))))

/-- R204: KEYDERIVEE: KEY_LOCKED, INVALID_ARG for the primes, RESULT_OVERFLOW, INVALID_ARG for the
range of e, NO_INVERSE, in that order; else the six key registers with e·d ≡ 1 (mod φ), d in [0, φ),
and KV = 1, whatever EFAIL and ARG are, with no answer taken. -/
def Obligations.KeyderiveeDerivesTheKeypair : Prop :=
  ∀ (s : State) (rs1 rs2 rs3 : Reg) (p q e phi : Nat),
    p = s.src rs1 → q = s.src rs2 → e = s.src rs3 → phi = (p - 1) * (q - 1) →
    (s.snap.kv = true →
      ∃ t, exec (.keyderivee rs1 rs2 rs3) s = .next t ∧ s.FailsCleanly t .keyLocked)
    ∧ (s.snap.kv = false → p < 2 ∨ q < 2 ∨ p = q →
      ∃ t, exec (.keyderivee rs1 rs2 rs3) s = .next t ∧ s.FailsCleanly t .invalidArg)
    ∧ (s.snap.kv = false → 2 ≤ p → 2 ≤ q → p ≠ q →
      (2 ^ s.width ≤ p * q →
        ∃ t, exec (.keyderivee rs1 rs2 rs3) s = .next t ∧ s.FailsCleanly t .resultOverflow)
      ∧ (p * q < 2 ^ s.width →
        (e = 0 ∨ phi ≤ e →
          ∃ t, exec (.keyderivee rs1 rs2 rs3) s = .next t ∧ s.FailsCleanly t .invalidArg)
        ∧ (0 < e → e < phi → Nat.gcd e phi ≠ 1 →
          ∃ t, exec (.keyderivee rs1 rs2 rs3) s = .next t ∧ s.FailsCleanly t .noInverse)
        ∧ (0 < e → e < phi → Nat.gcd e phi = 1 →
          ∃ t d, exec (.keyderivee rs1 rs2 rs3) s = .next t ∧ t.Succeeded
            ∧ t.bank.key = { kn := p * q, ke := e, kd := d, kp := p, kq := q, kphi := phi }
            ∧ d < phi ∧ e * d % phi = 1 ∧ t.bank.kv = true
            ∧ s.OnlyKeys t ∧ t.entropy = s.entropy)))

/-- R205: KEYCLR sets all six key registers to 0 and KV = 0, whatever KV was. -/
def Obligations.KeyclrClearsTheKeypair : Prop :=
  ∀ s : State, ∃ t, exec .keyclr s = .next t ∧ t.Succeeded
    ∧ t.bank.key = ⟨0, 0, 0, 0, 0, 0⟩ ∧ t.bank.kv = false
    ∧ s.OnlyKeys t ∧ t.entropy = s.entropy

/-! ## Commands: codec -/

/-- R223 and R224: ENC and DEC write (m^KE) mod KN and (c^KD) mod KN; NO_CONTEXT without a keypair,
then MODULUS_OVERFLOW for a value ≥ KN if CHK = 1; with CHK = 0 such a value wraps. -/
def Obligations.EncAndDecAreModularPowers : Prop :=
  ∀ (s : State) (rd rs1 : Reg) (i : Instr) (exponent : Nat),
    (i = .enc rd rs1 ∧ exponent = s.snap.key.ke) ∨ (i = .dec rd rs1 ∧ exponent = s.snap.key.kd) →
    (s.snap.kv = false → ∃ t, exec i s = .next t ∧ s.FailsCleanly t .noContext)
    ∧ (s.snap.kv = true → s.snap.chk = true → s.snap.key.kn ≤ s.src rs1 →
      ∃ t, exec i s = .next t ∧ s.FailsCleanly t .modulusOverflow)
    ∧ (s.snap.kv = true → s.snap.chk = false ∨ s.src rs1 < s.snap.key.kn →
      ∃ t, exec i s = .next t ∧ t.Succeeded
        ∧ t.bank.readX rd = s.src rs1 ^ exponent % s.snap.key.kn
        ∧ s.OnlyX t [rd] ∧ t.res = s.res ∧ t.entropy = s.entropy)

/-- R225: with a keypair of distinct primes, DEC after ENC gives back every message below KN. -/
def Obligations.DecInvertsEnc : Prop :=
  ∀ (s t u : State) (a b c : Reg), s.bank.KeyLaws → s.bank.kv = true →
    Nat.Prime s.bank.key.kp → Nat.Prime s.bank.key.kq →
    s.bank.readX a < s.bank.key.kn →
    s.RunsTo (.enc b a) t → t.RunsTo (.dec c b) u →
    u.Succeeded ∧ u.bank.readX c = s.bank.readX a

/-- R226: B2I writes the big-endian reading of MBUF[0..MLEN): the sum of MBUF[i]·256^(MLEN-1-i). -/
def Obligations.B2iReadsTheMessage : Prop :=
  ∀ (s : State) (rd : Reg), ∃ t, exec (.b2i rd) s = .next t ∧ t.Succeeded
    ∧ t.bank.readX rd
        = ∑ i ∈ Finset.range s.snap.mlen,
            (s.snap.mbuf.read i).toNat * 256 ^ (s.snap.mlen - 1 - i)
    ∧ s.OnlyX t [rd] ∧ t.res = s.res ∧ t.entropy = s.entropy

/-- R227 with R222: I2B of v < 2^W sets MLEN to the least L ≥ 1 with v < 256^L, MBUF[0..L) to its
big-endian bytes and the rest of MBUF to 0; nothing outside MBUF's W/8 bytes changes. -/
def Obligations.I2bWritesTheMinimalEncoding : Prop :=
  ∀ (s : State) (rs1 : Reg), s.src rs1 < 2 ^ s.width → 1 ≤ s.params.words →
    s.bank.mbuf.wf = true →
    ∃ t, exec (.i2b rs1) s = .next t ∧ t.Succeeded
      ∧ 1 ≤ t.bank.mlen ∧ t.bank.mlen ≤ s.params.bytes ∧ s.src rs1 < 256 ^ t.bank.mlen
      ∧ (1 < t.bank.mlen → 256 ^ (t.bank.mlen - 1) ≤ s.src rs1)
      ∧ (∀ i, i < t.bank.mlen →
          (t.bank.mbuf.read i).toNat = s.src rs1 / 256 ^ (t.bank.mlen - 1 - i) % 256)
      ∧ (∀ i, t.bank.mlen ≤ i → i < s.params.bytes → t.bank.mbuf.read i = 0)
      ∧ (∀ i, s.params.bytes ≤ i → t.bank.mbuf.read i = s.bank.mbuf.read i)
      ∧ s.SameOutside t ∧ s.bank.SameXBut t.bank [] ∧ s.bank.SameControls t.bank
      ∧ s.bank.SameKeys t.bank ∧ s.bank.SameMont t.bank ∧ s.bank.SameBar t.bank
      ∧ t.bank.efail = s.bank.efail ∧ t.res = s.res ∧ t.entropy = s.entropy

/-- R222: B2I after I2B gives back the value. -/
def Obligations.B2iInvertsI2b : Prop :=
  ∀ (s t u : State) (a b : Reg), s.Inv → s.phase = .idle → s.RunsTo (.i2b a) t →
    t.RunsTo (.b2i b) u →
    u.Succeeded ∧ u.bank.readX b = s.bank.readX a

/-! ## Completion of the sampling commands -/

/-- R276: every sampling loop has an accepting answer, on which the command completes with its own
effect: RAND on any value, MRTEST of 2 and 3 on none, PRIMEGEN on 2 or 3, COPRIMEGEN on 1 (on 0 for
modulus 1), KEYDERIVE on 1, KEYGEN on 2, 3 and 1. -/
def Obligations.SamplingCommandsCompleteOnAcceptedAnswers : Prop :=
  ∀ (s : State) (rd rs1 rs2 : Reg) (v : Nat) (rest : List Answer), s.atStart = true →
    (s.argument ≠ 0 → s.src rs1 = 2 ∨ s.src rs1 = 3 →
      ∃ t, exec (.mrtest rd rs1) s = .next t ∧ t.Succeeded ∧ t.bank.readX rd = 1
        ∧ t.res = true ∧ s.OnlyX t [rd] ∧ t.entropy = s.entropy)
    ∧ (s.snap.efail = false → s.entropy = .value v :: rest →
      (1 ≤ s.argument → s.argument ≤ s.width →
        ∃ t, exec (.rand rd) s = .next t ∧ t.Succeeded
          ∧ t.bank.readX rd = v % 2 ^ s.argument ∧ s.OnlyX t [rd] ∧ t.res = s.res
          ∧ t.entropy = rest)
      ∧ (2 ≤ s.argument → s.argument ≤ s.width → v = 2 ∨ v = 3 →
        ∃ t, exec (.primegen rd) s = .next t ∧ t.Succeeded ∧ t.bank.readX rd = v
          ∧ s.OnlyX t [rd] ∧ t.res = s.res ∧ t.entropy = rest)
      ∧ (1 ≤ s.argument → s.argument ≤ s.width →
          (2 ≤ s.src rs1 ∧ v = 1) ∨ (s.src rs1 = 1 ∧ v = 0) →
        ∃ t, exec (.coprimegen rd rs1) s = .next t ∧ t.Succeeded ∧ t.bank.readX rd = v
          ∧ s.OnlyX t [rd] ∧ t.res = s.res ∧ t.entropy = rest)
      ∧ (s.snap.kv = false → 1 ≤ s.argument → s.argument ≤ s.width → 2 ≤ s.src rs1 →
          2 ≤ s.src rs2 → s.src rs1 ≠ s.src rs2 → s.src rs1 * s.src rs2 < 2 ^ s.width → v = 1 →
        ∃ t, exec (.keyderive rs1 rs2) s = .next t ∧ t.Succeeded ∧ t.bank.kv = true
          ∧ t.bank.key = { kn := s.src rs1 * s.src rs2, ke := 1, kd := 1, kp := s.src rs1,
                           kq := s.src rs2, kphi := (s.src rs1 - 1) * (s.src rs2 - 1) }
          ∧ s.OnlyKeys t ∧ t.entropy = rest)
      ∧ (s.snap.kv = false → 2 ≤ s.argument → s.argument ≤ s.width / 2 → v = 2 →
        ∀ rest', rest = .value 3 :: .value 1 :: rest' →
        ∃ t, exec .keygen s = .next t ∧ t.Succeeded ∧ t.bank.kv = true
          ∧ t.bank.key = { kn := 6, ke := 1, kd := 1, kp := 2, kq := 3, kphi := 2 }
          ∧ s.OnlyKeys t ∧ t.entropy = rest'))

/-! ## Rules of the whole machine -/

/-- R200 and R31: while KV = 1 no step changes the keypair but a KEYCLR and the two resets. -/
def Obligations.KeypairChangesOnlyByKeyclrOrReset : Prop :=
  ∀ s t : State, s.Inv → s.bank.kv = true → step s = .next t →
    s.resetComing = false → s.softResetComing = false → s.fetch ≠ some (encode .keyclr) →
    t.bank.key = s.bank.key ∧ t.bank.kv = true

/-- R259: EFAIL is cleared by a hardware reset only, and while it is set no command takes an answer
from the source. -/
def Obligations.EntropyFailureIsSticky : Prop :=
  (∀ s t : State, s.bank.efail = true → step s = .next t → s.resetComing = false →
    t.bank.efail = true)
  ∧ (∀ (i : Instr) (s t : State), s.snap.efail = true → exec i s = .next t →
    t.entropy = s.entropy ∧ t.phase = .idle)

/-- R25, R32, R33 and R34: between resets MV and BV are never cleared, and RES is written by MRTEST
and COPRIME only. -/
def Obligations.FlagsChangeOnlyByTheirCommands : Prop :=
  ∀ s t : State, step s = .next t → s.resetComing = false → s.softResetComing = false →
    (s.bank.mv = true → t.bank.mv = true) ∧ (s.bank.bv = true → t.bank.bv = true)
    ∧ (s.Inv →
      (∀ rd rs1 : Reg, s.fetch ≠ some (encode (.mrtest rd rs1))) →
      (∀ rd rs1 rs2 : Reg, s.fetch ≠ some (encode (.coprime rd rs1 rs2))) → t.res = s.res)

/-- R31 and R252: KP, KQ and KPHI are unreachable: two states that differ in them only, live and in
the snapshot, make steps that differ in them only, so no read ever shows them. -/
def Obligations.SecretKeyRegistersDoNotLeak : Prop :=
  ∀ s t s' : State, s.masked = t.masked → step s = .next s' →
    ∃ t', step t = .next t' ∧ s'.masked = t'.masked

/-- R23, R36 and R71: no host access but a soft reset disturbs a running command. -/
def Obligations.HostCannotDisturbARunningCommand : Prop :=
  ∀ (s t : State) (a : Access) (rest : List Event), s.schedule = .host a :: rest →
    s.busy = true → s.softResetComing = false → step s = .next t →
    t.phase = s.phase ∧ t.bank = s.bank ∧ t.res = s.res ∧ t.err = s.err
    ∧ t.entropy = s.entropy ∧ t.schedule = rest

/-! ## Bus accesses -/

/-- R61 and R67: an access that is not 32 bits wide or not at a multiple of 4 gets a bus error, reads
0 and changes nothing; no read, of any word, changes anything but the bus's response. What the
response to a write carries as data, 0, is the model's choice (log 7). -/
def Obligations.BadAccessesAndReadsChangeNothing : Prop :=
  ∀ (s : State) (offset : BitVec 15) (bytes : Nat) (v : Word) (rest : List Event),
    (bytes ≠ 4 ∨ offset.toNat % 4 ≠ 0 →
      s.schedule = .host (.read offset bytes) :: rest
        ∨ s.schedule = .host (.write offset bytes v) :: rest →
      step s = .next { s with schedule := rest, response := some ⟨0, true⟩ })
    ∧ (s.schedule = .host (.read offset bytes) :: rest →
      ∃ r, step s = .next { s with schedule := rest, response := some r })

/-- R65: a word the map does not hold reads 0 and ignores writes, with no bus error and no status
bit, BUSY or not: between BCTX_K and X0, at or beyond a window's size, and above MBUF. Writes to
read-only words are ignored the same way. That such a write while BUSY sets no status bit is the
model's reading (log 11); the data of a write's response are its choice (log 7). -/
def Obligations.UnmappedAndReadOnlyWordsIgnoreWrites : Prop :=
  ∀ (s : State) (offset : BitVec 15) (v : Word) (rest : List Event) (n k : Nat),
    s.params.Legal → offset.toNat % 4 = 0 →
    ((0x24 ≤ offset.toNat ∧ offset.toNat < 0x1000)
        ∨ (offset.toNat = 0x1000 + 0x400 * n + 4 * k ∧ k < 256 ∧ n < 25
            ∧ (if n = 23 then s.params.words + 1 ≤ k else s.params.words ≤ k))
        ∨ 0x7400 ≤ offset.toNat →
      (s.schedule = .host (.read offset 4) :: rest →
        step s = .next { s with schedule := rest, response := some ⟨0, false⟩ })
      ∧ (s.schedule = .host (.write offset 4 v) :: rest →
        step s = .next { s with schedule := rest, response := some ⟨0, false⟩ }))
    ∧ (offset.toNat < 8 ∨ offset.toNat = 0x20
        ∨ (0x5000 ≤ offset.toNat ∧ offset.toNat < 0x7000) →
      s.schedule = .host (.write offset 4 v) :: rest →
      step s = .next { s with schedule := rest, response := some ⟨0, false⟩ })

/-- R27 and R62: the constants ID and PARAM, and each read-only window's words, word k being bits
[32k+31:32k] of its register; KP, KQ and KPHI have no window. -/
def Obligations.ReadOnlyWordsReadTheirRegisters : Prop :=
  ∀ (s : State) (offset : BitVec 15) (rest : List Event), s.params.Legal →
    s.schedule = .host (.read offset 4) :: rest →
    (offset = 0x0000 →
      step s = .next { s with schedule := rest, response := some ⟨0x4D4D0001, false⟩ })
    ∧ (offset = 0x0004 →
      step s = .next { s with
        schedule := rest,
        response := some ⟨BitVec.ofNat 32 (2 ^ 24 + 16 * 2 ^ 16 + s.width), false⟩ })
    ∧ (offset = 0x0020 →
      step s = .next { s with
        schedule := rest, response := some ⟨BitVec.ofNat 32 s.bank.bar.k, false⟩ })
    ∧ (∀ (base value k : Nat),
      (base, value) ∈ [(0x5000, s.bank.key.kn), (0x5400, s.bank.key.ke),
        (0x5800, s.bank.key.kd), (0x5C00, s.bank.mont.n), (0x6000, s.bank.mont.np),
        (0x6400, s.bank.mont.r2), (0x6800, s.bank.bar.n), (0x6C00, s.bank.bar.mu)] →
      k < s.params.words ∨ (base = 0x6C00 ∧ k = s.params.words) →
      offset.toNat = base + 4 * k →
      step s = .next { s with
        schedule := rest,
        response := some ⟨BitVec.ofNat 32 (value / 2 ^ (32 * k)), false⟩ })

/-- R22, R23 and R63: in IDLE a write of word k of X[i] stores it, leaves the register's other words
and every other register, and keeps the register in its width; a read returns the word. -/
def Obligations.OperandWordIsStoredAndRead : Prop :=
  ∀ (s : State) (i : Reg) (k : Nat) (v : Word) (rest : List Event), s.params.Legal →
    k < s.params.words →
    (s.schedule = .host (.write (xOffset i k) 4 v) :: rest → s.phase = .idle →
      ∃ t, step s = .next t
        ∧ (∀ j, t.bank.readX i / 2 ^ (32 * j) % 2 ^ 32
            = if j = k then v.toNat else s.bank.readX i / 2 ^ (32 * j) % 2 ^ 32)
        ∧ (s.bank.readX i < 2 ^ s.width → t.bank.readX i < 2 ^ s.width)
        ∧ (∀ r : Reg, r ≠ i → t.bank.readX r = s.bank.readX r)
        ∧ t = { s with schedule := rest, response := some ⟨0, false⟩,
                       bank := { s.bank with x := t.bank.x } })
    ∧ (s.schedule = .host (.read (xOffset i k) 4) :: rest →
      step s = .next { s with
        schedule := rest,
        response := some ⟨BitVec.ofNat 32 (s.bank.readX i / 2 ^ (32 * k)), false⟩ })

/-- R30 and R64: in IDLE a write of MBUF word j stores its four bytes, byte 4j+b from bits
[8b+7:8b], and leaves every other byte; a read shows byte 4j+b in bits [8b+7:8b]. That MBUF is a list
kept in canonical form is the model's form (log 9), and the data of a write's response are its choice
(log 7). -/
def Obligations.MessageWordIsFourBytesLittleEndian : Prop :=
  ∀ (s : State) (offset : BitVec 15) (j : Nat) (v : Word) (rest : List Event), s.params.Legal →
    j < s.params.words → offset.toNat = 0x7000 + 4 * j → s.bank.mbuf.wf = true →
    (s.schedule = .host (.write offset 4 v) :: rest → s.phase = .idle →
      ∃ m : Memory, m.wf = true
        ∧ (∀ b, b < 4 → m.read (4 * j + b) = v.extractLsb' (8 * b) 8)
        ∧ (∀ a, a < 4 * j ∨ 4 * j + 4 ≤ a → m.read a = s.bank.mbuf.read a)
        ∧ step s = .next { s with
            schedule := rest, response := some ⟨0, false⟩, bank := { s.bank with mbuf := m } })
    ∧ (s.schedule = .host (.read offset 4) :: rest →
      ∃ w : Word, (∀ b, b < 4 → w.extractLsb' (8 * b) 8 = s.bank.mbuf.read (4 * j + b))
        ∧ step s = .next { s with schedule := rest, response := some ⟨w, false⟩ })

/-- R28, R29 and R30: in IDLE a write of ARG or RETRYCAP stores the word and a write of MLEN stores
min(v[15:0], W/8); reads return them. -/
def Obligations.ScalarRegistersAreStoredAndRead : Prop :=
  ∀ (s : State) (v : Word) (rest : List Event),
    (s.phase = .idle →
      (s.schedule = .host (.write 0x0014 4 v) :: rest →
        step s = .next { s with
          schedule := rest, response := some ⟨0, false⟩, bank := { s.bank with arg := v } })
      ∧ (s.schedule = .host (.write 0x0018 4 v) :: rest →
        step s = .next { s with
          schedule := rest, response := some ⟨0, false⟩,
          bank := { s.bank with retryCap := v } })
      ∧ (s.schedule = .host (.write 0x001C 4 v) :: rest →
        step s = .next { s with
          schedule := rest, response := some ⟨0, false⟩,
          bank := { s.bank with mlen := min (v.toNat % 65536) (s.width / 8) } }))
    ∧ (s.schedule = .host (.read 0x0014 4) :: rest →
      step s = .next { s with schedule := rest, response := some ⟨s.bank.arg, false⟩ })
    ∧ (s.schedule = .host (.read 0x0018 4) :: rest →
      step s = .next { s with schedule := rest, response := some ⟨s.bank.retryCap, false⟩ })
    ∧ (s.schedule = .host (.read 0x001C 4) :: rest →
      step s = .next { s with
        schedule := rest, response := some ⟨BitVec.ofNat 32 s.bank.mlen, false⟩ })

/-- R23, R28, R29 and R30: while BUSY a write of a word of X[i], of ARG, RETRYCAP, MLEN or of a word
of MBUF is dropped and sets IGN. -/
def Obligations.OperandWritesWhileBusyAreDropped : Prop :=
  ∀ (s : State) (offset : BitVec 15) (v : Word) (rest : List Event) (i : Reg) (k : Nat),
    s.params.Legal → s.busy = true → k < s.params.words →
    offset = xOffset i k ∨ offset = 0x0014 ∨ offset = 0x0018 ∨ offset = 0x001C
      ∨ offset.toNat = 0x7000 + 4 * k →
    s.schedule = .host (.write offset 4 v) :: rest →
    step s = .next { s with schedule := rest, response := some ⟨0, false⟩, ign := true }

/-- R24: a write of CTRL with bit 31 clear stores IE and, in IDLE only, CHK, and nothing else; a read
shows IE in bit 0, CHK in bit 1 and 0 above. -/
def Obligations.CtrlWriteStoresEnableAndCheck : Prop :=
  ∀ (s : State) (v : Word) (rest : List Event),
    (s.schedule = .host (.write 0x0008 4 v) :: rest → v.getLsbD 31 = false →
      step s = .next { s with
        schedule := rest, response := some ⟨0, false⟩, ie := v.getLsbD 0,
        bank := { s.bank with chk := if s.busy then s.bank.chk else v.getLsbD 1 } })
    ∧ (s.schedule = .host (.read 0x0008 4) :: rest →
      ∃ w : Word, w.getLsbD 0 = s.ie ∧ w.getLsbD 1 = s.bank.chk
        ∧ (∀ n, 2 ≤ n → w.getLsbD n = false)
        ∧ step s = .next { s with schedule := rest, response := some ⟨w, false⟩ })

/-! ## Reset -/

/-- R270 with R38: a hardware reset, in any phase, puts every register at the reset value, EFAIL too,
abandons a running command, and withdraws its entropy request; the invariant holds after it; an
answer that arrives later is discarded. That the inputs still to come stay, and that an answer with no
request outstanding is such a later one, is the model's reading (log 16). -/
def Obligations.HardResetRestoresEveryRegister : Prop :=
  ∀ (s : State) (rest : List Event),
    (s.schedule = .hardReset :: rest →
      ∃ t, step s = .next t
        ∧ t.phase = .idle ∧ t.ie = false ∧ t.done = false ∧ t.res = false ∧ t.err = .ok
        ∧ t.ign = false ∧ t.cmdLost = false ∧ t.irq = false ∧ t.request = none
        ∧ (∀ r : Reg, t.bank.readX r = 0) ∧ t.bank.cmd = 0 ∧ t.bank.arg = 0
        ∧ t.bank.retryCap = s.params.retryCapReset ∧ t.bank.chk = true
        ∧ t.bank.key = ⟨0, 0, 0, 0, 0, 0⟩ ∧ t.bank.kv = false
        ∧ t.bank.mont = ⟨0, 0, 0⟩ ∧ t.bank.mv = false ∧ t.bank.bar = ⟨0, 0, 0⟩
        ∧ t.bank.bv = false ∧ (∀ a, t.bank.mbuf.read a = 0) ∧ t.bank.mlen = 0
        ∧ t.bank.efail = false
        ∧ (s.params.Legal → t.Inv)
        ∧ t.params = s.params ∧ t.schedule = rest ∧ t.entropy = s.entropy)
    ∧ (∀ a, s.schedule = .lateAnswer a :: rest
        ∨ (s.schedule = .answer a :: rest ∧ s.waiting = false) →
      step s = .next { s with schedule := rest })

/-- R271: a CTRL write with bit 31 set does, in any phase, what a hardware reset does, but EFAIL
keeps its value. That a reset leaves the schedule and the answers, and what a write's response
carries, are the model's choices (logs 16 and 7). -/
def Obligations.SoftResetKeepsOnlyEntropyFailure : Prop :=
  ∀ (s : State) (v : Word) (rest : List Event),
    s.schedule = .host (.write 0x0008 4 v) :: rest → v.getLsbD 31 = true →
    step s = .next { State.resetOf s.params with
      bank := { (State.resetOf s.params).bank with efail := s.bank.efail },
      schedule := rest, entropy := s.entropy, response := some ⟨0, false⟩ }

/-- The invariant holds after reset of every legal implementation, and in State.reset, whose W = 32
and RETRY_CAP_RESET = 0x0010_0000 are the model's choice (logs 1 and 2). -/
def Obligations.ResetMeetsTheInvariant : Prop :=
  (∀ p : Params, p.Legal → (State.resetOf p).Inv) ∧ State.reset.Inv

/-! ## Invariants kept by every step -/

/-- R10, R22, R30 to R33: from a state that meets the invariant, every step leaves every register
within its width and MBUF in canonical form within its W/8 bytes. -/
def Obligations.EveryStepKeepsWidthsAndMemory : Prop :=
  ∀ s t : State, s.Inv → step s = .next t → t.params.Legal ∧ t.bank.Fits t.params

/-- R39 and R206: every step keeps the keypair laws. -/
def Obligations.EveryStepKeepsTheKeypairLaws : Prop :=
  ∀ s t : State, s.Inv → step s = .next t → t.bank.KeyLaws

/-- R32, R33 and R39: every step keeps the context laws. -/
def Obligations.EveryStepKeepsTheContextLaws : Prop :=
  ∀ s t : State, s.Inv → step s = .next t → t.bank.ContextLaws t.params

/-- R36, R39, R257 and R258: every step keeps the control laws: while BUSY the snapshot is the live
bank, DONE and ERR are 0, and a waiting command's loop state belongs to it, is in range and within
its cap; an outstanding request is for 1 to W bits. -/
def Obligations.EveryStepKeepsTheControlLaws : Prop :=
  ∀ s t : State, s.Inv → step s = .next t →
    t.controlSound = true ∧ ∀ k, t.request = some k → 1 ≤ k ∧ k ≤ t.width

/-! ## Termination and granularity -/

/-- R276 and R277: with CAP ≠ 0, a command whose draws are answered up to its bound completes, and
it consumes no more answers than the bound. -/
def Obligations.CommandsTerminateWithinTheirDrawBounds : Prop :=
  ∀ (i : Instr) (s : State), s.atStart = true → 0 < s.cap →
    drawBound i s ≤ s.entropy.length →
    ∃ t, exec i s = .next t ∧ t.phase = .idle ∧ t.done = true
      ∧ s.entropy.length ≤ t.entropy.length + drawBound i s

/-- R276: with CAP = 0, PRIMEGEN and KEYGEN with ARG = 1 never complete, whatever the values the
source answers. -/
def Obligations.UncappedSearchForOneBitPrimesNeverEnds : Prop :=
  ∀ (s : State) (rd : Reg), s.atStart = true → s.cap = 0 → s.argument = 1 → 2 ≤ s.width →
    s.snap.efail = false → (∀ a ∈ s.entropy, a ≠ .fail) →
    (∃ t, exec (.primegen rd) s = .next t ∧ s.WaitsForAnswer t)
    ∧ (s.snap.kv = false → ∃ t, exec .keygen s = .next t ∧ s.WaitsForAnswer t)

/-- R280: a command that waits and gets its answers later ends as if they had been at hand from the
start. -/
def Obligations.ResumingEqualsRunningAtOnce : Prop :=
  ∀ (i : Instr) (s t : State) (later : List Answer), s.atStart = true →
    exec i s = .next t → t.waiting = true →
    exec i { t with entropy := later } = exec i { s with entropy := s.entropy ++ later }
end

