-- ==== Sys2Proof/Laws/Arith.lean ====
section
/-! SUPPORT. The functions of Arith against their definitions in the rules: powers, the extended
gcd's identity, inverses, bit lengths, the odd part, byte messages. -/

namespace Sys2Proof.Machine

/-! ## Bit lengths (00_scope R11) -/

theorem lt_two_pow_bitlen (v : Nat) : v < 2 ^ bitlen v := by
  unfold bitlen
  split
  · next h => simp [h]
  · exact Nat.lt_log2_self

theorem two_pow_bitlen_le {v : Nat} (h : v ≠ 0) : 2 ^ (bitlen v - 1) ≤ v := by
  simp [bitlen, h, Nat.log2_self_le h]

theorem bitlen_le_of_lt_two_pow {v k : Nat} (h : v < 2 ^ k) : bitlen v ≤ k := by
  unfold bitlen
  split
  · exact Nat.zero_le k
  · next hv => exact (Nat.log2_lt hv).2 h

/-! ## Powers (41 R130) -/

theorem powModBits_eq (n fuel b e : Nat) (he : e < 2 ^ fuel) :
    powModBits n fuel b e = b ^ e % n := by
  induction fuel generalizing b e with
  | zero =>
    have : e = 0 := by simpa using he
    simp [powModBits, this]
  | succ fuel ih =>
    unfold powModBits
    split
    · next h => simp [h]
    · have hsq := ih (b * b % n) (e / 2) (by
        rw [Nat.div_lt_iff_lt_mul (by decide)]
        simpa [pow_succ] using he)
      have hpow : (b * b % n) ^ (e / 2) % n = b ^ (2 * (e / 2)) % n := by
        rw [← Nat.pow_mod, ← pow_two, ← pow_mul]
      simp only [hsq, hpow]
      split
      · next hodd =>
        have : e = 2 * (e / 2) + 1 := by omega
        conv_rhs => rw [this, pow_succ, mul_comm, Nat.mul_mod]
        rw [Nat.mul_mod, Nat.mod_mod]
      · next heven =>
        have : e = 2 * (e / 2) := by omega
        conv_rhs => rw [this]

/-- `powMod` is the modular power of R130. -/
theorem powMod_eq (b e n : Nat) : powMod b e n = b ^ e % n :=
  powModBits_eq n (bitlen e) b e (lt_two_pow_bitlen e)

/-! ## Extended gcd (43 R176) -/

/-- The loop ends in the gcd of its remainders. -/
theorem egcdLoop_g (fuel r0 r1 : Nat) (s0 s1 t0 t1 : Int) (h : r1 < fuel) :
    (egcdLoop fuel r0 r1 s0 s1 t0 t1).g = Nat.gcd r0 r1 := by
  induction fuel generalizing r0 r1 s0 s1 t0 t1 with
  | zero => omega
  | succ fuel ih =>
    unfold egcdLoop
    split
    · next h0 => simp [h0]
    · next h0 =>
      have hlt := Nat.mod_lt r0 (Nat.pos_of_ne_zero h0)
      simp only
      rw [ih _ _ _ _ _ _ (by omega), Nat.gcd_comm r1, ← Nat.gcd_rec, Nat.gcd_comm]

/-- The loop keeps each remainder the combination its coefficients say. -/
theorem egcdLoop_identity (a b : Int) (fuel r0 r1 : Nat) (s0 s1 t0 t1 : Int)
    (h0 : s0 * a + t0 * b = r0) (h1 : s1 * a + t1 * b = r1) :
    (egcdLoop fuel r0 r1 s0 s1 t0 t1).x * a + (egcdLoop fuel r0 r1 s0 s1 t0 t1).y * b
      = (egcdLoop fuel r0 r1 s0 s1 t0 t1).g := by
  induction fuel generalizing r0 r1 s0 s1 t0 t1 with
  | zero => exact h0
  | succ fuel ih =>
    unfold egcdLoop
    split
    · exact h0
    · apply ih _ _ _ _ _ _ h1
      have hdiv : (r0 : Int) = r1 * (r0 / r1 : Nat) + (r0 % r1 : Nat) := by
        exact_mod_cast (Nat.div_add_mod r0 r1).symm
      simp only [Int.ofNat_eq_natCast]
      linear_combination h0 - ((r0 / r1 : Nat) : Int) * h1 + hdiv

/-- R176: g is the gcd. -/
theorem egcdRaw_g (a b : Nat) : (egcdRaw a b).g = Nat.gcd a b :=
  egcdLoop_g (b + 1) a b 1 0 0 1 (Nat.lt_succ_self b)

/-- R176: x·a + y·b = g exactly. -/
theorem egcdRaw_identity (a b : Nat) :
    (egcdRaw a b).x * a + (egcdRaw a b).y * b = (egcdRaw a b).g :=
  egcdLoop_identity a b (b + 1) a b 1 0 0 1 (by ring) (by ring)

@[simp] theorem egcdNorm_g (a b : Nat) : (egcdNorm a b).g = Nat.gcd a b := egcdRaw_g a b

/-! ## Inverses (00_scope R15, 41 R120) -/

theorem inverseMod_lt (a : Nat) {n : Nat} (hn : 0 < n) : inverseMod a n < n := by
  have h0 := Int.emod_nonneg (egcdRaw a n).x (b := (n : Int)) (by omega)
  have h1 := Int.emod_lt_of_pos (egcdRaw a n).x (b := (n : Int)) (by omega)
  simp only [inverseMod, Int.ofNat_eq_natCast]
  omega

/-- The residue is the inverse when a and n are coprime. -/
theorem mul_inverseMod {a n : Nat} (hn : 0 < n) (h : Nat.gcd a n = 1) :
    a * inverseMod a n % n = 1 % n := by
  have hid := egcdRaw_identity a n
  rw [egcdRaw_g, h] at hid
  have hx : ((inverseMod a n : Nat) : Int) = (egcdRaw a n).x % (n : Int) := by
    simp only [inverseMod, Int.ofNat_eq_natCast]
    exact Int.toNat_of_nonneg (Int.emod_nonneg _ (by omega))
  have hcast : ((a * inverseMod a n % n : Nat) : Int) = ((1 % n : Nat) : Int) := by
    push_cast
    rw [hx, Int.mul_emod, Int.emod_emod, ← Int.mul_emod]
    have : (a : Int) * (egcdRaw a n).x = 1 - (egcdRaw a n).y * n := by
      push_cast at hid; linear_combination hid
    rw [this, Int.sub_mul_emod_self_right]
  exact_mod_cast hcast

/-- R⁻¹ of an odd modulus (R120). -/
theorem radixInverse_spec {n : Nat} (width : Nat) (h : n % 2 = 1) :
    radixInverse width n < n ∧ 2 ^ width * radixInverse width n % n = 1 % n := by
  have hn : 0 < n := by omega
  have hc : Nat.Coprime (2 ^ width) n :=
    Nat.Coprime.pow_left width ((Nat.coprime_two_left).2 (Nat.odd_iff.2 h))
  exact ⟨inverseMod_lt _ hn, mul_inverseMod hn hc⟩

/-! ## The odd part (42 R151) -/

theorem oddPart_product (fuel d r : Nat) :
    (oddPart fuel d r).1 * 2 ^ (oddPart fuel d r).2 = d * 2 ^ r := by
  induction fuel generalizing d r with
  | zero => rfl
  | succ fuel ih =>
    unfold oddPart
    split
    · next h =>
      rw [ih, pow_succ]
      conv_rhs => rw [show d = d / 2 * 2 by omega]
      ring
    · rfl

theorem oddPart_odd (fuel d r : Nat) (h0 : d ≠ 0) (h : d < 2 ^ fuel) :
    (oddPart fuel d r).1 % 2 = 1 := by
  induction fuel generalizing d r with
  | zero => simp at h; omega
  | succ fuel ih =>
    unfold oddPart
    split
    · exact ih _ _ (by omega) (by rw [pow_succ] at h; omega)
    · omega

/-! ## Squarings (42 R151) -/

/-- One of `count` squarings reaches num − 1: the j-th gives x^(2^j) mod num. -/
theorem squaringsReach_iff (num count x : Nat) :
    squaringsReach num count x = true
      ↔ ∃ j, 1 ≤ j ∧ j ≤ count ∧ x ^ 2 ^ j % num = num - 1 := by
  induction count generalizing x with
  | zero =>
    simp only [squaringsReach, Bool.false_eq_true, false_iff]
    rintro ⟨j, h1, h2, -⟩
    omega
  | succ count ih =>
    have hp (j : Nat) : (x * x % num) ^ 2 ^ j % num = x ^ 2 ^ (j + 1) % num := by
      rw [← Nat.pow_mod, ← pow_two, ← pow_mul, pow_succ' 2 j]
    unfold squaringsReach
    by_cases h : x * x % num = num - 1
    · simp only [h, if_true, true_iff]
      exact ⟨1, le_refl 1, by omega, by rw [pow_one, pow_two]; exact h⟩
    · simp only [h, if_false, ih, hp]
      constructor
      · rintro ⟨j, -, h2, h3⟩
        exact ⟨j + 1, by omega, by omega, h3⟩
      · rintro ⟨j, h1, h2, h3⟩
        obtain rfl | hj := Nat.eq_or_lt_of_le h1
        · rw [pow_one, pow_two] at h3; exact absurd h3 h
        · exact ⟨j - 1, by omega, by omega, by rwa [Nat.sub_add_cancel h1]⟩

/-! ## Byte messages (45 R221, R222) -/

theorem foldl_bytes (bs : List Byte) (v : Nat) :
    bs.foldl (fun v b => v * 256 + b.toNat) v = v * 256 ^ bs.length + bytesToInt bs := by
  induction bs generalizing v with
  | nil => simp [bytesToInt]
  | cons b bs ih =>
    simp only [bytesToInt, List.foldl_cons, List.length_cons] at ih ⊢
    rw [ih, ih (0 * 256 + b.toNat), pow_succ]
    ring

@[simp] theorem bytesToInt_nil : bytesToInt [] = 0 := rfl

theorem bytesToInt_cons (b : Byte) (bs : List Byte) :
    bytesToInt (b :: bs) = b.toNat * 256 ^ bs.length + bytesToInt bs := by
  have := foldl_bytes bs (0 * 256 + b.toNat)
  simpa [bytesToInt] using this

/-- A message of L bytes is below 256^L. -/
theorem bytesToInt_lt (bs : List Byte) : bytesToInt bs < 256 ^ bs.length := by
  induction bs with
  | nil => simp
  | cons b bs ih =>
    rw [bytesToInt_cons, List.length_cons, pow_succ]
    have hb : b.toNat < 256 := b.isLt
    calc b.toNat * 256 ^ bs.length + bytesToInt bs
        < b.toNat * 256 ^ bs.length + 256 ^ bs.length := by omega
      _ = (b.toNat + 1) * 256 ^ bs.length := by ring
      _ ≤ 256 ^ bs.length * 256 := by rw [mul_comm]; exact Nat.mul_le_mul_left _ hb

@[simp] theorem intToBytes_length (v : Nat) : (intToBytes v).length = intLength v := by
  simp [intToBytes]

end Sys2Proof.Machine
end

