-- ==== Sys2Proof/Laws/State.lean ====
section
/-! SUPPORT. One lemma per field per update of the state, so that no proof unfolds a record update,
and the operand reads by phase. -/

namespace Sys2Proof.Machine

/-! ## Bank.writeX -/

@[simp] theorem Bank.writeX_cmd (b : Bank) (r : Reg) (v : Nat) : (b.writeX r v).cmd = b.cmd := rfl
@[simp] theorem Bank.writeX_x (b : Bank) (r : Reg) (v : Nat) : (b.writeX r v).x = b.x.set r v := rfl
@[simp] theorem Bank.writeX_arg (b : Bank) (r : Reg) (v : Nat) : (b.writeX r v).arg = b.arg := rfl
@[simp] theorem Bank.writeX_retryCap (b : Bank) (r : Reg) (v : Nat) : (b.writeX r v).retryCap = b.retryCap := rfl
@[simp] theorem Bank.writeX_chk (b : Bank) (r : Reg) (v : Nat) : (b.writeX r v).chk = b.chk := rfl
@[simp] theorem Bank.writeX_key (b : Bank) (r : Reg) (v : Nat) : (b.writeX r v).key = b.key := rfl
@[simp] theorem Bank.writeX_kv (b : Bank) (r : Reg) (v : Nat) : (b.writeX r v).kv = b.kv := rfl
@[simp] theorem Bank.writeX_mont (b : Bank) (r : Reg) (v : Nat) : (b.writeX r v).mont = b.mont := rfl
@[simp] theorem Bank.writeX_mv (b : Bank) (r : Reg) (v : Nat) : (b.writeX r v).mv = b.mv := rfl
@[simp] theorem Bank.writeX_bar (b : Bank) (r : Reg) (v : Nat) : (b.writeX r v).bar = b.bar := rfl
@[simp] theorem Bank.writeX_bv (b : Bank) (r : Reg) (v : Nat) : (b.writeX r v).bv = b.bv := rfl
@[simp] theorem Bank.writeX_mbuf (b : Bank) (r : Reg) (v : Nat) : (b.writeX r v).mbuf = b.mbuf := rfl
@[simp] theorem Bank.writeX_mlen (b : Bank) (r : Reg) (v : Nat) : (b.writeX r v).mlen = b.mlen := rfl
@[simp] theorem Bank.writeX_efail (b : Bank) (r : Reg) (v : Nat) : (b.writeX r v).efail = b.efail := rfl

/-! ## State.start (10_state R26) -/

@[simp] theorem State.start_params (s : State) (w : Word) : (s.start w).params = s.params := rfl
@[simp] theorem State.start_phase (s : State) (w : Word) : (s.start w).phase = .busy { s.bank with cmd := w } none := rfl
@[simp] theorem State.start_bank (s : State) (w : Word) : (s.start w).bank = { s.bank with cmd := w } := rfl
@[simp] theorem State.start_ie (s : State) (w : Word) : (s.start w).ie = s.ie := rfl
@[simp] theorem State.start_done (s : State) (w : Word) : (s.start w).done = false := rfl
@[simp] theorem State.start_res (s : State) (w : Word) : (s.start w).res = s.res := rfl
@[simp] theorem State.start_err (s : State) (w : Word) : (s.start w).err = .ok := rfl
@[simp] theorem State.start_ign (s : State) (w : Word) : (s.start w).ign = s.ign := rfl
@[simp] theorem State.start_cmdLost (s : State) (w : Word) : (s.start w).cmdLost = s.cmdLost := rfl
@[simp] theorem State.start_schedule (s : State) (w : Word) : (s.start w).schedule = s.schedule := rfl
@[simp] theorem State.start_entropy (s : State) (w : Word) : (s.start w).entropy = s.entropy := rfl
@[simp] theorem State.start_response (s : State) (w : Word) : (s.start w).response = s.response := rfl

/-! ## State.applyWrite (00_scope R12), by kind of write -/

@[simp] theorem State.applyWrite_x_bank (s : State) (r : Reg) (v : Nat) : (s.applyWrite (.x r v)).bank = s.bank.writeX r v := rfl
@[simp] theorem State.applyWrite_res_res (s : State) (v : Bool) : (s.applyWrite (.res v)).res = v := rfl
@[simp] theorem State.applyWrite_key_bank (s : State) (k : KeyRegs) (kv : Bool) : (s.applyWrite (.key k kv)).bank = { s.bank with key := k, kv := kv } := rfl
@[simp] theorem State.applyWrite_mont_bank (s : State) (c : MontCtx) : (s.applyWrite (.mont c)).bank = { s.bank with mont := c, mv := true } := rfl
@[simp] theorem State.applyWrite_bar_bank (s : State) (c : BarCtx) : (s.applyWrite (.bar c)).bank = { s.bank with bar := c, bv := true } := rfl
@[simp] theorem State.applyWrite_mbuf_bank (s : State) (bs : List Byte) : (s.applyWrite (.mbuf bs)).bank = { s.bank with mbuf := s.bank.mbuf.writeAll 0 bs } := rfl
@[simp] theorem State.applyWrite_mlen_bank (s : State) (n : Nat) : (s.applyWrite (.mlen n)).bank = { s.bank with mlen := n } := rfl

@[simp] theorem State.applyWrite_params (s : State) (w : Write) : (s.applyWrite w).params = s.params := by
  cases w <;> rfl
@[simp] theorem State.applyWrite_phase (s : State) (w : Write) : (s.applyWrite w).phase = s.phase := by
  cases w <;> rfl
@[simp] theorem State.applyWrite_ie (s : State) (w : Write) : (s.applyWrite w).ie = s.ie := by
  cases w <;> rfl
@[simp] theorem State.applyWrite_done (s : State) (w : Write) : (s.applyWrite w).done = s.done := by
  cases w <;> rfl
@[simp] theorem State.applyWrite_err (s : State) (w : Write) : (s.applyWrite w).err = s.err := by
  cases w <;> rfl
@[simp] theorem State.applyWrite_ign (s : State) (w : Write) : (s.applyWrite w).ign = s.ign := by
  cases w <;> rfl
@[simp] theorem State.applyWrite_cmdLost (s : State) (w : Write) : (s.applyWrite w).cmdLost = s.cmdLost := by
  cases w <;> rfl
@[simp] theorem State.applyWrite_schedule (s : State) (w : Write) : (s.applyWrite w).schedule = s.schedule := by
  cases w <;> rfl
@[simp] theorem State.applyWrite_entropy (s : State) (w : Write) : (s.applyWrite w).entropy = s.entropy := by
  cases w <;> rfl
@[simp] theorem State.applyWrite_response (s : State) (w : Write) : (s.applyWrite w).response = s.response := by
  cases w <;> rfl

@[simp] theorem State.applyWrites_params (ws : List Write) (s : State) :
    (ws.foldl State.applyWrite s).params = s.params := by
  induction ws generalizing s <;> simp_all
@[simp] theorem State.applyWrites_phase (ws : List Write) (s : State) :
    (ws.foldl State.applyWrite s).phase = s.phase := by
  induction ws generalizing s <;> simp_all
@[simp] theorem State.applyWrites_ie (ws : List Write) (s : State) :
    (ws.foldl State.applyWrite s).ie = s.ie := by
  induction ws generalizing s <;> simp_all
@[simp] theorem State.applyWrites_done (ws : List Write) (s : State) :
    (ws.foldl State.applyWrite s).done = s.done := by
  induction ws generalizing s <;> simp_all
@[simp] theorem State.applyWrites_err (ws : List Write) (s : State) :
    (ws.foldl State.applyWrite s).err = s.err := by
  induction ws generalizing s <;> simp_all
@[simp] theorem State.applyWrites_ign (ws : List Write) (s : State) :
    (ws.foldl State.applyWrite s).ign = s.ign := by
  induction ws generalizing s <;> simp_all
@[simp] theorem State.applyWrites_cmdLost (ws : List Write) (s : State) :
    (ws.foldl State.applyWrite s).cmdLost = s.cmdLost := by
  induction ws generalizing s <;> simp_all
@[simp] theorem State.applyWrites_schedule (ws : List Write) (s : State) :
    (ws.foldl State.applyWrite s).schedule = s.schedule := by
  induction ws generalizing s <;> simp_all
@[simp] theorem State.applyWrites_entropy (ws : List Write) (s : State) :
    (ws.foldl State.applyWrite s).entropy = s.entropy := by
  induction ws generalizing s <;> simp_all
@[simp] theorem State.applyWrites_response (ws : List Write) (s : State) :
    (ws.foldl State.applyWrite s).response = s.response := by
  induction ws generalizing s <;> simp_all

/-! ## State.complete (60 R245, R247) -/

@[simp] theorem State.complete_raise_params (s : State) (e : ErrCode) : (s.complete (.raise e)).params = s.params := rfl
@[simp] theorem State.complete_raise_phase (s : State) (e : ErrCode) : (s.complete (.raise e)).phase = .idle := rfl
@[simp] theorem State.complete_raise_bank (s : State) (e : ErrCode) : (s.complete (.raise e)).bank = s.bank := rfl
@[simp] theorem State.complete_raise_ie (s : State) (e : ErrCode) : (s.complete (.raise e)).ie = s.ie := rfl
@[simp] theorem State.complete_raise_done (s : State) (e : ErrCode) : (s.complete (.raise e)).done = true := rfl
@[simp] theorem State.complete_raise_res (s : State) (e : ErrCode) : (s.complete (.raise e)).res = s.res := rfl
@[simp] theorem State.complete_raise_err (s : State) (e : ErrCode) : (s.complete (.raise e)).err = e := rfl
@[simp] theorem State.complete_raise_ign (s : State) (e : ErrCode) : (s.complete (.raise e)).ign = s.ign := rfl
@[simp] theorem State.complete_raise_cmdLost (s : State) (e : ErrCode) : (s.complete (.raise e)).cmdLost = s.cmdLost := rfl
@[simp] theorem State.complete_raise_schedule (s : State) (e : ErrCode) : (s.complete (.raise e)).schedule = s.schedule := rfl
@[simp] theorem State.complete_raise_entropy (s : State) (e : ErrCode) : (s.complete (.raise e)).entropy = s.entropy := rfl
@[simp] theorem State.complete_raise_response (s : State) (e : ErrCode) : (s.complete (.raise e)).response = s.response := rfl

@[simp] theorem State.complete_ok_phase (s : State) (ws : List Write) : (s.complete (.ok ws)).phase = .idle := rfl
@[simp] theorem State.complete_ok_done (s : State) (ws : List Write) : (s.complete (.ok ws)).done = true := rfl
@[simp] theorem State.complete_ok_err (s : State) (ws : List Write) : (s.complete (.ok ws)).err = .ok := rfl
@[simp] theorem State.complete_ok_bank (s : State) (ws : List Write) : (s.complete (.ok ws)).bank = (ws.foldl State.applyWrite s).bank := rfl
@[simp] theorem State.complete_ok_res (s : State) (ws : List Write) : (s.complete (.ok ws)).res = (ws.foldl State.applyWrite s).res := rfl
@[simp] theorem State.complete_ok_params (s : State) (ws : List Write) :
    (s.complete (.ok ws)).params = s.params :=
  State.applyWrites_params ws s
@[simp] theorem State.complete_ok_ie (s : State) (ws : List Write) :
    (s.complete (.ok ws)).ie = s.ie :=
  State.applyWrites_ie ws s
@[simp] theorem State.complete_ok_ign (s : State) (ws : List Write) :
    (s.complete (.ok ws)).ign = s.ign :=
  State.applyWrites_ign ws s
@[simp] theorem State.complete_ok_cmdLost (s : State) (ws : List Write) :
    (s.complete (.ok ws)).cmdLost = s.cmdLost :=
  State.applyWrites_cmdLost ws s
@[simp] theorem State.complete_ok_schedule (s : State) (ws : List Write) :
    (s.complete (.ok ws)).schedule = s.schedule :=
  State.applyWrites_schedule ws s
@[simp] theorem State.complete_ok_entropy (s : State) (ws : List Write) :
    (s.complete (.ok ws)).entropy = s.entropy :=
  State.applyWrites_entropy ws s
@[simp] theorem State.complete_ok_response (s : State) (ws : List Write) :
    (s.complete (.ok ws)).response = s.response :=
  State.applyWrites_response ws s

@[simp] theorem State.complete_params (s : State) (r : Result) : (s.complete r).params = s.params := by
  cases r <;> simp
@[simp] theorem State.complete_ie (s : State) (r : Result) : (s.complete r).ie = s.ie := by
  cases r <;> simp
@[simp] theorem State.complete_ign (s : State) (r : Result) : (s.complete r).ign = s.ign := by
  cases r <;> simp
@[simp] theorem State.complete_cmdLost (s : State) (r : Result) : (s.complete r).cmdLost = s.cmdLost := by
  cases r <;> simp
@[simp] theorem State.complete_schedule (s : State) (r : Result) : (s.complete r).schedule = s.schedule := by
  cases r <;> simp
@[simp] theorem State.complete_entropy (s : State) (r : Result) : (s.complete r).entropy = s.entropy := by
  cases r <;> simp
@[simp] theorem State.complete_response (s : State) (r : Result) : (s.complete r).response = s.response := by
  cases r <;> simp
@[simp] theorem State.complete_phase (s : State) (r : Result) : (s.complete r).phase = .idle := by
  cases r <;> simp
@[simp] theorem State.complete_done (s : State) (r : Result) : (s.complete r).done = true := by
  cases r <;> simp

/-! ## State.acknowledge (10_state R25, 60 R248) -/

@[simp] theorem State.acknowledge_params (s : State) (v : Word) : (s.acknowledge v).params = s.params := rfl
@[simp] theorem State.acknowledge_phase (s : State) (v : Word) : (s.acknowledge v).phase = s.phase := rfl
@[simp] theorem State.acknowledge_bank (s : State) (v : Word) : (s.acknowledge v).bank = s.bank := rfl
@[simp] theorem State.acknowledge_ie (s : State) (v : Word) : (s.acknowledge v).ie = s.ie := rfl
@[simp] theorem State.acknowledge_done (s : State) (v : Word) : (s.acknowledge v).done = (s.done && !v.getLsbD 1) := rfl
@[simp] theorem State.acknowledge_res (s : State) (v : Word) : (s.acknowledge v).res = s.res := rfl
@[simp] theorem State.acknowledge_err (s : State) (v : Word) : (s.acknowledge v).err = s.err := rfl
@[simp] theorem State.acknowledge_ign (s : State) (v : Word) : (s.acknowledge v).ign = (s.ign && !v.getLsbD 12) := rfl
@[simp] theorem State.acknowledge_cmdLost (s : State) (v : Word) : (s.acknowledge v).cmdLost = (s.cmdLost && !v.getLsbD 13) := rfl
@[simp] theorem State.acknowledge_schedule (s : State) (v : Word) : (s.acknowledge v).schedule = s.schedule := rfl
@[simp] theorem State.acknowledge_entropy (s : State) (v : Word) : (s.acknowledge v).entropy = s.entropy := rfl
@[simp] theorem State.acknowledge_response (s : State) (v : Word) : (s.acknowledge v).response = s.response := rfl

/-! ## Resets (70 R270, R271) -/

@[simp] theorem State.hardReset_params (s : State) : (s.hardReset).params = s.params := rfl
@[simp] theorem State.hardReset_phase (s : State) : (s.hardReset).phase = .idle := rfl
@[simp] theorem State.hardReset_bank (s : State) : (s.hardReset).bank = Bank.reset s.params false := rfl
@[simp] theorem State.hardReset_ie (s : State) : (s.hardReset).ie = false := rfl
@[simp] theorem State.hardReset_done (s : State) : (s.hardReset).done = false := rfl
@[simp] theorem State.hardReset_res (s : State) : (s.hardReset).res = false := rfl
@[simp] theorem State.hardReset_err (s : State) : (s.hardReset).err = .ok := rfl
@[simp] theorem State.hardReset_ign (s : State) : (s.hardReset).ign = false := rfl
@[simp] theorem State.hardReset_cmdLost (s : State) : (s.hardReset).cmdLost = false := rfl
@[simp] theorem State.hardReset_schedule (s : State) : (s.hardReset).schedule = s.schedule := rfl
@[simp] theorem State.hardReset_entropy (s : State) : (s.hardReset).entropy = s.entropy := rfl
@[simp] theorem State.hardReset_response (s : State) : (s.hardReset).response = none := rfl

@[simp] theorem State.softReset_params (s : State) : (s.softReset).params = s.params := rfl
@[simp] theorem State.softReset_phase (s : State) : (s.softReset).phase = .idle := rfl
@[simp] theorem State.softReset_bank (s : State) : (s.softReset).bank = Bank.reset s.params s.bank.efail := rfl
@[simp] theorem State.softReset_ie (s : State) : (s.softReset).ie = false := rfl
@[simp] theorem State.softReset_done (s : State) : (s.softReset).done = false := rfl
@[simp] theorem State.softReset_res (s : State) : (s.softReset).res = false := rfl
@[simp] theorem State.softReset_err (s : State) : (s.softReset).err = .ok := rfl
@[simp] theorem State.softReset_ign (s : State) : (s.softReset).ign = false := rfl
@[simp] theorem State.softReset_cmdLost (s : State) : (s.softReset).cmdLost = false := rfl
@[simp] theorem State.softReset_schedule (s : State) : (s.softReset).schedule = s.schedule := rfl
@[simp] theorem State.softReset_entropy (s : State) : (s.softReset).entropy = s.entropy := rfl
@[simp] theorem State.softReset_response (s : State) : (s.softReset).response = s.response := rfl

/-! ## State.load, State.withCommand -/

@[simp] theorem State.load_params (s : State) (es : List Event) (as : List Answer) : (s.load es as).params = s.params := rfl
@[simp] theorem State.load_phase (s : State) (es : List Event) (as : List Answer) : (s.load es as).phase = s.phase := rfl
@[simp] theorem State.load_bank (s : State) (es : List Event) (as : List Answer) : (s.load es as).bank = s.bank := rfl
@[simp] theorem State.load_ie (s : State) (es : List Event) (as : List Answer) : (s.load es as).ie = s.ie := rfl
@[simp] theorem State.load_done (s : State) (es : List Event) (as : List Answer) : (s.load es as).done = s.done := rfl
@[simp] theorem State.load_res (s : State) (es : List Event) (as : List Answer) : (s.load es as).res = s.res := rfl
@[simp] theorem State.load_err (s : State) (es : List Event) (as : List Answer) : (s.load es as).err = s.err := rfl
@[simp] theorem State.load_ign (s : State) (es : List Event) (as : List Answer) : (s.load es as).ign = s.ign := rfl
@[simp] theorem State.load_cmdLost (s : State) (es : List Event) (as : List Answer) : (s.load es as).cmdLost = s.cmdLost := rfl
@[simp] theorem State.load_schedule (s : State) (es : List Event) (as : List Answer) : (s.load es as).schedule = es := rfl
@[simp] theorem State.load_entropy (s : State) (es : List Event) (as : List Answer) : (s.load es as).entropy = as := rfl
@[simp] theorem State.load_response (s : State) (es : List Event) (as : List Answer) : (s.load es as).response = s.response := rfl

@[simp] theorem State.withCommand_params (s : State) (w : Word) : (s.withCommand w).params = s.params := rfl
@[simp] theorem State.withCommand_phase (s : State) (w : Word) : (s.withCommand w).phase = .busy { s.bank with cmd := w } none := rfl
@[simp] theorem State.withCommand_bank (s : State) (w : Word) : (s.withCommand w).bank = { s.bank with cmd := w } := rfl
@[simp] theorem State.withCommand_ie (s : State) (w : Word) : (s.withCommand w).ie = s.ie := rfl
@[simp] theorem State.withCommand_done (s : State) (w : Word) : (s.withCommand w).done = false := rfl
@[simp] theorem State.withCommand_res (s : State) (w : Word) : (s.withCommand w).res = s.res := rfl
@[simp] theorem State.withCommand_err (s : State) (w : Word) : (s.withCommand w).err = .ok := rfl
@[simp] theorem State.withCommand_ign (s : State) (w : Word) : (s.withCommand w).ign = s.ign := rfl
@[simp] theorem State.withCommand_cmdLost (s : State) (w : Word) : (s.withCommand w).cmdLost = s.cmdLost := rfl
@[simp] theorem State.withCommand_schedule (s : State) (w : Word) : (s.withCommand w).schedule = .engine :: s.schedule := rfl
@[simp] theorem State.withCommand_entropy (s : State) (w : Word) : (s.withCommand w).entropy = s.entropy := rfl
@[simp] theorem State.withCommand_response (s : State) (w : Word) : (s.withCommand w).response = s.response := rfl

/-! ## Operands (30_encoding R81), by phase -/

theorem State.snap_of_idle {s : State} (h : s.phase = .idle) : s.snap = s.bank := by
  simp [State.snap, h]

theorem State.snap_of_busy {s : State} {b : Bank} {p : Option WaitPoint}
    (h : s.phase = .busy b p) : s.snap = b := by
  simp [State.snap, h]

theorem State.resume_of_waiting {s : State} {b : Bank} {p : WaitPoint} (a : Advance)
    (h : s.phase = .busy b (some p)) : s.resume a = .wait p := by
  simp [State.resume, h]

theorem State.resume_of_not_waiting {s : State} (a : Advance)
    (h : ∀ b p, s.phase ≠ .busy b (some p)) : s.resume a = a := by
  unfold State.resume
  split
  · next hp => exact absurd hp (h _ _)
  · rfl

@[simp] theorem Bank.readX_writeX_same (b : Bank) (r : Reg) (v : Nat) :
    (b.writeX r v).readX r = v := by
  simp [Bank.readX, Bank.writeX]

theorem Bank.readX_writeX_of_ne (b : Bank) {r q : Reg} (v : Nat) (h : q ≠ r) :
    (b.writeX r v).readX q = b.readX q := by
  have : r.val ≠ q.val := fun e => h (Fin.ext e.symm)
  simp [Bank.readX, Bank.writeX, Vector.getElem_set_ne, this]

end Sys2Proof.Machine
end

