-- ==== Sys2Proof/Laws/Bus.lean ====
section
/-! SUPPORT. What a host access can do, said once: the fields no access touches, the writes of a
BUSY block, and where the map sends the offsets of R62. -/

namespace Sys2Proof.Machine

/-! ## Writes that need IDLE (10_state R23, R28 to R30) -/

theorem State.busy_of_idle {s : State} (h : s.phase = .idle) : s.busy = false := by
  simp [State.busy, h]

theorem State.writeIdle_of_idle {s : State} (b : Bank) (h : s.phase = .idle) :
    s.writeIdle b = { s with bank := b } := by
  simp [State.writeIdle, State.busy_of_idle h]

theorem State.writeIdle_of_busy {s : State} (b : Bank) (h : s.busy = true) :
    s.writeIdle b = { s with ign := true } := by
  simp [State.writeIdle, h]

/-! ## Fields no host access touches -/

@[simp] theorem State.writeIdle_params (s : State) (b : Bank) :
    (s.writeIdle b).params = s.params := by
  unfold State.writeIdle; split <;> rfl

@[simp] theorem State.writeIdle_schedule (s : State) (b : Bank) :
    (s.writeIdle b).schedule = s.schedule := by
  unfold State.writeIdle; split <;> rfl

@[simp] theorem State.writeIdle_entropy (s : State) (b : Bank) :
    (s.writeIdle b).entropy = s.entropy := by
  unfold State.writeIdle; split <;> rfl

@[simp] theorem State.writeTarget_params (s : State) (v : Word) (d : Target) :
    (s.writeTarget v d).params = s.params := by
  cases d <;> simp only [State.writeTarget, State.writeIdle_params] <;> (try rfl)
  · unfold State.writeCtrl; split_ifs <;> rfl
  · split_ifs <;> rfl

@[simp] theorem State.writeTarget_schedule (s : State) (v : Word) (d : Target) :
    (s.writeTarget v d).schedule = s.schedule := by
  cases d <;> simp only [State.writeTarget, State.writeIdle_schedule] <;> (try rfl)
  · unfold State.writeCtrl; split_ifs <;> rfl
  · split_ifs <;> rfl

@[simp] theorem State.writeTarget_entropy (s : State) (v : Word) (d : Target) :
    (s.writeTarget v d).entropy = s.entropy := by
  cases d <;> simp only [State.writeTarget, State.writeIdle_entropy] <;> (try rfl)
  · unfold State.writeCtrl; split_ifs <;> rfl
  · split_ifs <;> rfl

@[simp] theorem State.hostAccess_params (s : State) (a : Access) :
    (s.hostAccess a).params = s.params := by
  cases a <;> simp only [State.hostAccess] <;> split <;> simp

@[simp] theorem State.hostAccess_schedule (s : State) (a : Access) :
    (s.hostAccess a).schedule = s.schedule := by
  cases a <;> simp only [State.hostAccess] <;> split <;> simp

@[simp] theorem State.hostAccess_entropy (s : State) (a : Access) :
    (s.hostAccess a).entropy = s.entropy := by
  cases a <;> simp only [State.hostAccess] <;> split <;> simp

/-! ## The address map (20_memory R62) -/

/-- Word k of window n of 0x400 bytes: its number and its word are read off the offset. -/
theorem window_split {n k : Nat} (hk : k < 256) :
    (0x400 * n + 4 * k) / 0x400 = n ∧ (0x400 * n + 4 * k) % 0x400 / 4 = k := by
  omega

/-- Word k of X[i] is where R62 says. -/
theorem busTarget_x {words k : Nat} (i : Reg) (hw : words ≤ 128) (hk : k < words) :
    busTarget words (0x1000 + 0x400 * i.val + 4 * k) = .x i k := by
  have hi := i.isLt
  unfold busTarget
  rw [if_neg (by omega), if_pos (by omega)]
  have h1 : (0x1000 + 0x400 * i.val + 4 * k) % 0x400 / 4 = k := by omega
  have h2 : (0x1000 + 0x400 * i.val + 4 * k - 0x1000) / 0x400 = i.val := by omega
  simp only [h1, h2, hk, if_true]
  congr 1
  exact Fin.ext (Nat.mod_eq_of_lt hi)

/-- The offset of word k of X[i] fits the window of R60. -/
theorem xOffset_toNat {k : Nat} (i : Reg) (hk : k < 128) :
    (xOffset i k).toNat = 0x1000 + 0x400 * i.val + 4 * k := by
  have hi := i.isLt
  simp only [xOffset, BitVec.toNat_ofNat]
  exact Nat.mod_eq_of_lt (by omega)

/-- Word j of MBUF is where R62 says. -/
theorem busTarget_mbuf {words j : Nat} (hw : words ≤ 128) (hj : j < words) :
    busTarget words (0x7000 + 4 * j) = .mbuf j := by
  unfold busTarget
  rw [if_neg (by omega)]
  have h1 : (0x7000 + 4 * j) % 0x400 / 4 = j := by omega
  have h2 : (0x7000 + 4 * j - 0x5000) / 0x400 = 8 := by omega
  simp only [h1, h2, wideTarget, hj, if_true]
  rw [if_neg (by omega)]

/-! ## Words of a wide register (20_memory R63) -/

/-- Storing word k shows it in bits [32k+31:32k]. -/
theorem setWord_same (v k : Nat) (d : Word) :
    setWord v k d / 2 ^ (32 * k) % 2 ^ 32 = d.toNat := by
  have hd := d.isLt
  have hp : 0 < 2 ^ (32 * k) := Nat.two_pow_pos _
  have hs : 2 ^ (32 * (k + 1)) = 2 ^ (32 * k) * 2 ^ 32 := by rw [← pow_add]; ring_nf
  unfold setWord
  have h : v / 2 ^ (32 * (k + 1)) * 2 ^ (32 * (k + 1)) + d.toNat * 2 ^ (32 * k)
      + v % 2 ^ (32 * k)
      = v % 2 ^ (32 * k) + 2 ^ (32 * k) * (v / 2 ^ (32 * (k + 1)) * 2 ^ 32 + d.toNat) := by
    rw [hs]; ring
  rw [h, Nat.add_mul_div_left _ _ hp, Nat.div_eq_of_lt (Nat.mod_lt _ hp), Nat.zero_add,
    Nat.add_comm, Nat.add_mul_mod_self_right]
  exact Nat.mod_eq_of_lt hd

end Sys2Proof.Machine
end

