-- ==== Sys2Proof/Laws/Encoding.lean ====
section
/-! SUPPORT. The fields of a packed command word (30_encoding R80), and what acceptance of the
unused fields says. -/

namespace Sys2Proof

/-- A packed word's bits, by position. -/
theorem getLsbD_packFields (op : BitVec 8) (d s t u : Reg) (i : Nat) :
    (packFields op d s t u).getLsbD i =
      if i < 8 then op.getLsbD i
      else if i < 12 then (BitVec.ofFin (w := 4) d).getLsbD (i - 8)
      else if i < 16 then (BitVec.ofFin (w := 4) s).getLsbD (i - 12)
      else if i < 20 then (BitVec.ofFin (w := 4) t).getLsbD (i - 16)
      else (BitVec.ofFin (w := 4) u).getLsbD (i - 20) := by
  simp only [packFields, BitVec.getLsbD_append]
  have e1 : i - 8 - 4 = i - 12 := by omega
  have e2 : i - 12 - 4 = i - 16 := by omega
  have e3 : i - 16 - 4 = i - 20 := by omega
  rw [e1, e2, e3]
  split_ifs <;> first | rfl | (exfalso; omega) | skip
  rw [BitVec.getLsbD_of_ge (BitVec.ofFin (w := 4) u) (i - 20) (by omega)]
  simp

theorem opcodeField_packFields (op : BitVec 8) (d s t u : Reg) :
    opcodeField (packFields op d s t u) = op := by
  apply BitVec.eq_of_getLsbD_eq
  intro i hi
  simp [opcodeField, getLsbD_packFields, hi]

theorem rdField_packFields (op : BitVec 8) (d s t u : Reg) :
    rdField (packFields op d s t u) = d := by
  have : (packFields op d s t u).extractLsb' 8 4 = BitVec.ofFin (w := 4) d := by
    apply BitVec.eq_of_getLsbD_eq
    intro i hi
    simp only [BitVec.getLsbD_extractLsb', getLsbD_packFields, hi, decide_true, Bool.true_and]
    rw [if_neg (by omega), if_pos (by omega), Nat.add_sub_cancel_left]
  simp [rdField, this]

theorem rs1Field_packFields (op : BitVec 8) (d s t u : Reg) :
    rs1Field (packFields op d s t u) = s := by
  have : (packFields op d s t u).extractLsb' 12 4 = BitVec.ofFin (w := 4) s := by
    apply BitVec.eq_of_getLsbD_eq
    intro i hi
    simp only [BitVec.getLsbD_extractLsb', getLsbD_packFields, hi, decide_true, Bool.true_and]
    rw [if_neg (by omega), if_neg (by omega), if_pos (by omega), Nat.add_sub_cancel_left]
  simp [rs1Field, this]

theorem rs2Field_packFields (op : BitVec 8) (d s t u : Reg) :
    rs2Field (packFields op d s t u) = t := by
  have : (packFields op d s t u).extractLsb' 16 4 = BitVec.ofFin (w := 4) t := by
    apply BitVec.eq_of_getLsbD_eq
    intro i hi
    simp only [BitVec.getLsbD_extractLsb', getLsbD_packFields, hi, decide_true, Bool.true_and]
    rw [if_neg (by omega), if_neg (by omega), if_neg (by omega), if_pos (by omega),
      Nat.add_sub_cancel_left]
  simp [rs2Field, this]

theorem rs3Field_packFields (op : BitVec 8) (d s t u : Reg) :
    rs3Field (packFields op d s t u) = u := by
  have : (packFields op d s t u).extractLsb' 20 4 = BitVec.ofFin (w := 4) u := by
    apply BitVec.eq_of_getLsbD_eq
    intro i hi
    simp only [BitVec.getLsbD_extractLsb', getLsbD_packFields, hi, decide_true, Bool.true_and]
    rw [if_neg (by omega), if_neg (by omega), if_neg (by omega), if_neg (by omega),
      Nat.add_sub_cancel_left]
  simp [rs3Field, this]

theorem reservedField_packFields (op : BitVec 8) (d s t u : Reg) :
    reservedField (packFields op d s t u) = 0 := by
  apply BitVec.eq_of_getLsbD_eq
  intro i hi
  simp only [reservedField, BitVec.getLsbD_extractLsb', getLsbD_packFields, hi, decide_true,
    Bool.true_and]
  rw [if_neg (by omega), if_neg (by omega), if_neg (by omega), if_neg (by omega),
    BitVec.getLsbD_of_ge _ _ (by omega)]
  simp

/-- What it means that a word is accepted with the given fields used (R85 (c)). -/
theorem ifUnusedZero_eq_ok {d s t u : Bool} {w : Word} {i j : Instr}
    (h : ifUnusedZero d s t u w i = .ok j) :
    j = i ∧ (d = true ∨ rdField w = 0) ∧ (s = true ∨ rs1Field w = 0)
      ∧ (t = true ∨ rs2Field w = 0) ∧ (u = true ∨ rs3Field w = 0) := by
  unfold ifUnusedZero at h
  split at h
  · next hc =>
    simp only [Bool.and_eq_true, Bool.or_eq_true, beq_iff_eq] at hc
    exact ⟨(Except.ok.inj h).symm, hc.1.1.1, hc.1.1.2, hc.1.2, hc.2⟩
  · exact absurd h (by simp)

end Sys2Proof
end

