-- ==== Sys2Proof/Laws/Memory.lean ====
section
/-! SUPPORT. The message buffer and the words of wide registers: a read after a write, the bytes a
write leaves alone, and that every write keeps the canonical form. -/

namespace Sys2Proof.Machine

/-! ## The canonical form -/

/-- Lowering the bound keeps the canonical form. -/
theorem Memory.wfFrom_mono {m : Memory} {lo lo' : Nat} (h : Memory.wfFrom lo m = true)
    (hle : lo' ≤ lo) : Memory.wfFrom lo' m = true := by
  cases m with
  | nil => rfl
  | cons c rest =>
    simp only [Memory.wfFrom, Bool.and_eq_true, decide_eq_true_eq] at h ⊢
    exact ⟨⟨by omega, h.1.2⟩, h.2⟩

/-- A write keeps the canonical form. -/
theorem Memory.wfFrom_write {m : Memory} {lo a : Nat} (b : Byte)
    (h : Memory.wfFrom lo m = true) (ha : lo ≤ a) : Memory.wfFrom lo (m.write a b) = true := by
  induction m generalizing lo with
  | nil =>
    unfold Memory.write
    split
    · rfl
    · next hb => simp [Memory.wfFrom, ha, hb]
  | cons c rest ih =>
    obtain ⟨i, v⟩ := c
    have hm := h
    simp only [Memory.wfFrom, Bool.and_eq_true, decide_eq_true_eq] at h
    obtain ⟨⟨hlo, hv⟩, hrest⟩ := h
    unfold Memory.write
    split
    · next hai =>
      split
      · exact hm
      · next hb =>
        have : a + 1 ≤ i := hai
        simp [Memory.wfFrom, ha, hb, this, hv, hrest]
    · split
      · next hai =>
        subst hai
        split
        · exact Memory.wfFrom_mono hrest (by omega)
        · next hb => simp [Memory.wfFrom, ha, hb, hrest]
      · simp only [Memory.wfFrom, Bool.and_eq_true, decide_eq_true_eq]
        exact ⟨⟨hlo, hv⟩, ih hrest (by omega)⟩

theorem Memory.wf_write {m : Memory} (a : Nat) (b : Byte) (h : m.wf = true) :
    (m.write a b).wf = true :=
  Memory.wfFrom_write b h (Nat.zero_le a)

/-- Every store of a list of bytes keeps the canonical form. -/
theorem Memory.wf_writeAll {m : Memory} (a : Nat) (bs : List Byte) (h : m.wf = true) :
    (m.writeAll a bs).wf = true := by
  induction bs generalizing m a with
  | nil => exact h
  | cons b bs ih => exact ih (a + 1) (Memory.wf_write a b h)

@[simp] theorem Memory.wf_nil : Memory.wf [] = true := rfl

/-! ## Reads -/

/-- Below the bound of a canonical form nothing is listed. -/
theorem Memory.read_of_lt {m : Memory} {lo a : Nat} (h : Memory.wfFrom lo m = true)
    (ha : a < lo) : m.read a = Memory.blankByte := by
  induction m generalizing lo with
  | nil => rfl
  | cons c rest ih =>
    obtain ⟨i, v⟩ := c
    simp only [Memory.wfFrom, Bool.and_eq_true, decide_eq_true_eq] at h
    simp only [Memory.read]
    rw [if_neg (by omega)]
    exact ih h.2 (by omega)

/-- A byte reads as it was written. -/
theorem Memory.read_write_same {m : Memory} {lo : Nat} (a : Nat) (b : Byte)
    (h : Memory.wfFrom lo m = true) : (m.write a b).read a = b := by
  induction m generalizing lo with
  | nil =>
    unfold Memory.write
    split
    · next hb => simp [Memory.read, hb]
    · simp [Memory.read]
  | cons c rest ih =>
    obtain ⟨i, v⟩ := c
    have hm := h
    simp only [Memory.wfFrom, Bool.and_eq_true, decide_eq_true_eq] at h
    unfold Memory.write
    split
    · next hai =>
      split
      · next hb =>
        simp only [Memory.read, if_neg (Nat.ne_of_gt hai)]
        rw [hb]
        exact Memory.read_of_lt h.2 (by omega)
      · simp [Memory.read]
    · split
      · next hai =>
        subst hai
        split
        · next hb => rw [hb]; exact Memory.read_of_lt h.2 (by omega)
        · simp [Memory.read]
      · next hai =>
        simp only [Memory.read, if_neg (Ne.symm hai)]
        exact ih h.2

/-- A write leaves every other byte alone. -/
theorem Memory.read_write_of_ne {m : Memory} {a c : Nat} (b : Byte) (hac : c ≠ a) :
    (m.write a b).read c = m.read c := by
  induction m with
  | nil =>
    unfold Memory.write
    split
    · rfl
    · simp [Memory.read, Ne.symm hac]
  | cons d rest ih =>
    obtain ⟨i, v⟩ := d
    unfold Memory.write
    split
    · split
      · rfl
      · simp [Memory.read, Ne.symm hac]
    · split
      · next hai =>
        subst hai
        split <;> simp [Memory.read, Ne.symm hac]
      · simp only [Memory.read, ih]

/-- A store of a list of bytes leaves every byte outside them alone. -/
theorem Memory.read_writeAll_outside {m : Memory} {a c : Nat} (bs : List Byte)
    (h : c < a ∨ a + bs.length ≤ c) : (m.writeAll a bs).read c = m.read c := by
  induction bs generalizing m a with
  | nil => rfl
  | cons b bs ih =>
    simp only [List.length_cons] at h
    simp only [Memory.writeAll]
    rw [ih (by omega), Memory.read_write_of_ne b (by omega)]

/-- The bytes of a store read as they were written. -/
theorem Memory.read_writeAll_inside {m : Memory} {a i : Nat} (bs : List Byte)
    (hm : m.wf = true) (hi : i < bs.length) :
    (m.writeAll a bs).read (a + i) = bs[i] := by
  induction bs generalizing m a i with
  | nil => simp at hi
  | cons b bs ih =>
    simp only [Memory.writeAll]
    cases i with
    | zero =>
      rw [Memory.read_writeAll_outside bs (by omega)]
      simpa using Memory.read_write_same a b hm
    | succ j =>
      have := ih (m := m.write a b) (a := a + 1) (i := j) (Memory.wf_write a b hm)
        (by simpa using hi)
      simpa [Nat.add_assoc, Nat.add_comm 1 j] using this

/-! ## The bound on the listed indices -/

theorem Memory.below_write {m : Memory} {n a : Nat} (b : Byte) (h : m.below n = true)
    (ha : a < n) : (m.write a b).below n = true := by
  induction m with
  | nil =>
    unfold Memory.write
    split
    · rfl
    · simpa [Memory.below] using ha
  | cons c rest ih =>
    obtain ⟨i, v⟩ := c
    have hc : i < n ∧ Memory.below rest n = true := by
      simpa [Memory.below] using h
    have hr : ∀ x ∈ rest, x.1 < n := by simpa [Memory.below] using hc.2
    have hw : ∀ x ∈ Memory.write rest a b, x.1 < n := by simpa [Memory.below] using ih hc.2
    unfold Memory.write
    split
    · split
      · exact h
      · simpa [Memory.below] using ⟨ha, hc.1, fun x y hx => hr (x, y) hx⟩
    · split
      · split
        · exact hc.2
        · simpa [Memory.below] using ⟨ha, fun x y hx => hr (x, y) hx⟩
      · simpa [Memory.below] using ⟨hc.1, fun x y hx => hw (x, y) hx⟩

theorem Memory.below_writeAll {m : Memory} {n a : Nat} (bs : List Byte) (h : m.below n = true)
    (ha : a + bs.length ≤ n) : (m.writeAll a bs).below n = true := by
  induction bs generalizing m a with
  | nil => exact h
  | cons b bs ih =>
    simp only [List.length_cons] at ha
    exact ih (Memory.below_write b h (by omega)) (by omega)

/-! ## Words of a wide value (20_memory R63) -/

/-- A number assembled from a high part, a middle digit and a low part stays below the bound. -/
theorem assembled_lt {high mid low base lowBound highBound : Nat} (hh : high < highBound)
    (hm : mid < base) (hl : low < lowBound) :
    high * (base * lowBound) + mid * lowBound + low < highBound * (base * lowBound) := by
  have h1 : mid * lowBound + low < base * lowBound := by
    calc mid * lowBound + low < mid * lowBound + lowBound := by omega
      _ = (mid + 1) * lowBound := by ring
      _ ≤ base * lowBound := Nat.mul_le_mul_right _ hm
  calc high * (base * lowBound) + mid * lowBound + low
      < high * (base * lowBound) + base * lowBound := by omega
    _ = (high + 1) * (base * lowBound) := by ring
    _ ≤ highBound * (base * lowBound) := Nat.mul_le_mul_right _ hh

/-- Replacing a word leaves the value in its width. -/
theorem setWord_lt {v k n : Nat} (d : Word) (hv : v < 2 ^ (32 * n)) (hk : k < n) :
    setWord v k d < 2 ^ (32 * n) := by
  have hsplit : (2 : Nat) ^ (32 * (k + 1)) = 2 ^ 32 * 2 ^ (32 * k) := by
    rw [Nat.mul_succ, Nat.add_comm, Nat.pow_add]
  have hn : (2 : Nat) ^ (32 * n) = 2 ^ (32 * (n - (k + 1))) * 2 ^ (32 * (k + 1)) := by
    rw [← Nat.pow_add, ← Nat.mul_add]
    rw [Nat.sub_add_cancel hk]
  have hhigh : v / 2 ^ (32 * (k + 1)) < 2 ^ (32 * (n - (k + 1))) := by
    rw [Nat.div_lt_iff_lt_mul (Nat.two_pow_pos _), ← hn]; exact hv
  unfold setWord
  rw [hn]
  rw [hsplit] at hhigh ⊢
  exact assembled_lt hhigh d.isLt (Nat.mod_lt _ (Nat.two_pow_pos _))

end Sys2Proof.Machine
end

