-- ==== Sys2Proof/Laws/PerInstr.lean ====
section
/-! SUPPORT. Facts about every command as syntax, one lemma per constructor. -/

namespace Sys2Proof.Laws.ReservedBitsZero

/-- The encoder leaves bits [31:24] at 0 (30_encoding R80, R85 (b)). -/
def Statement (i : Instr) : Prop := reservedField (encode i) = 0

theorem nop : Statement .nop := reservedField_packFields _ _ _ _ _

theorem rand (a : Reg) : Statement (.rand a) := reservedField_packFields _ _ _ _ _

theorem montsetup (a : Reg) : Statement (.montsetup a) := reservedField_packFields _ _ _ _ _

theorem montmul (a b c : Reg) : Statement (.montmul a b c) := reservedField_packFields _ _ _ _ _

theorem montin (a b : Reg) : Statement (.montin a b) := reservedField_packFields _ _ _ _ _

theorem montout (a b : Reg) : Statement (.montout a b) := reservedField_packFields _ _ _ _ _

theorem barsetup (a : Reg) : Statement (.barsetup a) := reservedField_packFields _ _ _ _ _

theorem barred (a b : Reg) : Statement (.barred a b) := reservedField_packFields _ _ _ _ _

theorem modexp (a b c d : Reg) : Statement (.modexp a b c d) := reservedField_packFields _ _ _ _ _

theorem mrtest (a b : Reg) : Statement (.mrtest a b) := reservedField_packFields _ _ _ _ _

theorem primegen (a : Reg) : Statement (.primegen a) := reservedField_packFields _ _ _ _ _

theorem gcd (a b c : Reg) : Statement (.gcd a b c) := reservedField_packFields _ _ _ _ _

theorem coprime (a b c : Reg) : Statement (.coprime a b c) := reservedField_packFields _ _ _ _ _

theorem egcd (a b c : Reg) : Statement (.egcd a b c) := reservedField_packFields _ _ _ _ _

theorem modinv (a b c : Reg) : Statement (.modinv a b c) := reservedField_packFields _ _ _ _ _

theorem coprimegen (a b : Reg) : Statement (.coprimegen a b) := reservedField_packFields _ _ _ _ _

theorem keygen : Statement .keygen := reservedField_packFields _ _ _ _ _

theorem keyderive (a b : Reg) : Statement (.keyderive a b) := reservedField_packFields _ _ _ _ _

theorem keyderivee (a b c : Reg) : Statement (.keyderivee a b c) := reservedField_packFields _ _ _ _ _

theorem keyclr : Statement .keyclr := reservedField_packFields _ _ _ _ _

theorem enc (a b : Reg) : Statement (.enc a b) := reservedField_packFields _ _ _ _ _

theorem dec (a b : Reg) : Statement (.dec a b) := reservedField_packFields _ _ _ _ _

theorem b2i (a : Reg) : Statement (.b2i a) := reservedField_packFields _ _ _ _ _

theorem i2b (a : Reg) : Statement (.i2b a) := reservedField_packFields _ _ _ _ _

end Sys2Proof.Laws.ReservedBitsZero
end

