-- ==== Sys2Proof/Laws/Run.lean ====
section
/-! SUPPORT. What the engine's run over the answers can do, said once: the equations of a draw, the
fields no command touches, and the three ways a command's step ends. -/

namespace Sys2Proof.Machine

/-! ## One draw -/

/-- A point whose cap is reached, or that draws with EFAIL set, ends the command and takes no
answer (60 R257, R258). -/
theorem drive_of_blocked {cap : Nat} {efail : Bool} {p : WaitPoint} {e : ErrCode}
    (answers : List Answer) (h : p.blocked cap efail = some e) :
    drive cap efail answers p = .ended (.raise e) answers := by
  cases answers <;> simp [drive, h]

theorem drive_nil {cap : Nat} {efail : Bool} {p : WaitPoint} (h : p.blocked cap efail = none) :
    drive cap efail [] p = .starved p := by
  simp [drive, h]

theorem drive_fail {cap : Nat} {efail : Bool} {p : WaitPoint} (rest : List Answer)
    (h : p.blocked cap efail = none) :
    drive cap efail (.fail :: rest) p = .failed rest := by
  simp [drive, h]

theorem drive_value_done {cap : Nat} {efail : Bool} {p : WaitPoint} {v : Nat} {r : Result}
    (rest : List Answer) (h : p.blocked cap efail = none)
    (hv : p.answered (v % 2 ^ p.width) = .done r) :
    drive cap efail (.value v :: rest) p = .ended r rest := by
  simp [drive, h, hv]

theorem drive_value_wait {cap : Nat} {efail : Bool} {p q : WaitPoint} {v : Nat}
    (rest : List Answer) (h : p.blocked cap efail = none)
    (hv : p.answered (v % 2 ^ p.width) = .wait q) :
    drive cap efail (.value v :: rest) p = drive cap efail rest q := by
  simp [drive, h, hv]

/-- With no cap and EFAIL clear nothing blocks a draw. -/
theorem blocked_of_no_cap (p : WaitPoint) : p.blocked 0 false = none := by
  cases hp : p.count <;> simp [WaitPoint.blocked, capReached, hp]

/-- With EFAIL set every draw is blocked. -/
theorem blocked_of_efail (cap : Nat) (p : WaitPoint) : ∃ e, p.blocked cap true = some e := by
  unfold WaitPoint.blocked
  split
  · exact ⟨_, rfl⟩
  · exact ⟨_, rfl⟩

/-- A run that is starved was at an unblocked draw. -/
theorem drive_starved_unblocked {cap : Nat} {efail : Bool} {answers : List Answer}
    {p q : WaitPoint} (h : drive cap efail answers p = .starved q) :
    q.blocked cap efail = none := by
  induction answers generalizing p with
  | nil =>
    unfold drive at h
    split at h
    · exact absurd h (by simp)
    · next hb => cases h; exact hb
  | cons a rest ih =>
    unfold drive at h
    split at h
    · exact absurd h (by simp)
    · split at h
      · exact absurd h (by simp)
      · split at h
        · exact absurd h (by simp)
        · exact ih h

/-- A run consumes answers from the front only, and leaves the rest as they were. -/
theorem drive_rest {cap : Nat} {efail : Bool} {answers rest : List Answer} {p : WaitPoint}
    (h : (∃ r, drive cap efail answers p = .ended r rest)
      ∨ drive cap efail answers p = .failed rest) : ∃ used, answers = used ++ rest := by
  induction answers generalizing p with
  | nil =>
    unfold drive at h
    split at h
    · obtain ⟨r, hr⟩ | hr := h
      · cases hr; exact ⟨[], rfl⟩
      · exact absurd hr (by simp)
    · obtain ⟨r, hr⟩ | hr := h <;> exact absurd hr (by simp)
  | cons a tl ih =>
    unfold drive at h
    split at h
    · obtain ⟨r, hr⟩ | hr := h
      · cases hr; exact ⟨[], rfl⟩
      · exact absurd hr (by simp)
    · split at h
      · obtain ⟨r, hr⟩ | hr := h
        · exact absurd hr (by simp)
        · cases hr; exact ⟨[.fail], rfl⟩
      · split at h
        · obtain ⟨r, hr⟩ | hr := h
          · cases hr; exact ⟨[_], rfl⟩
          · exact absurd hr (by simp)
        · obtain ⟨used, hu⟩ := ih h
          exact ⟨_ :: used, by rw [hu]; rfl⟩

/-! ## One engine run -/

/-- The three ways a command's step ends, with all it changes: it completes with a result, having
consumed answers; or an answer FAIL completes it and sets EFAIL; or it waits, with no answer left. -/
theorem State.advance_cases (s : State) (a : Advance) :
    (∃ r rest, s.advance a = State.complete { s with entropy := rest } r
      ∧ ∃ used, s.entropy = used ++ rest)
    ∨ (∃ rest, s.advance a
        = State.complete { s with entropy := rest, bank := { s.bank with efail := true } }
            (.raise .entropyUnavailable)
      ∧ ∃ used, s.entropy = used ++ rest)
    ∨ (∃ p, s.advance a = { s with entropy := [], phase := .busy s.snap (some p) }
      ∧ p.blocked s.cap s.snap.efail = none) := by
  cases a with
  | done r => exact .inl ⟨r, s.entropy, rfl, [], rfl⟩
  | wait p =>
    cases hd : drive s.cap s.snap.efail s.entropy p with
    | ended r rest =>
      exact .inl ⟨r, rest, by simp [State.advance, State.settle, hd], drive_rest (.inl ⟨r, hd⟩)⟩
    | failed rest =>
      exact .inr (.inl ⟨rest, by simp [State.advance, State.settle, hd], drive_rest (.inr hd)⟩)
    | starved q =>
      exact .inr (.inr ⟨q, by simp [State.advance, State.settle, hd],
        drive_starved_unblocked hd⟩)

@[simp] theorem State.advance_params (s : State) (a : Advance) :
    (s.advance a).params = s.params := by
  obtain ⟨r, rest, h, -⟩ | ⟨rest, h, -⟩ | ⟨p, h, -⟩ := s.advance_cases a <;> simp [h]

@[simp] theorem State.advance_ie (s : State) (a : Advance) : (s.advance a).ie = s.ie := by
  obtain ⟨r, rest, h, -⟩ | ⟨rest, h, -⟩ | ⟨p, h, -⟩ := s.advance_cases a <;> simp [h]

@[simp] theorem State.advance_ign (s : State) (a : Advance) : (s.advance a).ign = s.ign := by
  obtain ⟨r, rest, h, -⟩ | ⟨rest, h, -⟩ | ⟨p, h, -⟩ := s.advance_cases a <;> simp [h]

@[simp] theorem State.advance_cmdLost (s : State) (a : Advance) :
    (s.advance a).cmdLost = s.cmdLost := by
  obtain ⟨r, rest, h, -⟩ | ⟨rest, h, -⟩ | ⟨p, h, -⟩ := s.advance_cases a <;> simp [h]

@[simp] theorem State.advance_schedule (s : State) (a : Advance) :
    (s.advance a).schedule = s.schedule := by
  obtain ⟨r, rest, h, -⟩ | ⟨rest, h, -⟩ | ⟨p, h, -⟩ := s.advance_cases a <;> simp [h]

@[simp] theorem State.advance_response (s : State) (a : Advance) :
    (s.advance a).response = s.response := by
  obtain ⟨r, rest, h, -⟩ | ⟨rest, h, -⟩ | ⟨p, h, -⟩ := s.advance_cases a <;> simp [h]

/-! ## The writes of a command, one kind at a time -/

/-- A command that writes one operand register changes the bank there only. -/
theorem State.complete_x_bank (s : State) (r : Reg) (v : Nat) :
    (s.complete (.ok [.x r v])).bank = s.bank.writeX r v
      ∧ (s.complete (.ok [.x r v])).res = s.res := ⟨rfl, rfl⟩

/-- A command that writes an operand register and RES (42 R153, 43 R173). -/
theorem State.complete_x_res (s : State) (r : Reg) (v : Nat) (b : Bool) :
    (s.complete (.ok [.x r v, .res b])).bank = s.bank.writeX r v
      ∧ (s.complete (.ok [.x r v, .res b])).res = b := ⟨rfl, rfl⟩

/-- A key command's commit (44 R200). -/
theorem State.complete_key (s : State) (k : KeyRegs) (kv : Bool) :
    (s.complete (.ok [.key k kv])).bank = { s.bank with key := k, kv := kv }
      ∧ (s.complete (.ok [.key k kv])).res = s.res := ⟨rfl, rfl⟩

/-- I2B's commit (45 R227). -/
theorem State.complete_message (s : State) (bs : List Byte) (n : Nat) :
    (s.complete (.ok [.mbuf bs, .mlen n])).bank
        = { s.bank with mbuf := s.bank.mbuf.writeAll 0 bs, mlen := n }
      ∧ (s.complete (.ok [.mbuf bs, .mlen n])).res = s.res := ⟨rfl, rfl⟩

end Sys2Proof.Machine
end

