-- ==== Sys2Proof/Tests/Slice0.lean ====
section
/-! SUPPORT. The model's own tests. Expected results come from the spec: the encoding column of
30_encoding R84 and the vectors and examples of spec/95_test_vectors.md and of the command rules.
The witness theorems show, for each statement with hypotheses and each of its clauses, a state and
operands that meet them. -/

namespace Sys2Proof.Tests

open Sys2Proof Sys2Proof.Machine

/-! ## Small states -/

/-- The bank after reset, W = 32. -/
def base : Bank := Bank.reset Params.reference false

/-- A bank with the listed operand registers. -/
def regs (b : Bank) (l : List (Reg × Nat)) : Bank := l.foldl (fun c q => c.writeX q.1 q.2) b

/-- A bank with ARG = n. -/
def arg (n : Nat) (b : Bank) : Bank := { b with arg := BitVec.ofNat 32 n }

/-- A bank with RETRYCAP = n. -/
def cap (n : Nat) (b : Bank) : Bank := { b with retryCap := BitVec.ofNat 32 n }

/-- A bank with EFAIL = 1. -/
def broken (b : Bank) : Bank := { b with efail := true }

/-- The contexts of modulus 3233 (41 R121, R127) and the keypair of 61, 53, 17 (44 R204). -/
def mont : Bank := { base with mont := ⟨3233, 0x669F289F, 2029⟩, mv := true }
def bar : Bank := { base with bar := ⟨3233, 12, 5189⟩, bv := true }
def keyed : Bank := { base with key := ⟨3233, 17, 2753, 61, 53, 3120⟩, kv := true }

/-- IDLE with a bank. -/
def idle (b : Bank) : State := { State.reset with bank := b }

/-- BUSY with a command accepted on a bank, and answers at hand. -/
def started (i : Instr) (b : Bank) (answers : List Answer) : State :=
  { (idle b).start (encode i) with entropy := answers }

/-- BUSY with a command waiting at a point. -/
def waitingAt (i : Instr) (b : Bank) (p : WaitPoint) : State :=
  { started i b [] with phase := .busy { b with cmd := encode i } (some p) }

/-- A state with the next system step. -/
def next (e : Event) (s : State) : State := { s with schedule := [e] }

/-- A host read or write of a word comes next. -/
def reading (offset : BitVec 15) (s : State) : State := next (.host (.read offset 4)) s
def writing (offset : BitVec 15) (v : Word) (s : State) : State := next (.host (.write offset 4 v)) s

/-- The state after a command, none at a stop. -/
def run (i : Instr) (b : Bank) (answers : List Answer) : Option State :=
  match exec i (started i b answers) with
  | .next t => some t
  | _ => none

/-- X[r] and ERR after a command. -/
def result (i : Instr) (b : Bank) (answers : List Answer) (r : Reg) : Option (Nat × ErrCode) :=
  (run i b answers).map fun t => (t.bank.readX r, t.err)

/-- STATUS after a command. -/
def status (i : Instr) (b : Bank) (answers : List Answer) : Option Word :=
  (run i b answers).map State.statusWord

/-- The state after one step, none at a stop. -/
def stepped (s : State) : Option State :=
  match step s with
  | .next t => some t
  | _ => none

/-- The data of the bus response after one step. -/
def busData (s : State) : Option Word := (stepped s).bind fun t => t.response.map Response.data

/-! ## Well-formedness: the one check refuses an ill-formed term (30_encoding R85 (d)) -/

theorem test_egcd_destination_refused : (Instr.egcd 14 1 2).wellFormed = false := by decide

theorem test_egcd_destination_accepted : (Instr.egcd 13 1 2).wellFormed = true := by decide

/-! ## Decoding: each row's word, written from the encoding column of R84 with d = 5, s = 9, t = 12,
u = 3 -/

theorem test_decode_nop :
    decode 0b00000000000000000000000000000000 = .ok .nop := by decide

theorem test_decode_rand :
    decode 0b00000000000000000000010100000001 = .ok (.rand 5) := by decide

theorem test_decode_montsetup :
    decode 0b00000000000000001001000000010000 = .ok (.montsetup 9) := by decide

theorem test_decode_montmul :
    decode 0b00000000000011001001010100010001 = .ok (.montmul 5 9 12) := by decide

theorem test_decode_montin :
    decode 0b00000000000000001001010100010010 = .ok (.montin 5 9) := by decide

theorem test_decode_montout :
    decode 0b00000000000000001001010100010011 = .ok (.montout 5 9) := by decide

theorem test_decode_barsetup :
    decode 0b00000000000000001001000000011000 = .ok (.barsetup 9) := by decide

theorem test_decode_barred :
    decode 0b00000000000000001001010100011001 = .ok (.barred 5 9) := by decide

theorem test_decode_modexp :
    decode 0b00000000001111001001010100100000 = .ok (.modexp 5 9 12 3) := by decide

theorem test_decode_mrtest :
    decode 0b00000000000000001001010100101000 = .ok (.mrtest 5 9) := by decide

theorem test_decode_primegen :
    decode 0b00000000000000000000010100101001 = .ok (.primegen 5) := by decide

theorem test_decode_gcd :
    decode 0b00000000000011001001010100110000 = .ok (.gcd 5 9 12) := by decide

theorem test_decode_coprime :
    decode 0b00000000000011001001010100110001 = .ok (.coprime 5 9 12) := by decide

theorem test_decode_egcd :
    decode 0b00000000000011001001010100110010 = .ok (.egcd 5 9 12) := by decide

theorem test_decode_modinv :
    decode 0b00000000000011001001010100110011 = .ok (.modinv 5 9 12) := by decide

theorem test_decode_coprimegen :
    decode 0b00000000000000001001010100110100 = .ok (.coprimegen 5 9) := by decide

theorem test_decode_keygen :
    decode 0b00000000000000000000000001000000 = .ok .keygen := by decide

theorem test_decode_keyderive :
    decode 0b00000000000011001001000001000001 = .ok (.keyderive 9 12) := by decide

theorem test_decode_keyderivee :
    decode 0b00000000001111001001000001000010 = .ok (.keyderivee 9 12 3) := by decide

theorem test_decode_keyclr :
    decode 0b00000000000000000000000001000011 = .ok .keyclr := by decide

theorem test_decode_enc :
    decode 0b00000000000000001001010101001000 = .ok (.enc 5 9) := by decide

theorem test_decode_dec :
    decode 0b00000000000000001001010101001001 = .ok (.dec 5 9) := by decide

theorem test_decode_b2i :
    decode 0b00000000000000000000010101010000 = .ok (.b2i 5) := by decide

theorem test_decode_i2b :
    decode 0b00000000000000001001000001010001 = .ok (.i2b 9) := by decide

/-- The illegal words of spec/95. -/
theorem test_illegal_words :
    decode 0x01000000 = .error .reservedBits ∧ decode 0x80000000 = .error .reservedBits
      ∧ decode 0x00000002 = .error .unassignedOpcode ∧ decode 0x000000FF = .error .unassignedOpcode
      ∧ decode 0x00000F40 = .error .unusedField ∧ decode 0x00001001 = .error .unusedField
      ∧ decode 0x00000E32 = .error .egcdDestination := by decide

theorem test_decodeTableWord : decodeTableWord 32 0x00021311 = some (.montmul 3 1 2) := by decide

/-- The assembler spelling (30_encoding R88). -/
theorem test_asm : (Instr.modexp 4 1 2 3).asm = "MODEXP X4, X1, X2, X3" := by decide

/-! ## Reset and memory -/

theorem test_reset_memory : State.reset.bank.mbuf.wf = true := by decide

/-- spec/95: RD 0x0008 at reset reads CHK = 1. -/
theorem test_reset_ctrl : busData (reading 0x0008 State.reset) = some 0x00000002 := by decide

theorem test_reset_inv : State.reset.Inv := by decide

/-- The canonical form: writing the blank byte removes the entry. -/
theorem test_blank_byte_is_not_listed :
    Memory.write (Memory.write [] 3 0x7F) 3 0 = [] ∧ Memory.read [] 3 = 0 := by decide

/-! ## Commands: vectors of spec/95 and examples of the command rules -/

theorem test_nop : status .nop base [] = some 0x00000002 := by decide

theorem test_rand : result (.rand 3) (arg 8 base) [.value 0xA5] 3 = some (0xA5, .ok) := by decide
theorem test_rand_fail : status (.rand 3) (arg 8 base) [.fail] = some 0x00000582 := by decide

theorem test_montsetup :
    (run (.montsetup 1) (regs base [(1, 3233)]) []).map (fun t => (t.bank.mont, t.bank.mv))
      = some (⟨3233, 0x669F289F, 2029⟩, true) := by decide
theorem test_montsetup_top :
    (run (.montsetup 1) (regs base [(1, 0xFFFFFFFF)]) []).map (fun t => t.bank.mont)
      = some ⟨0xFFFFFFFF, 1, 1⟩ := by decide

theorem test_montmul :
    result (.montmul 3 1 2) (regs mont [(1, 716), (2, 716)]) [] 3 = some (1278, .ok) := by decide
theorem test_montmul_unreduced :
    result (.montmul 3 1 2) (regs mont [(1, 0xFFFFFFFF), (2, 0xFFFFFFFF)]) [] 3
      = some (2449, .ok) := by decide

theorem test_montin : result (.montin 3 1) (regs mont [(1, 3298)]) [] 3 = some (716, .ok) := by
  decide
theorem test_montout : result (.montout 3 1) (regs mont [(1, 1278)]) [] 3 = some (992, .ok) := by
  decide

theorem test_barsetup :
    (run (.barsetup 1) (regs base [(1, 3233)]) []).map (fun t => (t.bank.bar, t.bank.bv))
      = some (⟨3233, 12, 5189⟩, true) := by decide
theorem test_barsetup_power :
    (run (.barsetup 1) (regs base [(1, 2 ^ 31)]) []).map (fun t => t.bank.bar)
      = some ⟨2 ^ 31, 32, 2 ^ 33⟩ := by decide

theorem test_barred :
    result (.barred 2 1) (regs bar [(1, 2 ^ 24 - 1)]) [] 2 = some (1178, .ok) := by decide
theorem test_barred_domain :
    status (.barred 2 1) (regs bar [(1, 2 ^ 24)]) [] = some 0x00000242 := by decide

theorem test_modexp :
    result (.modexp 4 1 2 3) (regs base [(1, 65), (2, 17), (3, 3233)]) [] 4 = some (2790, .ok) := by
  decide
theorem test_modexp_zero :
    result (.modexp 4 1 2 3) (regs base [(3, 7)]) [] 4 = some (1, .ok) := by decide

/-- num = 10: 15 shrinks the width to 3, 1 is redrawn, 5 is a witness of compositeness. -/
theorem test_mrtest_shrink :
    (run (.mrtest 2 1) (arg 1 (regs base [(1, 10), (2, 9)])) [.value 15, .value 1, .value 5]).map
      (fun t => (t.bank.readX 2, t.res, t.entropy)) = some (0, false, []) := by decide
theorem test_mrtest_even_passes :
    status (.mrtest 2 1) (arg 1 (regs base [(1, 28)])) [.value 3] = some 0x0000000A := by decide

theorem test_primegen :
    result (.primegen 1) (arg 4 base) [.value 9, .value 7, .value 3] 1 = some (3, .ok) := by decide
theorem test_primegen_cap :
    status (.primegen 1) (cap 3 (arg 1 base)) [.value 0, .value 1, .value 1]
      = some 0x00000602 := by decide

theorem test_gcd : result (.gcd 3 1 2) (regs base [(1, 922), (2, 60)]) [] 3 = some (2, .ok) := by
  decide
theorem test_coprime :
    status (.coprime 3 1 2) (regs base [(1, 17), (2, 3120)]) [] = some 0x0000000A := by decide

/-- The sources are read before the three writes. -/
theorem test_egcd_overlap :
    (run (.egcd 1 1 2) (regs base [(1, 240), (2, 46)]) []).map
      (fun t => (t.bank.readX 1, t.bank.readX 2, t.bank.readX 3)) = some (2, 37, 47) := by decide
theorem test_egcd_top :
    (run (.egcd 13 1 2) (regs base [(1, 0xFFFFFFFF), (2, 0xFFFFFFFE)]) []).map
      (fun t => (t.bank.readX 13, t.bank.readX 14, t.bank.readX 15))
      = some (1, 1, 0xFFFFFFFE) := by decide

theorem test_modinv :
    result (.modinv 3 1 2) (regs base [(1, 17), (2, 3120)]) [] 3 = some (2753, .ok) := by decide
theorem test_modinv_none :
    result (.modinv 3 1 2) (regs base [(1, 922), (2, 60), (3, 0xDEAD)]) [] 3
      = some (0xDEAD, .noInverse) := by decide

theorem test_coprimegen :
    result (.coprimegen 2 1) (arg 12 (regs base [(1, 3120)])) [.value 0, .value 3121, .value 17] 2
      = some (17, .ok) := by decide

theorem test_keygen :
    (run .keygen (arg 2 base)
        [.value 3, .value 3, .value 2, .value 0, .value 3, .value 1]).map
      (fun t => (t.bank.key, t.statusWord, t.entropy))
      = some (⟨6, 1, 1, 3, 2, 2⟩, 0x00000012, []) := by decide
theorem test_keygen_locked : status .keygen (arg 2 keyed) [] = some 0x00000812 := by decide

theorem test_keyderive :
    (run (.keyderive 1 2) (arg 12 (regs base [(1, 61), (2, 53)])) [.value 3120, .value 17]).map
      (fun t => t.bank.key) = some ⟨3233, 17, 2753, 61, 53, 3120⟩ := by decide
theorem test_keyderive_overflow :
    status (.keyderive 1 2) (arg 8 (regs base [(1, 65537), (2, 65539)])) []
      = some 0x00000902 := by decide

theorem test_keyderivee :
    (run (.keyderivee 1 2 3) (broken (regs base [(1, 61), (2, 53), (3, 17)])) []).map
      (fun t => (t.bank.key, t.statusWord))
      = some (⟨3233, 17, 2753, 61, 53, 3120⟩, 0x00000092) := by decide

theorem test_keyclr :
    (run .keyclr keyed []).map (fun t => (t.bank.key, t.statusWord))
      = some (⟨0, 0, 0, 0, 0, 0⟩, 0x00000002) := by decide

theorem test_enc : result (.enc 2 1) (regs keyed [(1, 65)]) [] 2 = some (2790, .ok) := by decide
theorem test_enc_overflow :
    status (.enc 2 1) (regs keyed [(1, 3233)]) [] = some 0x00000412 := by decide
theorem test_dec : result (.dec 2 1) (regs keyed [(1, 2790)]) [] 2 = some (65, .ok) := by decide

theorem test_b2i :
    result (.b2i 4) { base with mbuf := [(0, 0x12), (1, 0x34), (2, 0x56), (3, 0x78)], mlen := 4 } [] 4
      = some (0x12345678, .ok) := by decide
theorem test_i2b :
    (run (.i2b 5) (regs { base with mbuf := [(0, 0xAA), (1, 0xBB), (2, 0xCC), (3, 0xDD)], mlen := 4 }
        [(5, 0x10000)]) []).map (fun t => (t.bank.mbuf, t.bank.mlen))
      = some ([(0, 0x01)], 3) := by decide

/-! ## Host accesses (spec/95) -/

theorem test_read_param : busData (reading 0x0004 State.reset) = some 0x01100020 := by decide

theorem test_write_mlen :
    (stepped (writing 0x001C 9 State.reset)).map (fun t => t.bank.mlen) = some 4 := by decide

/-- 0x7000 after the I2B of 2790 reads 0x0000E60A. -/
theorem test_read_mbuf :
    busData (reading 0x7000 (idle { base with mbuf := [(0, 0x0A), (1, 0xE6)], mlen := 2 }))
      = some 0x0000E60A := by decide

theorem test_write_busy :
    (stepped (writing 0x1400 5 (started .nop base []))).map (fun t => (t.ign, t.bank.readX 1))
      = some (true, 0) := by decide

/-- spec/95: EFAIL = 1, then a soft reset leaves STATUS = 0x80. -/
theorem test_soft_reset :
    (stepped (writing 0x0008 0x80000000 (idle (broken keyed)))).map State.statusWord
      = some 0x00000080 := by decide

/-- The word placed is the next step's command. -/
theorem test_fetch_word :
    (stepped ((idle (regs base [(1, 922), (2, 60)])).withFetchWord 32 0x00021330)).map
      (fun t => (t.bank.readX 3, t.statusWord)) = some (2, 0x00000002) := by decide

/-! ## Witnesses of the statements' hypotheses, clause by clause -/

theorem witness_DecodeAndEncodeAgree :
    (Instr.egcd 13 15 0).wellFormed = true ∧ (Instr.modexp 15 15 15 15).wellFormed = true
      ∧ decode 0x00FFFF20 = .ok (.modexp 15 15 15 15) := by decide

/-- An engine step scheduled, one with nothing scheduled, and an answer to a waiting command. -/
theorem witness_StepRunsTheDecodedCommand :
    (started (.gcd 3 1 2) base []).fetch = some 0x00021330
      ∧ decode 0x00021330 = .ok (.gcd 3 1 2)
      ∧ (next .engine (started (.gcd 3 1 2) base [])).schedule = [.engine]
      ∧ (started (.gcd 3 1 2) base []).schedule = []
      ∧ (waitingAt (.rand 3) (arg 8 base) (.rand 3 8)).fetch = some 0x00000301
      ∧ (waitingAt (.rand 3) (arg 8 base) (.rand 3 8)).waiting = true := by decide

/-- A word of no row, and EGCD with rd = 14. -/
theorem witness_IllegalWordEndsWithIllegalCmd :
    (∀ row ∈ opcodeTable, row.accepts 0x01000000 = true →
        row.mnemonic = "EGCD" ∧ 13 < (rdField 0x01000000).val)
      ∧ (∀ row ∈ opcodeTable, row.accepts 0x00000E32 = true →
        row.mnemonic = "EGCD" ∧ 13 < (rdField 0x00000E32).val)
      ∧ (next .engine (State.reset.start 0x00000E32)).fetch = some 0x00000E32
      ∧ (next .engine (State.reset.start 0x00000E32)).schedule = [.engine]
      ∧ (State.reset.start 0x00000E32).fetch = some 0x00000E32
      ∧ (State.reset.start 0x00000E32).schedule = [] := by decide

theorem witness_CmdWriteStartsACommand :
    (writing 0x0010 0 State.reset).phase = .idle
      ∧ (writing 0x0010 0 (started .nop base [])).busy = true
      ∧ (reading 0x0010 State.reset).schedule = [.host (.read 0x0010 4)] := by decide

/-- A command that fails without a draw, and one that fails on its first draw. -/
theorem witness_FailedCommandChangesOnlyStatus :
    (run (.modexp 4 1 2 3) base []).map (fun t => (t.phase, t.err)) = some (.idle, .invalidArg)
      ∧ (run (.rand 3) (arg 8 base) [.fail]).map (fun t => (t.phase, t.err))
        = some (.idle, .entropyUnavailable) := by decide

theorem witness_StatusIsReadAndAcknowledged :
    (reading 0x000C State.reset).schedule = [.host (.read 0x000C 4)]
      ∧ (writing 0x000C 0x00003002 State.reset).schedule
        = [.host (.write 0x000C 4 0x00003002)] := by decide

theorem witness_InterruptFollowsDoneAndEnable :
    (run .nop base []).map (fun t => t.phase) = some .idle
      ∧ (stepped (writing 0x000C 2 { State.reset with ie := true, done := true })).map State.irq
        = some false
      ∧ (stepped (writing 0x0010 0 { State.reset with ie := true, done := true })).map State.irq
        = some false
      ∧ (stepped (writing 0x0008 1 { State.reset with done := true })).map State.irq = some true
      ∧ (next .hardReset State.reset).resetComing = true
      ∧ (writing 0x0008 0x80000000 State.reset).softResetComing = true := by decide

/-- ARG = 0, ARG = W + 1, EFAIL = 1, and ARG = 1 and W with a value, FAIL and no answer. -/
theorem witness_RandWritesOneDraw :
    (started (.rand 3) base []).atStart = true ∧ (started (.rand 3) base []).argument = 0
      ∧ (started (.rand 3) base []).width < (started (.rand 3) (arg 33 base) []).argument
      ∧ (started (.rand 3) (broken (arg 1 base)) []).snap.efail = true
      ∧ (started (.rand 3) (arg 1 base) [.value 1]).argument = 1
      ∧ (started (.rand 3) (arg 32 base) [.fail]).argument = 32
      ∧ (started (.rand 3) (arg 32 base) []).snap.efail = false := by decide

theorem witness_MontsetupLatchesTheContext :
    (started (.montsetup 1) base []).src 1 % 2 = 0
      ∧ (started (.montsetup 1) (regs base [(1, 1)]) []).src 1 % 2 = 1 := by decide

theorem witness_MontmulIsTheMontgomeryProduct :
    (started (.montmul 3 1 2) base []).snap.mv = false
      ∧ (started (.montmul 3 1 2) mont []).snap.mv = true
      ∧ (started (.montmul 3 1 2) mont []).snap.mont.n % 2 = 1 := by decide

theorem witness_MontinAndMontoutConvert :
    (started (.montin 3 1) base []).snap.mv = false
      ∧ (started (.montout 3 1) mont []).snap.mv = true
      ∧ (started (.montout 3 1) mont []).snap.mont.n % 2 = 1 := by decide

/-- Runs of every clause, with N = 3233; the last with a register that is source and
destination. -/
theorem witness_MontgomeryLaws :
    (idle mont).bank.mv = true ∧ (idle mont).bank.mont.n % 2 = 1
      ∧ (∃ t t' u, (idle mont).RunsTo (.montin 3 1) t ∧ State.RunsTo t (.montin 4 2) t'
        ∧ State.RunsTo t' (.montmul 3 3 4) u)
      ∧ (∃ t u, (idle mont).RunsTo (.montin 2 1) t ∧ State.RunsTo t (.montout 2 2) u)
      ∧ (∃ t u, (idle mont).RunsTo (.montmul 3 1 2) t ∧ (idle mont).RunsTo (.montmul 3 2 1) u)
      ∧ ∃ t, (idle mont).RunsTo (.montout 1 1) t :=
  ⟨rfl, rfl, ⟨_, _, _, rfl, rfl, rfl⟩, ⟨_, _, rfl, rfl⟩, ⟨_, _, rfl, rfl⟩, _, rfl⟩

theorem witness_BarsetupLatchesTheContext :
    (started (.barsetup 1) base []).src 1 = 0
      ∧ (started (.barsetup 1) (regs base [(1, 1)]) []).src 1 ≠ 0 := by decide

/-- BV = 0; the least value outside the domain, and the greatest inside. -/
theorem witness_BarredReduces :
    (started (.barred 2 1) base []).snap.bv = false
      ∧ (started (.barred 2 1) (regs bar [(1, 2 ^ 24)]) []).snap.bv = true
      ∧ 2 ^ (2 * (started (.barred 2 1) bar []).snap.bar.k)
        ≤ (started (.barred 2 1) (regs bar [(1, 2 ^ 24)]) []).src 1
      ∧ (started (.barred 2 1) (regs bar [(1, 2 ^ 24 - 1)]) []).src 1
        < 2 ^ (2 * (started (.barred 2 1) bar []).snap.bar.k) := by decide

theorem witness_ModexpIsTheModularPower :
    (started (.modexp 4 1 2 3) base []).src 3 = 0
      ∧ (started (.modexp 4 1 2 3) (regs base [(3, 1)]) []).src 3 ≠ 0 := by decide

theorem witness_MrtestFollowsMillerRabin :
    (started (.mrtest 2 1) base []).atStart = true
      ∧ (started (.mrtest 2 1) base []).argument = 0
      ∧ (started (.mrtest 2 1) (arg 1 base) []).argument ≠ 0 := by decide

/-- 9 - 1 = 1·2^3, whose witness 7 fails; 5 - 1 = 1·2^2, whose witness 2 passes on its one squaring;
4 - 1 = 3·2^0, with the least width (spec/95). -/
theorem witness_MillerRabinRoundIsTheStrongTest :
    (9 - 1 = 1 * 2 ^ 3 ∧ 5 - 1 = 1 * 2 ^ 2 ∧ 4 - 1 = 3 * 2 ^ 0)
      ∧ witnessPasses 9 7 = false ∧ 2 ^ (1 * 2 ^ 1) % 5 = 5 - 1
      ∧ (started (.mrtest 2 1) (arg 1 (regs base [(1, 9)])) [.value 7]).atStart = true
      ∧ (started (.mrtest 2 1) (arg 1 (regs base [(1, 9)])) [.value 7]).src 1 = 9
      ∧ (started (.mrtest 2 1) (arg 1 (regs base [(1, 9)])) [.value 7]).argument = 1
      ∧ (started (.mrtest 2 1) (arg 1 (regs base [(1, 9)])) [.value 7]).snap.efail = false
      ∧ 2 ^ (3 - 1) ≤ 9 - 2 ∧ 9 - 2 < 2 ^ 3 ∧ 7 = 7 % 2 ^ 3
      ∧ 7 ^ 1 % 9 ≠ 1 ∧ 7 ^ 1 % 9 ≠ 9 - 1 ∧ (∀ j, 1 ≤ j → j < 3 → 7 ^ (1 * 2 ^ j) % 9 ≠ 9 - 1)
      ∧ 2 ^ (2 - 1) ≤ 4 - 2 ∧ 4 - 2 < 2 ^ 2 ∧ 2 = 2 % 2 ^ 2 := by
  refine ⟨by decide, by decide, by decide, by decide, by decide, by decide, by decide, by decide,
    by decide, by decide, by decide, by decide, ?_, by decide, by decide, by decide⟩
  intro j h1 h2
  interval_cases j <;> decide

/-- MRTEST of 5 with witness 2. -/
theorem witness_PrimeIsNeverReportedComposite :
    Nat.Prime ((started (.mrtest 2 1) (arg 1 (regs base [(1, 5)])) [.value 2]).src 1)
      ∧ (started (.mrtest 2 1) (arg 1 (regs base [(1, 5)])) [.value 2]).atStart = true
      ∧ (run (.mrtest 2 1) (arg 1 (regs base [(1, 5)])) [.value 2]).map
          (fun t => (t.phase, t.done, t.err)) = some (.idle, true, .ok) := by
  refine ⟨?_, by decide, by decide⟩
  show Nat.Prime 5
  norm_num

theorem witness_PrimegenFollowsTheCandidateLoop :
    (started (.primegen 1) base []).atStart = true
      ∧ (started (.primegen 1) base []).argument = 0
      ∧ (started (.primegen 1) base []).width < (started (.primegen 1) (arg 33 base) []).argument
      ∧ 1 ≤ (started (.primegen 1) (arg 1 base) []).argument
      ∧ (started (.primegen 1) (arg 32 base) []).argument ≤ 32 := by decide

/-- Coprime values and the pair (0, 0), which 2 divides. -/
theorem witness_GcdAndCoprimeFindTheCommonDivisor :
    (∀ c, c ∣ (started (.coprime 3 1 2) (regs base [(1, 1)]) []).src 1 →
        c ∣ (started (.coprime 3 1 2) (regs base [(1, 1)]) []).src 2 → c = 1)
      ∧ 2 ∣ (started (.coprime 3 1 2) base []).src 1
      ∧ 2 ∣ (started (.coprime 3 1 2) base []).src 2 := by
  refine ⟨fun c h _ => ?_, by decide, by decide⟩
  exact Nat.dvd_one.mp h

/-- rd = 14, the least refused, and rd = 13 with its two followers. -/
theorem witness_EgcdWritesNormalizedCoefficients :
    13 < (14 : Reg).val ∧ (14 : Reg).val = (13 : Reg).val + 1
      ∧ (15 : Reg).val = (13 : Reg).val + 2 := by decide

theorem witness_ModinvWritesTheInverse :
    (started (.modinv 3 1 2) base []).src 2 = 0
      ∧ Nat.gcd ((started (.modinv 3 1 2) (regs base [(2, 7)]) []).src 1) 7 ≠ 1
      ∧ (started (.modinv 3 1 2) (regs base [(1, 5), (2, 1)]) []).src 2 ≠ 0
      ∧ Nat.gcd ((started (.modinv 3 1 2) (regs base [(1, 5), (2, 1)]) []).src 1) 1 = 1 := by decide

theorem witness_CoprimegenFollowsTheCoprimeLoop :
    (started (.coprimegen 2 1) base []).atStart = true
      ∧ (started (.coprimegen 2 1) base []).argument = 0
      ∧ (started (.coprimegen 2 1) (arg 4 base) []).src 1 = 0
      ∧ (started (.coprimegen 2 1) (arg 1 (regs base [(1, 1)])) []).argument = 1
      ∧ (started (.coprimegen 2 1) (arg 1 (regs base [(1, 1)])) []).src 1 ≠ 0 := by decide

/-- ARG = 0 and W/2 + 1 refused, ARG = 1 and W/2 accepted. -/
theorem witness_KeygenFollowsItsLoops :
    (started .keygen base []).atStart = true ∧ (started .keygen base []).snap.kv = false
      ∧ (started .keygen keyed []).atStart = true ∧ (started .keygen keyed []).snap.kv = true
      ∧ (started .keygen base []).argument = 0
      ∧ (started .keygen base []).width / 2 < (started .keygen (arg 17 base) []).argument
      ∧ 1 ≤ (started .keygen (arg 1 base) []).argument
      ∧ (started .keygen (arg 16 base) []).argument ≤ (started .keygen base []).width / 2 := by
  decide

/-- The refusals in order, then the least legal primes. -/
theorem witness_KeyderiveFollowsDerive :
    (started (.keyderive 1 2) base []).atStart = true
      ∧ (started (.keyderive 1 2) keyed []).snap.kv = true
      ∧ (started (.keyderive 1 2) base []).snap.kv = false
      ∧ (started (.keyderive 1 2) base []).argument = 0
      ∧ (started (.keyderive 1 2) (arg 1 (regs base [(1, 1), (2, 3)])) []).src 1 < 2
      ∧ 2 ^ 32 ≤ (started (.keyderive 1 2) (arg 1 (regs base [(1, 65537), (2, 65539)])) []).src 1
          * (started (.keyderive 1 2) (arg 1 (regs base [(1, 65537), (2, 65539)])) []).src 2
      ∧ (started (.keyderive 1 2) (arg 1 (regs base [(1, 2), (2, 3)])) []).src 1 = 2
      ∧ (started (.keyderive 1 2) (arg 1 (regs base [(1, 2), (2, 3)])) []).src 2 = 3 := by decide

/-- Primes 2 and 3, φ = 2: e = 0 and e = 2 out of range, e = 1 accepted; e = 2 with 61 and 53 has no
inverse. -/
theorem witness_KeyderiveeDerivesTheKeypair :
    (started (.keyderivee 1 2 3) base []).snap.kv = false
      ∧ (started (.keyderivee 1 2 3) keyed []).snap.kv = true
      ∧ (started (.keyderivee 1 2 3) base []).src 1 < 2
      ∧ (2 ^ 32 : Nat) ≤ 65537 * 65539 ∧ 2 * 3 < 2 ^ 32 ∧ (2 - 1) * (3 - 1) ≤ 2
      ∧ Nat.gcd 2 ((61 - 1) * (53 - 1)) ≠ 1 ∧ 2 < (61 - 1) * (53 - 1)
      ∧ (started (.keyderivee 1 2 3) (regs base [(1, 2), (2, 3), (3, 1)]) []).src 3 = 1
      ∧ 1 < (2 - 1) * (3 - 1) ∧ Nat.gcd 1 ((2 - 1) * (3 - 1)) = 1 := by decide

/-- No keypair; m = KN with CHK; m = KN without CHK; m = KN − 1. -/
theorem witness_EncAndDecAreModularPowers :
    (started (.enc 2 1) base []).snap.kv = false
      ∧ (started (.enc 2 1) (regs keyed [(1, 3233)]) []).snap.chk = true
      ∧ (started (.enc 2 1) (regs keyed [(1, 3233)]) []).snap.key.kn
        ≤ (started (.enc 2 1) (regs keyed [(1, 3233)]) []).src 1
      ∧ (started (.dec 2 1) { regs keyed [(1, 3233)] with chk := false } []).snap.chk = false
      ∧ (started (.dec 2 1) (regs keyed [(1, 3232)]) []).src 1
        < (started (.dec 2 1) (regs keyed [(1, 3232)]) []).snap.key.kn := by decide

theorem witness_DecInvertsEnc :
    keyed.KeyLaws ∧ keyed.kv = true ∧ Nat.Prime keyed.key.kp ∧ Nat.Prime keyed.key.kq
      ∧ (regs keyed [(1, 3232)]).readX 1 < keyed.key.kn
      ∧ ∃ t u, (idle (regs keyed [(1, 3232)])).RunsTo (.enc 2 1) t
        ∧ State.RunsTo t (.dec 3 2) u := by
  refine ⟨by decide, rfl, ?_, ?_, by decide, _, _, rfl, rfl⟩
  · show Nat.Prime 61; norm_num
  · show Nat.Prime 53; norm_num

theorem witness_I2bWritesTheMinimalEncoding :
    (started (.i2b 1) (regs base [(1, 2 ^ 32 - 1)]) []).src 1 < 2 ^ 32
      ∧ 1 ≤ (started (.i2b 1) base []).params.words
      ∧ (started (.i2b 1) base []).bank.mbuf.wf = true := by decide

theorem witness_B2iInvertsI2b :
    (idle (regs base [(1, 2790)])).Inv ∧ (idle (regs base [(1, 2790)])).phase = .idle
      ∧ ∃ t u, (idle (regs base [(1, 2790)])).RunsTo (.i2b 1) t
        ∧ State.RunsTo t (.b2i 2) u :=
  ⟨by decide, rfl, _, _, rfl, rfl⟩

/-- One state for each clause, at the least ARG. -/
theorem witness_SamplingCommandsCompleteOnAcceptedAnswers :
    (started (.mrtest 2 1) (arg 1 (regs base [(1, 2)])) []).src 1 = 2
      ∧ (started (.rand 2) (arg 1 base) [.value 0]).argument = 1
      ∧ (started (.primegen 2) (arg 2 base) [.value 3]).entropy = [.value 3]
      ∧ (started (.coprimegen 2 1) (arg 1 (regs base [(1, 1)])) [.value 0]).src 1 = 1
      ∧ (started (.coprimegen 2 1) (arg 1 (regs base [(1, 2)])) [.value 1]).src 1 = 2
      ∧ (started (.keyderive 1 2) (arg 1 (regs base [(1, 2), (2, 3)])) [.value 1]).src 2 = 3
      ∧ (started .keygen (arg 2 base) [.value 2, .value 3, .value 1]).argument = 2
      ∧ (started .keygen (arg 2 base) [.value 2, .value 3, .value 1]).snap.kv = false
      ∧ (started .keygen (arg 2 base) [.value 2, .value 3, .value 1]).snap.efail = false
      ∧ (started .keygen (arg 2 base) [.value 2, .value 3, .value 1]).atStart = true := by decide

theorem witness_KeypairChangesOnlyByKeyclrOrReset :
    (started .keygen (arg 2 keyed) []).Inv ∧ (started .keygen (arg 2 keyed) []).bank.kv = true
      ∧ (stepped (started .keygen (arg 2 keyed) [])).map (fun t => t.err) = some .keyLocked
      ∧ (started .keygen (arg 2 keyed) []).resetComing = false
      ∧ (started .keygen (arg 2 keyed) []).softResetComing = false
      ∧ (started .keygen (arg 2 keyed) []).fetch ≠ some (encode .keyclr) := by decide

theorem witness_EntropyFailureIsSticky :
    (started (.rand 3) (broken (arg 8 base)) [.value 1]).snap.efail = true
      ∧ (stepped (writing 0x0008 0x80000000 (idle (broken base)))).map (fun t => t.bank.efail)
        = some true
      ∧ (writing 0x0008 0x80000000 (idle (broken base))).resetComing = false := by decide

theorem witness_FlagsChangeOnlyByTheirCommands :
    (started (.rand 3) (arg 8 { mont with bar := ⟨1, 1, 4⟩, bv := true }) [.value 1]).Inv
      ∧ (started (.rand 3) (arg 8 mont) [.value 1]).resetComing = false
      ∧ (started (.rand 3) (arg 8 mont) [.value 1]).softResetComing = false
      ∧ (∀ rd rs1 : Reg, (started (.rand 3) (arg 8 mont) [.value 1]).fetch
          ≠ some (encode (.mrtest rd rs1)))
      ∧ (∀ rd rs1 rs2 : Reg, (started (.rand 3) (arg 8 mont) [.value 1]).fetch
          ≠ some (encode (.coprime rd rs1 rs2))) := by
  have h : ∀ w, (started (.rand 3) (arg 8 mont) [.value 1]).fetch = some w →
      opcodeField w = 0x01 := by
    intro w hw; cases hw; decide
  refine ⟨by decide, by decide, by decide, fun rd rs1 hf => ?_, fun rd rs1 rs2 hf => ?_⟩
  · exact absurd ((opcodeField_packFields _ _ _ _ _).symm.trans (h _ hf)) (by decide)
  · exact absurd ((opcodeField_packFields _ _ _ _ _).symm.trans (h _ hf)) (by decide)

/-- Two states that differ in the secret registers only. -/
theorem witness_SecretKeyRegistersDoNotLeak :
    (reading 0x5000 (idle keyed)).masked
        = (reading 0x5000 (idle { keyed with key := { keyed.key with kp := 53, kq := 61 } })).masked
      ∧ idle keyed ≠ idle { keyed with key := { keyed.key with kp := 53, kq := 61 } }
      ∧ (stepped (reading 0x5000 (idle keyed))).isSome = true := by decide

theorem witness_HostCannotDisturbARunningCommand :
    (writing 0x0010 0 (started .nop base [])).busy = true
      ∧ (writing 0x0010 0 (started .nop base [])).softResetComing = false
      ∧ (stepped (writing 0x0010 0 (started .nop base []))).isSome = true := by decide

theorem witness_BadAccessesAndReadsChangeNothing :
    (next (.host (.read 0x1401 4)) State.reset).schedule = [.host (.read 0x1401 4)]
      ∧ (0x1401 : BitVec 15).toNat % 4 ≠ 0 ∧ (2 : Nat) ≠ 4
      ∧ (next (.host (.write 0x1400 2 5)) State.reset).schedule = [.host (.write 0x1400 2 5)] := by
  decide

/-- Offsets at the ends of each range, W = 32. -/
theorem witness_UnmappedAndReadOnlyWordsIgnoreWrites :
    State.reset.params.Legal ∧ 0x24 ≤ (0x0024 : BitVec 15).toNat ∧ (0x0FFC : BitVec 15).toNat < 0x1000
      ∧ (0x1004 : BitVec 15).toNat = 0x1000 + 0x400 * 0 + 4 * 1 ∧ State.reset.params.words ≤ 1
      ∧ (0x6C08 : BitVec 15).toNat = 0x1000 + 0x400 * 23 + 4 * 2
      ∧ State.reset.params.words + 1 ≤ 2
      ∧ (0x73FC : BitVec 15).toNat = 0x1000 + 0x400 * 24 + 4 * 255
      ∧ 0x7400 ≤ (0x7400 : BitVec 15).toNat ∧ 0x7400 ≤ (0x7FFC : BitVec 15).toNat
      ∧ (0x0004 : BitVec 15).toNat < 8 ∧ (0x0020 : BitVec 15).toNat = 0x20
      ∧ 0x5000 ≤ (0x5000 : BitVec 15).toNat ∧ (0x6FFC : BitVec 15).toNat < 0x7000 := by decide

/-- The first word of KN and the extra word of BCTX_MU, which holds 2 for the modulus 2^31 (41 R127). -/
theorem witness_ReadOnlyWordsReadTheirRegisters :
    (0x5000 : BitVec 15).toNat = 0x5000 + 4 * 0 ∧ 0 < State.reset.params.words
      ∧ (0x6C04 : BitVec 15).toNat = 0x6C00 + 4 * 1 ∧ State.reset.params.words = 1
      ∧ busData (reading 0x6C04 (idle { base with bar := ⟨2 ^ 31, 32, 2 ^ 33⟩, bv := true })) = some 2
      ∧ State.reset.params.Legal := by decide

theorem witness_OperandWordIsStoredAndRead :
    (writing (xOffset 15 0) 7 State.reset).schedule = [.host (.write 0x4C00 4 7)]
      ∧ (writing (xOffset 15 0) 7 State.reset).phase = .idle ∧ State.reset.params.Legal
      ∧ 0 < State.reset.params.words ∧ State.reset.bank.readX 15 < 2 ^ State.reset.width := by decide

theorem witness_MessageWordIsFourBytesLittleEndian :
    (0x7000 : BitVec 15).toNat = 0x7000 + 4 * 0 ∧ 0 < State.reset.params.words
      ∧ State.reset.params.Legal ∧ State.reset.bank.mbuf.wf = true
      ∧ (writing 0x7000 0x78563412 State.reset).phase = .idle := by decide

theorem witness_ScalarRegistersAreStoredAndRead :
    (writing 0x0014 1 State.reset).phase = .idle
      ∧ (writing 0x0018 0 State.reset).schedule = [.host (.write 0x0018 4 0)]
      ∧ (writing 0x001C 0xFFFF0004 State.reset).schedule = [.host (.write 0x001C 4 0xFFFF0004)]
      ∧ (reading 0x001C State.reset).schedule = [.host (.read 0x001C 4)] := by decide

theorem witness_OperandWritesWhileBusyAreDropped :
    (writing (xOffset 0 0) 7 (started .nop base [])).busy = true
      ∧ (started .nop base []).params.Legal ∧ 0 < (started .nop base []).params.words
      ∧ (0x7000 : BitVec 15).toNat = 0x7000 + 4 * 0 := by decide

theorem witness_CtrlWriteStoresEnableAndCheck :
    (0x00000001 : Word).getLsbD 31 = false
      ∧ (writing 0x0008 1 (started .nop base [])).busy = true
      ∧ (writing 0x0008 1 State.reset).busy = false := by decide

theorem witness_HardResetRestoresEveryRegister :
    (next .hardReset (started .nop (broken keyed) [])).schedule = [.hardReset]
      ∧ (started .nop (broken keyed) []).params.Legal
      ∧ (next (.lateAnswer .fail) (waitingAt (.rand 3) (arg 8 base) (.rand 3 8))).schedule
        = [.lateAnswer .fail]
      ∧ (next (.answer (.value 1)) State.reset).waiting = false := by decide

theorem witness_SoftResetKeepsOnlyEntropyFailure :
    (0x80000000 : Word).getLsbD 31 = true
      ∧ (writing 0x0008 0x80000000 (started .nop (broken keyed) [])).schedule
        = [.host (.write 0x0008 4 0x80000000)] := by decide

theorem witness_ResetMeetsTheInvariant : (⟨1, 0⟩ : Params).Legal ∧ (⟨128, 0⟩ : Params).Legal := by
  decide

/-- States that meet the invariant, each with a step that commits what the law is about: MONTSETUP
after a message write, a KEYDERIVE that resumes, and a candidate loop that goes on waiting. -/
theorem witness_EveryStepKeepsWidthsAndMemory :
    (started (.i2b 1) (regs base [(1, 2 ^ 32 - 1)]) []).Inv
      ∧ (stepped (started (.i2b 1) (regs base [(1, 2 ^ 32 - 1)]) [])).map (fun t => t.bank.mlen)
        = some 4 := by decide

theorem witness_EveryStepKeepsTheKeypairLaws :
    (next (.answer (.value 17))
        (waitingAt (.keyderive 1 2) (arg 12 (regs base [(1, 61), (2, 53)]))
          (.coprime (.derive 61 53) 3120 12 1))).Inv
      ∧ (stepped (next (.answer (.value 17))
        (waitingAt (.keyderive 1 2) (arg 12 (regs base [(1, 61), (2, 53)]))
          (.coprime (.derive 61 53) 3120 12 1)))).map (fun t => t.bank.kv) = some true := by decide

theorem witness_EveryStepKeepsTheContextLaws :
    (started (.montsetup 1) (regs bar [(1, 3233)]) []).Inv
      ∧ (stepped (started (.montsetup 1) (regs bar [(1, 3233)]) [])).map (fun t => t.bank.mv)
        = some true := by decide

/-- The last draw below the cap. -/
theorem witness_EveryStepKeepsTheControlLaws :
    (next (.answer (.value 1))
        (waitingAt (.primegen 1) (cap 3 (arg 4 base)) (.candidate (.primegen 1) 4 1))).Inv
      ∧ (stepped (next (.answer (.value 1))
        (waitingAt (.primegen 1) (cap 3 (arg 4 base)) (.candidate (.primegen 1) 4 1)))).map
          State.request = some (some 4) := by decide

/-- With CAP = 1 and exactly as many answers at hand as the bound: RAND, MRTEST with one round,
PRIMEGEN, COPRIMEGEN, KEYGEN, KEYDERIVE, and GCD, which draws none. -/
theorem witness_CommandsTerminateWithinTheirDrawBounds :
    ∀ q ∈ ([(.rand 3, 1), (.mrtest 2 1, 1), (.primegen 1, 11), (.coprimegen 2 1, 1),
        (.keygen, 23), (.keyderive 1 2, 1), (.gcd 3 1 2, 0)] : List (Instr × Nat)),
      (started q.1 (cap 1 (arg 1 base)) (List.replicate q.2 (.value 1))).atStart = true
        ∧ 0 < (started q.1 (cap 1 (arg 1 base)) (List.replicate q.2 (.value 1))).cap
        ∧ drawBound q.1 (started q.1 (cap 1 (arg 1 base)) (List.replicate q.2 (.value 1)))
          = (started q.1 (cap 1 (arg 1 base)) (List.replicate q.2 (.value 1))).entropy.length := by
  decide

theorem witness_UncappedSearchForOneBitPrimesNeverEnds :
    (started (.primegen 1) (cap 0 (arg 1 base)) [.value 0, .value 1]).atStart = true
      ∧ (started (.primegen 1) (cap 0 (arg 1 base)) [.value 0, .value 1]).cap = 0
      ∧ (started (.primegen 1) (cap 0 (arg 1 base)) [.value 0, .value 1]).argument = 1
      ∧ 2 ≤ (started (.primegen 1) (cap 0 (arg 1 base)) []).width
      ∧ (∀ a ∈ (started (.primegen 1) (cap 0 (arg 1 base)) [.value 0, .value 1]).entropy, a ≠ .fail)
      ∧ (started .keygen (cap 0 (arg 1 base)) [.value 0]).snap.kv = false
      ∧ (started .keygen (cap 0 (arg 1 base)) [.value 0]).snap.efail = false := by decide

/-- PRIMEGEN whose first candidate is rejected, with no second answer yet. -/
theorem witness_ResumingEqualsRunningAtOnce :
    (started (.primegen 1) (arg 2 base) [.value 1]).atStart = true
      ∧ (run (.primegen 1) (arg 2 base) [.value 1]).map State.waiting = some true := by decide

end Sys2Proof.Tests
end

section
/-! PROOFS. Every step keeps every register within its width and MBUF in canonical form within its
W/8 bytes (00_scope R10, 10_state R22, R30 to R33). A step changes the bank by a host write, by a
reset, or by a command's scheduled writes, so it is enough that each of these fits. The sampling
commands add the values their wait points hold: `WaitPoint.inRange` is kept from draw to draw. -/

namespace Sys2Proof

/-! ## The parameters (00_scope R9) -/

theorem Params.Legal.width_pos {p : Params} (h : p.Legal) : 1 ≤ p.width := by
  obtain ⟨hlo, -⟩ := h
  rw [Params.width]
  omega

theorem Params.width_eq_bytes (p : Params) : p.width = 8 * p.bytes := by
  rw [Params.width, Params.bytes]
  omega

end Sys2Proof

namespace Sys2Proof.Machine

/-! ## The parts of the invariant, by name -/

section
variable {s : State}

theorem State.Inv.legal (h : s.Inv) : s.params.Legal := h.1

theorem State.Inv.fits (h : s.Inv) : s.bank.Fits s.params := h.2.1

theorem State.Inv.keyLaws (h : s.Inv) : s.bank.KeyLaws := h.2.2.1

theorem State.Inv.contextLaws (h : s.Inv) : s.bank.ContextLaws s.params := h.2.2.2.1

theorem State.Inv.controlSound (h : s.Inv) : s.controlSound = true := h.2.2.2.2

/-- While BUSY the snapshot is the live bank, and the wait point, if any, is sound. -/
theorem State.Inv.busy {b : Bank} {point : Option WaitPoint} (h : s.Inv)
    (hp : s.phase = .busy b point) :
    b = s.bank ∧ ∀ q, point = some q → q.sound s.params s.bank = true := by
  have hc := h.controlSound
  simp only [State.controlSound, hp, Bool.and_eq_true, decide_eq_true_eq] at hc
  obtain ⟨⟨⟨hb, -⟩, -⟩, hq⟩ := hc
  refine ⟨hb, ?_⟩
  rintro q rfl
  exact hq

theorem State.Inv.snap_eq (h : s.Inv) : s.snap = s.bank := by
  cases hp : s.phase with
  | idle => exact State.snap_of_idle hp
  | busy b point => rw [State.snap_of_busy hp, (h.busy hp).1]

theorem State.Inv.src_lt (h : s.Inv) (r : Reg) : s.src r < 2 ^ s.params.width := by
  obtain ⟨hx, -⟩ := h.fits
  rw [State.src, h.snap_eq]
  exact hx r

end

theorem WaitPoint.inRange_of_sound {p : Params} {b : Bank} {q : WaitPoint}
    (h : q.sound p b = true) : q.inRange p.width b.kv = true := by
  simp only [WaitPoint.sound, Bool.and_eq_true] at h
  obtain ⟨⟨⟨-, hr⟩, -⟩, -⟩ := h
  exact hr

/-! ## Bounds of the arithmetic -/

/-- Whatever bounds the coefficients of x and the sum |s1|·r0 + |s0|·r1, which no turn of the loop
raises, bounds the coefficient that is returned. -/
theorem egcdLoop_x_abs_le {M : Int} (fuel r0 r1 : Nat) (s0 s1 t0 t1 : Int) (h0 : |s0| ≤ M)
    (h1 : |s1| ≤ M) (hsum : |s1| * r0 + |s0| * r1 ≤ M) :
    |(egcdLoop fuel r0 r1 s0 s1 t0 t1).x| ≤ M := by
  induction fuel generalizing r0 r1 s0 s1 t0 t1 with
  | zero => exact h0
  | succ fuel ih =>
    unfold egcdLoop
    split
    · exact h0
    · next hr1 =>
      have hdiv : (r0 : Int) = r1 * (r0 / r1 : Nat) + (r0 % r1 : Nat) := by
        exact_mod_cast (Nat.div_add_mod r0 r1).symm
      simp only [Int.ofNat_eq_natCast]
      generalize r0 / r1 = q at hdiv ⊢
      generalize r0 % r1 = r at hdiv ⊢
      have hpos : (1 : Int) ≤ r1 := by omega
      have htri : |s0 - q * s1| ≤ |s0| + q * |s1| :=
        (abs_sub s0 (q * s1)).trans_eq (by rw [abs_mul, Nat.abs_cast])
      have hsum' : |s0 - q * s1| * r1 + |s1| * r ≤ M := by
        calc |s0 - q * s1| * r1 + |s1| * r
            ≤ (|s0| + q * |s1|) * r1 + |s1| * r := by gcongr
          _ = |s1| * r0 + |s0| * r1 := by rw [hdiv]; ring
          _ ≤ M := hsum
      have h2 : |s0 - q * s1| ≤ M := by
        have : |s0 - q * s1| * 1 ≤ |s0 - q * s1| * r1 := by gcongr
        have : 0 ≤ |s1| * (r : Int) := by positivity
        linarith
      exact ih _ _ _ _ _ _ h1 h2 hsum'

/-- The loop treats its two coefficients alike. -/
theorem egcdLoop_y (fuel r0 r1 : Nat) (s0 s1 t0 t1 : Int) :
    (egcdLoop fuel r0 r1 s0 s1 t0 t1).y = (egcdLoop fuel r0 r1 t0 t1 s0 s1).x := by
  induction fuel generalizing r0 r1 s0 s1 t0 t1 with
  | zero => rfl
  | succ fuel ih =>
    unfold egcdLoop
    split
    · rfl
    · exact ih _ _ _ _ _ _

theorem egcdRaw_x_le (a b : Nat) : (egcdRaw a b).x ≤ max 1 b :=
  (le_abs_self _).trans
    (egcdLoop_x_abs_le (b + 1) a b 1 0 0 1 (by simp) (by simp) (by simp))

theorem egcdRaw_y_le (a b : Nat) : (egcdRaw a b).y ≤ max 1 a := by
  rw [egcdRaw, egcdLoop_y]
  exact (le_abs_self _).trans
    (egcdLoop_x_abs_le (b + 1) a b 0 1 1 0 (by simp) (by simp) (by simp))

theorem addWhenNegative_toNat_le {z : Int} {n : Nat} (h : z ≤ max 1 n) :
    (addWhenNegative z n).toNat ≤ max 1 n := by
  unfold addWhenNegative
  rw [Int.ofNat_eq_natCast]
  split <;> omega

/-- R177: the normalized coefficient of a is at most b, or 1 where b = 0. -/
theorem egcdNorm_x_toNat_le (a b : Nat) : (egcdNorm a b).x.toNat ≤ max 1 b :=
  addWhenNegative_toNat_le (egcdRaw_x_le a b)

/-- R177: the normalized coefficient of b is at most a, or 1 where a = 0. -/
theorem egcdNorm_y_toNat_le (a b : Nat) : (egcdNorm a b).y.toNat ≤ max 1 a :=
  addWhenNegative_toNat_le (egcdRaw_y_le a b)

theorem gcd_lt {a b k : Nat} (ha : a < k) (hb : b < k) : Nat.gcd a b < k := by
  obtain rfl | hpos := Nat.eq_zero_or_pos a
  · rwa [Nat.gcd_zero_left]
  · exact (Nat.gcd_le_left b hpos).trans_lt ha

theorem powMod_lt (b e : Nat) {n : Nat} (hn : 0 < n) : powMod b e n < n := by
  rw [powMod_eq]
  exact Nat.mod_lt _ hn

/-- R127: 2^(2K) / N has at most K + 2 bits. -/
theorem barrettFactor_lt {n width : Nat} (hn : n ≠ 0) (h : n < 2 ^ width) :
    2 ^ (2 * bitlen n) / n < 2 ^ (width + 2) := by
  have hk : 1 ≤ bitlen n := by simp [bitlen, hn]
  have hw := bitlen_le_of_lt_two_pow h
  rw [Nat.div_lt_iff_lt_mul (Nat.pos_of_ne_zero hn)]
  calc 2 ^ (2 * bitlen n) = 2 ^ (bitlen n + 1) * 2 ^ (bitlen n - 1) := by
        rw [← pow_add]; congr 1; omega
    _ ≤ 2 ^ (bitlen n + 1) * n := Nat.mul_le_mul_left _ (two_pow_bitlen_le hn)
    _ < 2 ^ (width + 2) * n :=
        Nat.mul_lt_mul_of_pos_right (Nat.pow_lt_pow_right (by decide) (by omega))
          (Nat.pos_of_ne_zero hn)

/-- A message of at most W/8 bytes is below 2^W. -/
theorem bytesToInt_lt_of_length_le {bs : List Byte} {p : Params} (h : bs.length ≤ p.bytes) :
    bytesToInt bs < 2 ^ p.width :=
  calc bytesToInt bs < 256 ^ bs.length := bytesToInt_lt bs
    _ ≤ 256 ^ p.bytes := Nat.pow_le_pow_right (by decide) h
    _ = 2 ^ p.width := by rw [p.width_eq_bytes, pow_mul]; rfl

/-- The minimal encoding of a W-bit value fits MBUF. -/
theorem intLength_le {v : Nat} {p : Params} (hp : p.Legal) (h : v < 2 ^ p.width) :
    intLength v ≤ p.bytes := by
  obtain ⟨hlo, -⟩ := hp
  have hbits := bitlen_le_of_lt_two_pow h
  rw [p.width_eq_bytes] at hbits
  have hb : 4 ≤ p.bytes := by rw [Params.bytes]; omega
  rw [intLength]
  omega

/-! ## What a command may write -/

/-- Key registers within W bits (10_state R31). -/
def KeyRegs.Fits (width : Nat) (k : KeyRegs) : Prop :=
  k.kn < 2 ^ width ∧ k.ke < 2 ^ width ∧ k.kd < 2 ^ width
    ∧ k.kp < 2 ^ width ∧ k.kq < 2 ^ width ∧ k.kphi < 2 ^ width

/-- A Montgomery context within W bits (10_state R32). -/
def MontCtx.Fits (width : Nat) (c : MontCtx) : Prop :=
  c.n < 2 ^ width ∧ c.np < 2 ^ width ∧ c.r2 < 2 ^ width

/-- A Barrett context within its widths (10_state R33). -/
def BarCtx.Fits (width : Nat) (c : BarCtx) : Prop :=
  c.n < 2 ^ width ∧ c.k ≤ width ∧ c.mu < 2 ^ (width + 2)

/-- A scheduled write whose value fits its register, or whose bytes fit MBUF. -/
@[simp] def Write.Fits (p : Params) : Write → Prop
  | .x _ v => v < 2 ^ p.width
  | .res _ => True
  | .key k _ => k.Fits p.width
  | .mont c => c.Fits p.width
  | .bar c => c.Fits p.width
  | .mbuf bytes => bytes.length ≤ p.bytes
  | .mlen n => n ≤ p.bytes

/-- A result all of whose writes fit. -/
@[simp] def Result.Fits (p : Params) : Result → Prop
  | .ok ws => ∀ w ∈ ws, w.Fits p
  | .raise _ => True

theorem Result.fits_of_write {p : Params} {w : Write} (h : w.Fits p) : (Result.ok [w]).Fits p :=
  List.forall_mem_singleton.2 h

theorem keyRegs_zero_fits (width : Nat) : (⟨0, 0, 0, 0, 0, 0⟩ : KeyRegs).Fits width := by
  simp [KeyRegs.Fits]

/-- R202, R204: the key of two primes whose product fits and of an exponent below φ fits. -/
theorem keyOf_fits {width p q e : Nat} (hw : 1 ≤ width) (hpq : p * q < 2 ^ width) (hp : 1 ≤ p)
    (hq : 1 ≤ q) (he : e < (p - 1) * (q - 1)) : (keyOf p q e).Fits width := by
  have hphi : (p - 1) * (q - 1) ≤ p * q := Nat.mul_le_mul (Nat.sub_le p 1) (Nat.sub_le q 1)
  have hple : p ≤ p * q := Nat.le_mul_of_pos_right p hq
  have hqle : q ≤ p * q := Nat.le_mul_of_pos_left q hp
  have hd := egcdNorm_x_toNat_le e ((p - 1) * (q - 1))
  have htwo : 1 < 2 ^ width := Nat.one_lt_two_pow (by omega)
  refine ⟨hpq, ?_, ?_, ?_, ?_, ?_⟩ <;> simp only [keyOf] <;> omega

/-- R121: the context of a W-bit modulus fits. -/
theorem montCtxOf_fits {width n : Nat} (hn : n ≠ 0) (h : n < 2 ^ width) :
    (montCtxOf width n).Fits width :=
  ⟨h, Nat.mod_lt _ (Nat.two_pow_pos width), (Nat.mod_lt _ (Nat.pos_of_ne_zero hn)).trans h⟩

/-- R127: the context of a W-bit modulus fits. -/
theorem barCtxOf_fits {width n : Nat} (hn : n ≠ 0) (h : n < 2 ^ width) :
    (barCtxOf n).Fits width :=
  ⟨h, bitlen_le_of_lt_two_pow h, barrettFactor_lt hn h⟩

theorem Bank.writeX_fits {p : Params} {b : Bank} {v : Nat} (r : Reg) (h : b.Fits p)
    (hv : v < 2 ^ p.width) : (b.writeX r v).Fits p := by
  obtain ⟨hx, hrest⟩ := h
  refine ⟨fun q => ?_, hrest⟩
  obtain rfl | hq := eq_or_ne q r
  · rwa [Bank.readX_writeX_same]
  · rw [Bank.readX_writeX_of_ne b v hq]
    exact hx q

/-- A store of bytes that ends within MBUF keeps the bank fitting. -/
theorem Bank.storeBytes_fits {p : Params} {b : Bank} {a : Nat} {bs : List Byte} (h : b.Fits p)
    (ha : a + bs.length ≤ p.bytes) : { b with mbuf := b.mbuf.writeAll a bs }.Fits p := by
  obtain ⟨hx, hkey, hmont, hbar, hlen, hwf, hbelow⟩ := h
  exact ⟨hx, hkey, hmont, hbar, hlen, Memory.wf_writeAll a bs hwf,
    Memory.below_writeAll bs hbelow ha⟩

theorem Bank.setMlen_fits {p : Params} {b : Bank} {n : Nat} (h : b.Fits p) (hn : n ≤ p.bytes) :
    { b with mlen := n }.Fits p := by
  obtain ⟨hx, hkey, hmont, hbar, -, hmem⟩ := h
  exact ⟨hx, hkey, hmont, hbar, hn, hmem⟩

/-- R38: the reset bank fits. -/
theorem Bank.reset_fits (p : Params) (efail : Bool) : (Bank.reset p efail).Fits p := by
  simp [Bank.Fits, Bank.reset, Bank.readX, Memory.below]

theorem State.applyWrite_fits {p : Params} {s : State} {w : Write} (h : s.bank.Fits p)
    (hw : w.Fits p) : (s.applyWrite w).bank.Fits p := by
  have ⟨hx, hkey, hmont, hbar, hmem⟩ := h
  cases w with
  | x r v => exact Bank.writeX_fits r h hw
  | res v => exact h
  | key k kv => exact ⟨hx, hw, hmont, hbar, hmem⟩
  | mont c => exact ⟨hx, hkey, hw, hbar, hmem⟩
  | bar c => exact ⟨hx, hkey, hmont, hw, hmem⟩
  | mbuf bs => exact Bank.storeBytes_fits h (by simpa using hw)
  | mlen n => exact Bank.setMlen_fits h hw

theorem State.applyWrites_fits {p : Params} {s : State} {ws : List Write} (h : s.bank.Fits p)
    (hws : ∀ w ∈ ws, w.Fits p) : (ws.foldl State.applyWrite s).bank.Fits p := by
  induction ws generalizing s with
  | nil => exact h
  | cons w ws ih =>
    rw [List.forall_mem_cons] at hws
    exact ih (State.applyWrite_fits h hws.1) hws.2

/-- A completion whose writes fit keeps the bank fitting. -/
theorem State.complete_fits {p : Params} {s : State} {r : Result} (h : s.bank.Fits p)
    (hr : r.Fits p) : (s.complete r).bank.Fits p := by
  cases r with
  | ok ws => exact State.applyWrites_fits h hr
  | raise e => exact h

/-! ## Sampling: the values a command holds between draws -/

/-- The results a sampling command can end with, and what it knows of their values. -/
inductive Result.Sampled (width : Nat) (kv : Bool) : Result → Prop
  /-- an error -/
  | raised (e : ErrCode) : Sampled width kv (.raise e)
  /-- a number drawn: RAND, PRIMEGEN, COPRIMEGEN -/
  | number (rd : Reg) {v : Nat} (hv : v < 2 ^ width) : Sampled width kv (.ok [.x rd v])
  /-- MRTEST's verdict -/
  | verdict (rd : Reg) (v : Bool) :
      Sampled width kv (.ok [.x rd (if v then 1 else 0), .res v])
  /-- a keypair derived by Derive while there was none (44 R202) -/
  | keypair {p q e : Nat} (hp : 2 ≤ p) (hq : 2 ≤ q) (hne : p ≠ q) (hpq : p * q < 2 ^ width)
      (he : e < (p - 1) * (q - 1)) (hgcd : Nat.gcd ((p - 1) * (q - 1)) e = 1)
      (hkv : kv = false) : Sampled width kv (.ok [.key (keyOf p q e) true])

/-- What a sampling command has come to: a wait point in range, or one of its results. -/
def Advance.InRange (width : Nat) (kv : Bool) : Advance → Prop
  | .done r => r.Sampled width kv
  | .wait q => q.inRange width kv = true

/-- What the engine's run over the answers has come to. -/
def DriveEnd.InRange (width : Nat) (kv : Bool) : DriveEnd → Prop
  | .ended r _ => r.Sampled width kv
  | .failed _ => True
  | .starved q => q.inRange width kv = true

/-- What is known of a number under test: a search's candidate has the width of its draw, and loop
Q never tests p (44 R201). -/
def MrUse.Tests (width : Nat) (kv : Bool) (num : Nat) : MrUse → Prop
  | .mrtest _ => True
  | .search s nb _ => s.inRange width kv nb = true ∧ num < 2 ^ nb ∧ s ≠ .keygenQ num

/-- What is known of the modulus m of a coprime loop: COPRIMEGEN's operand, or φ of Derive's
primes (43 R182, 44 R202). -/
def CoprimeUse.Searches (width : Nat) (kv : Bool) (m : Nat) : CoprimeUse → Prop
  | .coprimegen _ => 1 ≤ m ∧ m < 2 ^ width
  | .derive p q =>
    (2 ≤ p ∧ 2 ≤ q ∧ p ≠ q ∧ p * q < 2 ^ width ∧ m = (p - 1) * (q - 1)) ∧ kv = false

theorem WaitPoint.inRange_witness_iff {width num rounds w c : Nat} {kv : Bool} {use : MrUse} :
    (WaitPoint.witness use num rounds w c).inRange width kv = true
      ↔ (4 ≤ num ∧ num < 2 ^ width ∧ 1 ≤ rounds ∧ 2 ≤ w ∧ w ≤ bitlen (num - 2))
        ∧ use.Tests width kv num := by
  cases use <;> simp [WaitPoint.inRange, MrUse.Tests, and_assoc]

theorem WaitPoint.inRange_coprime_iff {width m nb c : Nat} {kv : Bool} {use : CoprimeUse} :
    (WaitPoint.coprime use m nb c).inRange width kv = true
      ↔ (1 ≤ nb ∧ nb ≤ width) ∧ use.Searches width kv m := by
  cases use <;> simp [WaitPoint.inRange, CoprimeUse.Searches]

section
variable {width : Nat} {kv : Bool}

/-- Every search draws candidates of 1 to W bits. -/
theorem Search.width_legal {s : Search} {nb : Nat} (h : s.inRange width kv nb = true) :
    1 ≤ nb ∧ nb ≤ width := by
  cases s <;> simp only [Search.inRange, Bool.and_eq_true, decide_eq_true_eq] at h <;> omega

theorem beginDerive_inRange {p q eb : Nat} (hp : 2 ≤ p) (hq : 2 ≤ q) (hne : p ≠ q)
    (hpq : p * q < 2 ^ width) (heb : 1 ≤ eb ∧ eb ≤ width) (hkv : kv = false) :
    (beginDerive p q eb).InRange width kv :=
  WaitPoint.inRange_coprime_iff.2 ⟨heb, ⟨hp, hq, hne, hpq, rfl⟩, hkv⟩

/-- Two numbers of at most W/2 bits have a product of at most W bits (44 R201). -/
theorem mul_lt_of_half_width {p q nb : Nat} (hp : p < 2 ^ nb) (hq : q < 2 ^ nb)
    (hnb : nb ≤ width / 2) : p * q < 2 ^ width :=
  calc p * q < 2 ^ nb * 2 ^ nb := Nat.mul_lt_mul'' hp hq
    _ = 2 ^ (nb + nb) := (pow_add 2 nb nb).symm
    _ ≤ 2 ^ width := Nat.pow_le_pow_right (by decide) (by omega)

theorem primeFound_inRange {s : Search} {nb prime : Nat} (hs : s.inRange width kv nb = true)
    (hlo : 2 ≤ prime) (hhi : prime < 2 ^ nb) (hskip : s ≠ .keygenQ prime) :
    (primeFound s nb prime).InRange width kv := by
  have hnb := Search.width_legal hs
  cases s with
  | primegen rd =>
    exact .number rd (hhi.trans_le (Nat.pow_le_pow_right (by decide) hnb.2))
  | keygenP =>
    simp only [Search.inRange, Bool.and_eq_true, decide_eq_true_eq] at hs
    simp [primeFound, Advance.InRange, WaitPoint.inRange, Search.inRange, hs, hlo, hhi]
  | keygenQ p =>
    simp only [Search.inRange, Bool.and_eq_true, decide_eq_true_eq, Bool.not_eq_true'] at hs
    obtain ⟨⟨-, hhalf, hp, hp'⟩, hkv⟩ := hs
    have hne : p ≠ prime := fun h => hskip (h ▸ rfl)
    exact beginDerive_inRange hp hlo hne (mul_lt_of_half_width hp' hhi hhalf) hnb hkv

/-- A verdict in favour is only ever given on a number of at least 2. -/
theorem verdict_inRange {use : MrUse} {num : Nat} {v : Bool} (hu : use.Tests width kv num)
    (hv : v = true → 2 ≤ num) : (verdict use num v).InRange width kv := by
  cases use with
  | mrtest rd => exact .verdict rd v
  | search s nb c =>
    obtain ⟨hs, hhi, hskip⟩ := hu
    cases v with
    | false => exact hs
    | true => exact primeFound_inRange hs (hv rfl) hhi hskip

theorem beginWitness_inRange {use : MrUse} {num rounds : Nat} (hu : use.Tests width kv num)
    (hlo : 4 ≤ num) (hhi : num < 2 ^ width) (hr : 1 ≤ rounds) :
    (beginWitness use num rounds).InRange width kv := by
  have hbits : 2 ≤ bitlen (num - 2) := by
    by_contra hlt
    have hlt2 := lt_two_pow_bitlen (num - 2)
    have : 2 ^ bitlen (num - 2) ≤ 2 ^ 1 := Nat.pow_le_pow_right (by decide) (by omega)
    omega
  exact WaitPoint.inRange_witness_iff.2 ⟨⟨hlo, hhi, hr, hbits, le_rfl⟩, hu⟩

theorem beginMr_inRange {use : MrUse} {num k : Nat} (hu : use.Tests width kv num)
    (hhi : num < 2 ^ width) : (beginMr use num k).InRange width kv := by
  unfold beginMr
  split_ifs with h2 h3 hk
  · exact verdict_inRange hu (by simp)
  · exact verdict_inRange hu (fun _ => by omega)
  · exact verdict_inRange hu (fun _ => by omega)
  · exact beginWitness_inRange hu (by omega) hhi (by omega)

theorem candidateDrawn_inRange {s : Search} {nb cand : Nat} (c : Nat)
    (hs : s.inRange width kv nb = true) (hv : cand < 2 ^ nb) :
    (candidateDrawn s nb c cand).InRange width kv := by
  unfold candidateDrawn
  split
  · exact hs
  · next hskip =>
    exact beginMr_inRange ⟨hs, hv, hskip⟩
      (hv.trans_le (Nat.pow_le_pow_right (by decide) (Search.width_legal hs).2))

theorem witnessDrawn_inRange {use : MrUse} {num rounds w c : Nat} (c' v : Nat)
    (h : (WaitPoint.witness use num rounds w c).inRange width kv = true) :
    (witnessDrawn use num rounds w c' v).InRange width kv := by
  obtain ⟨⟨hlo, hhi, hr, hw, hw'⟩, hu⟩ := WaitPoint.inRange_witness_iff.1 h
  unfold witnessDrawn
  split_ifs with hv hpass hlast hbig
  · exact verdict_inRange hu (fun _ => by omega)
  · exact beginWitness_inRange hu hlo hhi (by omega)
  · exact verdict_inRange hu (by simp)
  · exact WaitPoint.inRange_witness_iff.2 ⟨⟨hlo, hhi, hr, by omega, by omega⟩, hu⟩
  · exact WaitPoint.inRange_witness_iff.2 ⟨⟨hlo, hhi, hr, hw, hw'⟩, hu⟩

theorem coprimeFound_inRange {use : CoprimeUse} {m e : Nat} (hu : use.Searches width kv m)
    (he : e < m) (hgcd : Nat.gcd m e = 1) : (coprimeFound use e).InRange width kv := by
  cases use with
  | coprimegen rd => exact .number rd (he.trans hu.2)
  | derive p q =>
    obtain ⟨⟨hp, hq, hne, hpq, rfl⟩, hkv⟩ := hu
    exact .keypair hp hq hne hpq he hgcd hkv

theorem coprimeDrawn_inRange {use : CoprimeUse} {m nb c : Nat} (c' v : Nat)
    (h : (WaitPoint.coprime use m nb c).inRange width kv = true) :
    (coprimeDrawn use m nb c' v).InRange width kv := by
  obtain ⟨hnb, hu⟩ := WaitPoint.inRange_coprime_iff.1 h
  unfold coprimeDrawn
  split
  · next hv => exact coprimeFound_inRange hu hv.1 hv.2
  · exact WaitPoint.inRange_coprime_iff.2 ⟨hnb, hu⟩

/-- A draw takes a wait point in range to one in range, or to a result of its command. -/
theorem WaitPoint.answered_inRange {p : WaitPoint} {v : Nat} (h : p.inRange width kv = true)
    (hv : v < 2 ^ p.width) : (p.answered v).InRange width kv := by
  cases p with
  | rand rd k =>
    simp only [WaitPoint.inRange, decide_eq_true_eq] at h
    exact .number rd (hv.trans_le (Nat.pow_le_pow_right (by decide) h.2))
  | candidate s nb c => exact candidateDrawn_inRange (c + 1) h hv
  | witness use num rounds w c => exact witnessDrawn_inRange (c + 1) v h
  | coprime use m nb c => exact coprimeDrawn_inRange (c + 1) v h

/-- The run over the answers at hand stays in range. -/
theorem drive_inRange {p : WaitPoint} (cap : Nat) (efail : Bool) (answers : List Answer)
    (h : p.inRange width kv = true) : (drive cap efail answers p).InRange width kv := by
  induction answers generalizing p with
  | nil =>
    cases hb : p.blocked cap efail with
    | some e => rw [drive_of_blocked [] hb]; exact .raised e
    | none => rw [drive_nil hb]; exact h
  | cons a rest ih =>
    cases hb : p.blocked cap efail with
    | some e => rw [drive_of_blocked (a :: rest) hb]; exact .raised e
    | none =>
      cases a with
      | fail => rw [drive_fail rest hb]; trivial
      | value v =>
        have hnext := WaitPoint.answered_inRange h (Nat.mod_lt v (Nat.two_pow_pos p.width))
        cases ha : p.answered (v % 2 ^ p.width) with
        | done r => rw [drive_value_done rest hb ha]; rwa [ha] at hnext
        | wait q => rw [drive_value_wait rest hb ha]; rw [ha] at hnext; exact ih hnext

end

/-- Every result of a sampling command fits. -/
theorem Result.Sampled.fits {p : Params} {kv : Bool} {r : Result} (hp : p.Legal)
    (h : r.Sampled p.width kv) : r.Fits p := by
  have hw := hp.width_pos
  cases h with
  | raised e => trivial
  | number rd hv => exact Result.fits_of_write hv
  | verdict rd v =>
    have hne : p.width ≠ 0 := by omega
    cases v <;> simp [hne]
  | keypair hp hq hne hpq he hgcd hkv =>
    exact Result.fits_of_write (keyOf_fits hw hpq (by omega) (by omega) he)

/-- A command that is in range where it stands leaves a bank that fits. -/
theorem State.advance_fits {s : State} {a : Advance} (h : s.Inv)
    (ha : a.InRange s.params.width s.bank.kv) : (s.advance a).bank.Fits s.params := by
  cases a with
  | done r => exact State.complete_fits h.fits (ha.fits h.legal)
  | wait p =>
    have hd := drive_inRange s.cap s.snap.efail s.entropy ha
    rw [State.advance]
    cases hdrive : drive s.cap s.snap.efail s.entropy p with
    | ended r rest =>
      rw [hdrive] at hd
      exact State.complete_fits (s := { s with entropy := rest }) h.fits
        (Result.Sampled.fits h.legal hd)
    | failed rest => exact h.fits
    | starved q => exact h.fits

theorem State.resume_inRange {s : State} {start : Advance} (h : s.Inv)
    (hstart : start.InRange s.params.width s.bank.kv) :
    (s.resume start).InRange s.params.width s.bank.kv := by
  unfold State.resume
  split
  · next b q hp => exact WaitPoint.inRange_of_sound ((h.busy hp).2 q rfl)
  · exact hstart

/-! ## Commands -/

/-- A meaning or a step with a next state, whose bank fits the same parameters. -/
def Out.Fits (p : Params) (o : Out) : Prop :=
  ∃ t, o = .next t ∧ t.params = p ∧ t.bank.Fits p

section
variable {s : State}

theorem State.finish_fits {r : Result} (h : s.Inv) (hr : r.Fits s.params) :
    Out.Fits s.params (s.finish r) :=
  ⟨s.complete r, rfl, s.complete_params r, State.complete_fits h.fits hr⟩

theorem State.sample_fits {start : Advance} (h : s.Inv)
    (hstart : start.InRange s.params.width s.bank.kv) : Out.Fits s.params (s.sample start) :=
  ⟨s.advance (s.resume start), rfl, s.advance_params _,
    State.advance_fits h (State.resume_inRange h hstart)⟩

/-- A command that writes one number below 2^W. -/
theorem State.finish_x_fits {v : Nat} (h : s.Inv) (rd : Reg) (hv : v < 2 ^ s.params.width) :
    Out.Fits s.params (s.finish (.ok [.x rd v])) :=
  State.finish_fits h (Result.fits_of_write hv)

end

/-! ## Non-sampling commands, where a bound needs an argument -/

section
variable {s : State}

/-- KN of a keypair is positive: it is the product of its primes (R39). -/
theorem State.Inv.kn_pos (h : s.Inv) (hkv : s.bank.kv = true) : 0 < s.bank.key.kn := by
  obtain ⟨hp, hq, -, hkn, -⟩ := h.keyLaws.1 hkv
  rw [hkn]
  exact Nat.mul_pos (by omega) (by omega)

/-- A residue modulo the Montgomery context's modulus, which is odd, fits (R39). -/
theorem State.Inv.mod_mont_lt (h : s.Inv) (hmv : s.bank.mv = true) (v : Nat) :
    v % s.bank.mont.n < 2 ^ s.params.width := by
  obtain ⟨hodd, -⟩ := h.contextLaws.1 hmv
  obtain ⟨-, -, ⟨hn, -⟩, -⟩ := h.fits
  exact (Nat.mod_lt v (by omega)).trans hn

/-- ENC and DEC (R223, R224). -/
theorem codecResult_fits (h : s.Inv) (rd : Reg) (message exponent : Nat) :
    (codecResult s rd message exponent).Fits s.params := by
  obtain ⟨-, ⟨hkn, -⟩, -⟩ := h.fits
  unfold codecResult
  rw [h.snap_eq]
  split_ifs with hkv
  · trivial
  · exact Result.fits_of_write ((powMod_lt message exponent (h.kn_pos hkv)).trans hkn)
  · trivial

/-- B2I (R226): MLEN is at most W/8. -/
theorem execB2i_fits (h : s.Inv) (rd : Reg) : Out.Fits s.params (execB2i rd s) := by
  obtain ⟨-, -, -, -, hlen, -⟩ := h.fits
  refine State.finish_x_fits h rd (bytesToInt_lt_of_length_le ?_)
  rw [h.snap_eq]
  simpa [Memory.bytes] using hlen

/-- I2B (R227): the encoding and its zero fill are exactly W/8 bytes. -/
theorem execI2b_fits (h : s.Inv) (rs1 : Reg) : Out.Fits s.params (execI2b rs1 s) := by
  have hlen := intLength_le h.legal (h.src_lt rs1)
  exact State.finish_fits h (by simp [hlen])

/-- MONTSETUP (R121). -/
theorem execMontsetup_fits (h : s.Inv) (rs1 : Reg) : Out.Fits s.params (execMontsetup rs1 s) := by
  refine State.finish_fits h ?_
  split
  · trivial
  · next hodd => exact Result.fits_of_write (montCtxOf_fits (by omega) (h.src_lt rs1))

/-- BARSETUP (R127). -/
theorem execBarsetup_fits (h : s.Inv) (rs1 : Reg) : Out.Fits s.params (execBarsetup rs1 s) := by
  refine State.finish_fits h ?_
  split
  · trivial
  · next hn => exact Result.fits_of_write (barCtxOf_fits hn (h.src_lt rs1))

/-- MONTMUL, MONTIN and MONTOUT (R122 to R124) write a residue modulo MCTX_N. -/
theorem finish_montResidue_fits (h : s.Inv) (rd : Reg) (v : Nat) :
    Out.Fits s.params (s.finish
      (if s.snap.mv then .ok [.x rd (v % s.snap.mont.n)] else .raise .noContext)) := by
  refine State.finish_fits h ?_
  rw [h.snap_eq]
  split
  · next hmv => exact Result.fits_of_write (h.mod_mont_lt hmv v)
  · trivial

/-- BARRED (R128): a remainder is at most the operand. -/
theorem execBarred_fits (h : s.Inv) (rd rs1 : Reg) : Out.Fits s.params (execBarred rd rs1 s) := by
  refine State.finish_fits h ?_
  split_ifs
  · trivial
  · exact Result.fits_of_write ((Nat.mod_le _ _).trans_lt (h.src_lt rs1))
  · trivial

/-- MODEXP (R130). -/
theorem execModexp_fits (h : s.Inv) (rd rs1 rs2 rs3 : Reg) :
    Out.Fits s.params (execModexp rd rs1 rs2 rs3 s) := by
  refine State.finish_fits h ?_
  split
  · trivial
  · next hn =>
    exact Result.fits_of_write ((powMod_lt _ _ (Nat.pos_of_ne_zero hn)).trans (h.src_lt rs3))

theorem State.Inv.max_one_src_lt (h : s.Inv) (r : Reg) :
    max 1 (s.src r) < 2 ^ s.params.width :=
  max_lt (Nat.one_lt_two_pow (by have := h.legal.width_pos; omega)) (h.src_lt r)

/-- R177: both normalized coefficients of two operands fit. -/
theorem State.Inv.egcdNorm_lt (h : s.Inv) (r q : Reg) :
    (egcdNorm (s.src r) (s.src q)).x.toNat < 2 ^ s.params.width
      ∧ (egcdNorm (s.src r) (s.src q)).y.toNat < 2 ^ s.params.width :=
  ⟨(egcdNorm_x_toNat_le _ _).trans_lt (h.max_one_src_lt q),
    (egcdNorm_y_toNat_le _ _).trans_lt (h.max_one_src_lt r)⟩

/-- COPRIME (R173). -/
theorem execCoprime_fits (h : s.Inv) (rd rs1 rs2 : Reg) :
    Out.Fits s.params (execCoprime rd rs1 rs2 s) :=
  State.finish_fits h (Result.Sampled.fits (kv := s.bank.kv) h.legal (.verdict rd _))

/-- EGCD (R179). -/
theorem execEgcd_fits (h : s.Inv) (rd rs1 rs2 : Reg) :
    Out.Fits s.params (execEgcd rd rs1 rs2 s) := by
  obtain ⟨hx, hy⟩ := h.egcdNorm_lt rs1 rs2
  have hg : (egcdNorm (s.src rs1) (s.src rs2)).g < 2 ^ s.params.width := by
    rw [egcdNorm_g]
    exact gcd_lt (h.src_lt rs1) (h.src_lt rs2)
  refine State.finish_fits h ?_
  split
  · trivial
  · exact List.forall_mem_cons.2 ⟨hg, List.forall_mem_cons.2 ⟨hx, Result.fits_of_write hy⟩⟩

/-- MODINV (R180). -/
theorem execModinv_fits (h : s.Inv) (rd rs1 rs2 : Reg) :
    Out.Fits s.params (execModinv rd rs1 rs2 s) := by
  refine State.finish_fits h ?_
  split_ifs
  · trivial
  · trivial
  · exact Result.fits_of_write (h.egcdNorm_lt rs1 rs2).1

/-- Primes that are not refused (R203, R204). -/
theorem badPrimes_eq_false_iff {p q : Nat} :
    badPrimes p q = false ↔ 2 ≤ p ∧ 2 ≤ q ∧ p ≠ q := by
  rw [badPrimes, decide_eq_false_iff_not]
  omega

/-- KEYDERIVEE (R204). -/
theorem execKeyderivee_fits (h : s.Inv) (rs1 rs2 rs3 : Reg) :
    Out.Fits s.params (execKeyderivee rs1 rs2 rs3 s) := by
  refine State.finish_fits h ?_
  split_ifs with hkv hbad hpq he hg
  · trivial
  · trivial
  · trivial
  · trivial
  · trivial
  · obtain ⟨hp, hq, -⟩ := badPrimes_eq_false_iff.1 (Bool.eq_false_iff.2 hbad)
    exact Result.fits_of_write
      (keyOf_fits h.legal.width_pos (not_le.1 hpq) (by omega) (by omega) (by omega))

/-! ## Sampling commands: the start is in range -/

/-- A width that is not refused is 1 to W (60 R243). -/
theorem State.badWidth_eq_false_iff {k : Nat} :
    s.badWidth k = false ↔ 1 ≤ k ∧ k ≤ s.params.width := by
  rw [State.badWidth, State.width, decide_eq_false_iff_not]
  omega

/-- RAND (R102). -/
theorem execRand_fits (h : s.Inv) (rd : Reg) : Out.Fits s.params (execRand rd s) := by
  refine State.sample_fits h ?_
  split
  · exact .raised _
  · next hw =>
    simpa [Advance.InRange, WaitPoint.inRange]
      using State.badWidth_eq_false_iff.1 (Bool.eq_false_iff.2 hw)

/-- MRTEST (R153). -/
theorem execMrtest_fits (h : s.Inv) (rd rs1 : Reg) : Out.Fits s.params (execMrtest rd rs1 s) := by
  refine State.sample_fits h ?_
  split
  · exact .raised _
  · exact beginMr_inRange trivial (h.src_lt rs1)

/-- PRIMEGEN (R154). -/
theorem execPrimegen_fits (h : s.Inv) (rd : Reg) : Out.Fits s.params (execPrimegen rd s) := by
  refine State.sample_fits h ?_
  split
  · exact .raised _
  · next hw =>
    simpa [Advance.InRange, WaitPoint.inRange, Search.inRange]
      using State.badWidth_eq_false_iff.1 (Bool.eq_false_iff.2 hw)

/-- COPRIMEGEN (R182). -/
theorem execCoprimegen_fits (h : s.Inv) (rd rs1 : Reg) :
    Out.Fits s.params (execCoprimegen rd rs1 s) := by
  refine State.sample_fits h ?_
  split_ifs with hw hm
  · exact .raised _
  · exact .raised _
  · exact WaitPoint.inRange_coprime_iff.2
      ⟨State.badWidth_eq_false_iff.1 (Bool.eq_false_iff.2 hw), Nat.one_le_iff_ne_zero.2 hm,
        h.src_lt rs1⟩

/-- KEYGEN (R201). -/
theorem execKeygen_fits (h : s.Inv) : Out.Fits s.params (execKeygen s) := by
  refine State.sample_fits h ?_
  rw [h.snap_eq]
  split_ifs with hkv hw
  · exact .raised _
  · exact .raised _
  · have hnb : 1 ≤ s.argument ∧ s.argument ≤ s.params.width / 2 := by
      rw [State.width] at hw
      omega
    simpa [Advance.InRange, WaitPoint.inRange, Search.inRange, hkv] using hnb

/-- KEYDERIVE (R203). -/
theorem execKeyderive_fits (h : s.Inv) (rs1 rs2 : Reg) :
    Out.Fits s.params (execKeyderive rs1 rs2 s) := by
  refine State.sample_fits h ?_
  rw [h.snap_eq]
  split_ifs with hkv hw hbad hpq
  · exact .raised _
  · exact .raised _
  · exact .raised _
  · exact .raised _
  · obtain ⟨hp, hq, hne⟩ := badPrimes_eq_false_iff.1 (Bool.eq_false_iff.2 hbad)
    exact beginDerive_inRange hp hq hne (not_le.1 hpq)
      (State.badWidth_eq_false_iff.1 (Bool.eq_false_iff.2 hw)) (Bool.eq_false_iff.2 hkv)

/-! ## Every command -/

theorem exec_fits (h : s.Inv) (i : Instr) : Out.Fits s.params (exec i s) := by
  cases i with
  | nop => exact State.finish_fits h (by simp)
  | rand rd => exact execRand_fits h rd
  | montsetup rs1 => exact execMontsetup_fits h rs1
  | montmul rd rs1 rs2 => exact finish_montResidue_fits h rd _
  | montin rd rs1 => exact finish_montResidue_fits h rd _
  | montout rd rs1 => exact finish_montResidue_fits h rd _
  | barsetup rs1 => exact execBarsetup_fits h rs1
  | barred rd rs1 => exact execBarred_fits h rd rs1
  | modexp rd rs1 rs2 rs3 => exact execModexp_fits h rd rs1 rs2 rs3
  | mrtest rd rs1 => exact execMrtest_fits h rd rs1
  | primegen rd => exact execPrimegen_fits h rd
  | gcd rd rs1 rs2 => exact State.finish_x_fits h rd (gcd_lt (h.src_lt rs1) (h.src_lt rs2))
  | coprime rd rs1 rs2 => exact execCoprime_fits h rd rs1 rs2
  | egcd rd rs1 rs2 => exact execEgcd_fits h rd rs1 rs2
  | modinv rd rs1 rs2 => exact execModinv_fits h rd rs1 rs2
  | coprimegen rd rs1 => exact execCoprimegen_fits h rd rs1
  | keygen => exact execKeygen_fits h
  | keyderive rs1 rs2 => exact execKeyderive_fits h rs1 rs2
  | keyderivee rs1 rs2 rs3 => exact execKeyderivee_fits h rs1 rs2 rs3
  | keyclr => exact State.finish_fits h (Result.fits_of_write (keyRegs_zero_fits s.params.width))
  | enc rd rs1 => exact State.finish_fits h (codecResult_fits h rd _ _)
  | dec rd rs1 => exact State.finish_fits h (codecResult_fits h rd _ _)
  | b2i rd => exact execB2i_fits h rd
  | i2b rs1 => exact execI2b_fits h rs1

/-! ## Bus accesses (20_memory R62 to R65) -/

/-- A word of a register or of MBUF lies inside it. -/
def Target.InRange (words : Nat) : Target → Prop
  | .x _ k => k < words
  | .mbuf j => j < words
  | _ => True

theorem controlTarget_inRange (words offset : Nat) : (controlTarget offset).InRange words := by
  unfold controlTarget
  split <;> trivial

/-- What lies beyond a window's size is unmapped. -/
theorem ite_unmapped_inRange {words : Nat} {c : Prop} [Decidable c] {d : Target}
    (h : c → d.InRange words) : (if c then d else .unmapped).InRange words := by
  split
  · next hc => exact h hc
  · trivial

theorem wideTarget_inRange (words window k : Nat) :
    (wideTarget words window k).InRange words := by
  unfold wideTarget
  split
  iterate 8 exact ite_unmapped_inRange fun _ => trivial
  · exact ite_unmapped_inRange id
  · trivial

/-- R65: the map shows no word beyond a window's size. -/
theorem busTarget_inRange (words offset : Nat) : (busTarget words offset).InRange words := by
  unfold busTarget
  split
  · exact controlTarget_inRange words offset
  · dsimp only
    split
    · exact ite_unmapped_inRange id
    · exact wideTarget_inRange words _ _

theorem State.writeIdle_fits {p : Params} {b : Bank} (h : s.bank.Fits p) (hb : b.Fits p) :
    (s.writeIdle b).bank.Fits p := by
  unfold State.writeIdle
  split
  · exact h
  · exact hb

theorem State.writeCtrl_fits {p : Params} (h : s.bank.Fits p) (v : Word) :
    (s.writeCtrl v).bank.Fits p := by
  unfold State.writeCtrl
  split <;> exact h

/-- A host write keeps the bank fitting, whatever word of the map it goes to. -/
theorem State.writeTarget_fits {d : Target} (h : s.bank.Fits s.params) (v : Word)
    (hd : d.InRange s.params.words) : (s.writeTarget v d).bank.Fits s.params := by
  cases d with
  | ctrl =>
    rw [State.writeTarget]
    split
    · exact Bank.reset_fits s.params s.bank.efail
    · exact State.writeCtrl_fits h v
  | cmd =>
    rw [State.writeTarget]
    split <;> exact h
  | arg => exact State.writeIdle_fits h h
  | retryCap => exact State.writeIdle_fits h h
  | mlen => exact State.writeIdle_fits h (Bank.setMlen_fits h (min_le_right _ _))
  | x r k =>
    have ⟨hx, _⟩ := h
    exact State.writeIdle_fits h (Bank.writeX_fits r h (setWord_lt v (hx r) hd))
  | mbuf j =>
    have hj : j < s.params.words := hd
    refine State.writeIdle_fits h (Bank.storeBytes_fits h ?_)
    simp only [wordBytes, List.length_cons, List.length_nil, Params.bytes]
    omega
  | status | id | param | bctxK | ro _ _ | unmapped => exact h

theorem State.hostAccess_fits (h : s.bank.Fits s.params) (a : Access) :
    (s.hostAccess a).bank.Fits s.params := by
  cases a with
  | read offset bytes =>
    rw [State.hostAccess]
    split <;> exact h
  | write offset bytes v =>
    rw [State.hostAccess]
    split
    · exact h
    · exact State.writeTarget_fits h v (busTarget_inRange _ _)

/-! ## Every step (70_reset_and_hazards R279) -/

theorem engineStep_fits (h : s.Inv) : Out.Fits s.params (engineStep s) := by
  unfold engineStep
  split
  · exact ⟨s, rfl, rfl, h.fits⟩
  · split
    · exact exec_fits h _
    · exact State.finish_fits h (r := .raise .illegalCmd) trivial

theorem answerStep_fits (h : s.Inv) (a : Answer) : Out.Fits s.params (answerStep a s) := by
  unfold answerStep
  split
  · exact engineStep_fits (s := { s with entropy := a :: s.entropy }) h
  · exact ⟨s, rfl, rfl, h.fits⟩

theorem eventStep_fits (h : s.Inv) (e : Event) : Out.Fits s.params (eventStep e s) := by
  cases e with
  | host a => exact ⟨_, rfl, s.hostAccess_params a, State.hostAccess_fits h.fits a⟩
  | engine => exact engineStep_fits h
  | answer a => exact answerStep_fits h a
  | lateAnswer a => exact ⟨s, rfl, rfl, h.fits⟩
  | hardReset => exact ⟨_, rfl, rfl, Bank.reset_fits s.params false⟩

theorem step_fits (h : s.Inv) : Out.Fits s.params (step s) := by
  unfold step
  split
  · exact engineStep_fits h
  · next e rest _ => exact eventStep_fits (s := { s with schedule := rest }) h e

end

/-- Settles O54: no step changes the parameters, and every write of a step fits its register. -/
theorem everyStepKeepsWidthsAndMemory : Obligations.EveryStepKeepsWidthsAndMemory := by
  intro s t h ht
  obtain ⟨t', ht', hparams, hfits⟩ := step_fits h
  obtain rfl : t' = t := by simpa [ht] using ht'.symm
  rw [hparams]
  exact ⟨h.legal, hfits⟩

end Sys2Proof.Machine
end

section
/-! PROOFS. Every step keeps the laws of the keypair, of the contexts and of control (10_state R39).
A step is a host access, a reset, a command, or nothing; a command's run ends in writes that are
lawful for it, or at a wait point that is its own. -/

namespace Sys2Proof

/-- The commands that write RES (42 R153, 43 R173). -/
def Instr.writesRes : Instr → Bool
  | .mrtest _ _ | .coprime _ _ _ => true
  | _ => false

end Sys2Proof

namespace Sys2Proof.Machine

/-! ## What a step can do (70_reset_and_hazards R279) -/

/-- The state after a step, by what the step was. -/
inductive State.StepsTo (s : State) : State → Prop
  /-- an event with nothing to do -/
  | nothing (rest : List Event) (answers : List Answer) : StepsTo s (s.load rest answers)
  | access {rest : List Event} {a : Access} (h : s.schedule = .host a :: rest) :
      StepsTo s ((s.load rest s.entropy).hostAccess a)
  | reset {rest : List Event} (h : s.schedule = .hardReset :: rest) :
      StepsTo s (s.load rest s.entropy).hardReset
  /-- the engine finds an illegal word (30_encoding R85) -/
  | illegal (rest : List Event) (answers : List Answer) :
      StepsTo s ((s.load rest answers).complete (.raise .illegalCmd))
  /-- the engine runs the command its word decodes to -/
  | command {rest : List Event} {answers : List Answer} {w : Word} {i : Instr} {t : State}
      (hw : s.fetch = some w) (hi : decode w = .ok i)
      (ht : exec i (s.load rest answers) = .next t) : StepsTo s t

section
variable {s t : State}

theorem engineStep_stepsTo {rest : List Event} {answers : List Answer}
    (h : engineStep (s.load rest answers) = .next t) : s.StepsTo t := by
  unfold engineStep at h
  split at h
  · cases h
    exact .nothing rest answers
  · next w hw =>
    split at h
    · next i hi => exact .command hw hi h
    · cases h
      exact .illegal rest answers

theorem step_stepsTo (h : step s = .next t) : s.StepsTo t := by
  unfold step at h
  split at h
  · next hs => exact engineStep_stepsTo (rest := s.schedule) (answers := s.entropy) h
  · next e rest hs =>
    cases e with
    | host a =>
      cases h
      exact .access hs
    | engine => exact engineStep_stepsTo (rest := rest) (answers := s.entropy) h
    | answer a =>
      rw [eventStep, answerStep] at h
      split at h
      · exact engineStep_stepsTo (rest := rest) (answers := a :: s.entropy) h
      · cases h
        exact .nothing rest s.entropy
    | lateAnswer a =>
      cases h
      exact .nothing rest s.entropy
    | hardReset =>
      cases h
      exact .reset hs

/-- The invariant does not speak of the inputs to come. -/
theorem State.Inv.load (h : s.Inv) (rest : List Event) (answers : List Answer) :
    (s.load rest answers).Inv := h

/-- While BUSY the word fetched is the live command word, and DONE and ERR are 0 (R36, R39). -/
theorem State.Inv.busy_of_fetch {w : Word} (h : s.Inv) (hw : s.fetch = some w) :
    s.bank.cmd = w ∧ s.done = false ∧ s.err = .ok := by
  have hc := h.controlSound
  unfold State.fetch at hw
  split at hw
  · cases hw
  · next snap point hp =>
    simp only [State.controlSound, hp, Bool.and_eq_true, decide_eq_true_eq,
      Bool.not_eq_true'] at hc
    obtain ⟨⟨⟨rfl, hdone⟩, herr⟩, -⟩ := hc
    exact ⟨Option.some.inj hw, hdone, herr⟩

end

/-! ## What a host access can do (20_memory R61 to R65) -/

/-- The access is a write of CTRL with SRST (70 R271). -/
def Access.softResets : Access → Bool
  | .write offset bytes v => !badAccess offset bytes && offset.toNat == 8 && v.getLsbD 31
  | .read _ _ => false

theorem State.softResetComing_eq {s : State} {a : Access} {rest : List Event}
    (h : s.schedule = .host a :: rest) : s.softResetComing = a.softResets := by
  cases a <;> simp [State.softResetComing, Access.softResets, h]

theorem controlTarget_eq_ctrl {offset : Nat} (h : controlTarget offset = .ctrl) :
    offset = 8 := by
  unfold controlTarget at h
  split at h
  case h_3 => rfl
  all_goals cases h

theorem wideTarget_ne_ctrl (words window k : Nat) : wideTarget words window k ≠ .ctrl := by
  unfold wideTarget
  repeat' split
  all_goals simp

/-- CTRL has one place in the map (R62). -/
theorem busTarget_eq_ctrl {words offset : Nat} (h : busTarget words offset = .ctrl) :
    offset = 8 := by
  simp only [busTarget] at h
  split_ifs at h
  · exact controlTarget_eq_ctrl h
  · exact absurd h (wideTarget_ne_ctrl _ _ _)

/-- Every access does what one write to a word of the map does, and answers: an access without
effect is a write of an unmapped word. -/
theorem State.hostAccess_eq_writeTarget (s : State) (a : Access) :
    ∃ v d r, s.hostAccess a = { s.writeTarget v d with response := r }
      ∧ (d = .ctrl → v.getLsbD 31 = true → a.softResets = true) := by
  cases a with
  | read offset bytes =>
    rw [State.hostAccess]
    split <;> exact ⟨0, .unmapped, _, rfl, by simp⟩
  | write offset bytes v =>
    rw [State.hostAccess]
    split
    · exact ⟨0, .unmapped, _, rfl, by simp⟩
    · next hbad =>
      refine ⟨v, _, _, rfl, fun hd hv => ?_⟩
      simp [Access.softResets, hbad, busTarget_eq_ctrl hd, hv]

/-- The keypair, the contexts and RES, which only commands and resets change. -/
def State.KeepsResults (s t : State) : Prop :=
  s.bank.SameKeys t.bank ∧ s.bank.SameMont t.bank ∧ s.bank.SameBar t.bank ∧ t.res = s.res

theorem State.KeepsResults.refl (s : State) : s.KeepsResults s :=
  ⟨⟨rfl, rfl⟩, ⟨rfl, rfl⟩, ⟨rfl, rfl⟩, rfl⟩

/-- What no host access but a soft reset changes while BUSY, and DONE, which it cannot set. -/
def State.Undisturbed (s t : State) : Prop :=
  t.phase = s.phase ∧ t.bank = s.bank ∧ t.res = s.res ∧ t.err = s.err
    ∧ (s.done = false → t.done = false)

theorem State.Undisturbed.refl (s : State) : s.Undisturbed s := ⟨rfl, rfl, rfl, rfl, id⟩

section
variable {s : State}

@[simp] theorem State.writeIdle_phase (s : State) (b : Bank) :
    (s.writeIdle b).phase = s.phase := by
  unfold State.writeIdle; split <;> rfl

@[simp] theorem State.writeCtrl_phase (s : State) (v : Word) :
    (s.writeCtrl v).phase = s.phase := by
  unfold State.writeCtrl; split <;> rfl

theorem State.writeIdle_keepsResults {b : Bank}
    (h : s.KeepsResults { s with bank := b }) : s.KeepsResults (s.writeIdle b) := by
  unfold State.writeIdle
  split
  · exact .refl s
  · exact h

theorem State.writeIdle_undisturbed (h : s.busy = true) (b : Bank) :
    s.Undisturbed (s.writeIdle b) := by
  rw [State.writeIdle_of_busy b h]
  exact .refl s

theorem State.writeTarget_ctrl {v : Word} (h : v.getLsbD 31 = false) :
    s.writeTarget v .ctrl = s.writeCtrl v := by
  rw [State.writeTarget, h, if_neg Bool.false_ne_true]

theorem State.writeTarget_keepsResults {v : Word} {d : Target}
    (h : d = .ctrl → v.getLsbD 31 = false) : s.KeepsResults (s.writeTarget v d) := by
  cases d with
  | ctrl =>
    rw [State.writeTarget_ctrl (h rfl), State.writeCtrl]
    split
    · exact .refl s
    · exact .refl s
  | cmd =>
    rw [State.writeTarget]
    split
    · exact .refl s
    · exact .refl s
  | arg | retryCap | mlen | x _ _ | mbuf _ => exact State.writeIdle_keepsResults (.refl s)
  | status | id | param | bctxK | ro _ _ | unmapped => exact .refl s

/-- R23, R36: while BUSY no host write but a soft reset reaches the command. -/
theorem State.writeTarget_undisturbed {v : Word} {d : Target} (hb : s.busy = true)
    (h : d = .ctrl → v.getLsbD 31 = false) : s.Undisturbed (s.writeTarget v d) := by
  cases d with
  | ctrl =>
    rw [State.writeTarget_ctrl (h rfl), State.writeCtrl, hb]
    exact .refl s
  | cmd =>
    rw [State.writeTarget, hb]
    exact .refl s
  | status => exact ⟨rfl, rfl, rfl, rfl, fun hd => by simp [State.writeTarget, hd]⟩
  | arg | retryCap | mlen | x _ _ | mbuf _ => exact State.writeIdle_undisturbed hb _
  | id | param | bctxK | ro _ _ | unmapped => exact .refl s

/-- In IDLE a host write leaves the block IDLE or starts a command (10_state R26). -/
theorem State.writeTarget_of_idle (hs : s.phase = .idle) (v : Word) (d : Target) :
    (s.writeTarget v d).phase = .idle ∨ s.writeTarget v d = s.start v := by
  cases d with
  | ctrl =>
    rw [State.writeTarget]
    split
    · exact .inl rfl
    · exact .inl ((s.writeCtrl_phase v).trans hs)
  | cmd => exact .inr (by simp [State.writeTarget, State.busy_of_idle hs])
  | arg | retryCap | mlen | x _ _ | mbuf _ => exact .inl ((s.writeIdle_phase _).trans hs)
  | status | id | param | bctxK | ro _ _ | unmapped => exact .inl hs

theorem State.hostAccess_cases (s : State) (a : Access) :
    (a.softResets = true ∧ ∃ r, s.hostAccess a = { s.softReset with response := r })
    ∨ ∃ v d r, s.hostAccess a = { s.writeTarget v d with response := r }
      ∧ (d = .ctrl → v.getLsbD 31 = false) := by
  obtain ⟨v, d, r, heq, hreset⟩ := s.hostAccess_eq_writeTarget a
  by_cases hd : d = .ctrl ∧ v.getLsbD 31 = true
  · obtain ⟨rfl, hv⟩ := hd
    exact .inl ⟨hreset rfl hv, r, by rw [heq, State.writeTarget, if_pos hv]⟩
  · exact .inr ⟨v, d, r, heq, fun h => Bool.eq_false_iff.2 fun hv => hd ⟨h, hv⟩⟩

end

/-! ## The laws of a command's writes (10_state R39) -/

/-- Key registers that obey R39 beside the given KV. -/
def KeyRegs.Lawful (k : KeyRegs) (kv : Bool) : Prop :=
  (kv = true → 2 ≤ k.kp ∧ 2 ≤ k.kq ∧ k.kp ≠ k.kq ∧ k.IsDerived)
    ∧ (kv = false → k = ⟨0, 0, 0, 0, 0, 0⟩)

/-- A Montgomery context that obeys R32. -/
def MontCtx.Lawful (width : Nat) (c : MontCtx) : Prop :=
  c.n % 2 = 1 ∧ (c.np * c.n + 1) % 2 ^ width = 0 ∧ c.r2 = 2 ^ (2 * width) % c.n

/-- A Barrett context that obeys R33. -/
def BarCtx.Lawful (c : BarCtx) : Prop :=
  1 ≤ c.n ∧ c.k = bitlen c.n ∧ c.mu = 2 ^ (2 * c.k) / c.n

theorem Bank.keyLaws_iff (b : Bank) : b.KeyLaws ↔ b.key.Lawful b.kv := Iff.rfl

theorem Bank.contextLaws_iff (p : Params) (b : Bank) :
    b.ContextLaws p ↔ (b.mv = true → b.mont.Lawful p.width) ∧ (b.bv = true → b.bar.Lawful) :=
  Iff.rfl

/-- A scheduled write of command `i` that keeps the laws, RES being written by its commands only. -/
@[simp] def Write.Lawful (width : Nat) (i : Instr) : Write → Prop
  | .x _ _ | .mbuf _ | .mlen _ => True
  | .res _ => i.writesRes = true
  | .key k kv => k.Lawful kv
  | .mont c => c.Lawful width
  | .bar c => c.Lawful

/-- A result all of whose writes are lawful. -/
@[simp] def Result.Lawful (width : Nat) (i : Instr) : Result → Prop
  | .ok ws => ∀ w ∈ ws, w.Lawful width i
  | .raise _ => True

theorem Result.lawful_of_write {width : Nat} {i : Instr} {w : Write} (h : w.Lawful width i) :
    (Result.ok [w]).Lawful width i :=
  List.forall_mem_singleton.2 h

/-- The keypair and context laws together. -/
def Bank.Laws (p : Params) (b : Bank) : Prop := b.KeyLaws ∧ b.ContextLaws p

theorem Bank.Laws.of_same {p : Params} {b c : Bank} (h : b.Laws p) (hkeys : b.SameKeys c)
    (hmont : b.SameMont c) (hbar : b.SameBar c) : c.Laws p := by
  obtain ⟨hkey, hctx⟩ := h
  rw [Bank.keyLaws_iff] at hkey
  rw [Bank.contextLaws_iff] at hctx
  refine ⟨(Bank.keyLaws_iff c).2 ?_, (Bank.contextLaws_iff p c).2 ?_⟩
  · rwa [hkeys.1, hkeys.2]
  · rwa [hmont.1, hmont.2, hbar.1, hbar.2]

theorem State.Inv.laws {s : State} (h : s.Inv) : s.bank.Laws s.params :=
  ⟨h.keyLaws, h.contextLaws⟩

theorem Bank.reset_laws (p : Params) (efail : Bool) : (Bank.reset p efail).Laws p := by
  simp [Bank.Laws, Bank.KeyLaws, Bank.ContextLaws, Bank.reset]

theorem State.applyWrite_laws {p : Params} {i : Instr} {s : State} {w : Write}
    (h : s.bank.Laws p) (hw : w.Lawful p.width i) : (s.applyWrite w).bank.Laws p := by
  have ⟨hkey, hmont, hbar⟩ := h
  cases w with
  | key k kv => exact ⟨hw, hmont, hbar⟩
  | mont c => exact ⟨hkey, fun _ => hw, hbar⟩
  | bar c => exact ⟨hkey, hmont, fun _ => hw⟩
  | x _ _ | res _ | mbuf _ | mlen _ => exact h

theorem State.applyWrites_laws {p : Params} {i : Instr} {s : State} {ws : List Write}
    (h : s.bank.Laws p) (hws : ∀ w ∈ ws, w.Lawful p.width i) :
    (ws.foldl State.applyWrite s).bank.Laws p := by
  induction ws generalizing s with
  | nil => exact h
  | cons w ws ih =>
    rw [List.forall_mem_cons] at hws
    exact ih (State.applyWrite_laws h hws.1) hws.2

theorem State.complete_laws {p : Params} {i : Instr} {s : State} {r : Result}
    (h : s.bank.Laws p) (hr : r.Lawful p.width i) : (s.complete r).bank.Laws p := by
  cases r with
  | ok ws => exact State.applyWrites_laws h hr
  | raise e => exact h

/-! ## The laws of what is derived -/

/-- R177, R202: the normalized coefficient is the inverse of e in [0, φ). -/
theorem egcdNorm_inverse {e phi : Nat} (hphi : 2 ≤ phi) (hgcd : Nat.gcd e phi = 1) :
    (egcdNorm e phi).x.toNat < phi ∧ e * (egcdNorm e phi).x.toNat % phi = 1 := by
  have hid := egcdRaw_identity e phi
  rw [egcdRaw_g, hgcd] at hid
  have habs : |(egcdRaw e phi).x| ≤ phi :=
    egcdLoop_x_abs_le (phi + 1) e phi 1 0 0 1 (by simp; omega) (by simp) (by simp)
  obtain ⟨k, hk, hlo, hhi⟩ : ∃ k : Int, addWhenNegative (egcdRaw e phi).x phi
      = (egcdRaw e phi).x + k * phi ∧ 0 ≤ addWhenNegative (egcdRaw e phi).x phi
      ∧ addWhenNegative (egcdRaw e phi).x phi ≤ phi := by
    unfold addWhenNegative
    rw [abs_le] at habs
    split
    · exact ⟨1, by simp, by simp; omega, by simp; omega⟩
    · exact ⟨0, by simp, by omega, by omega⟩
  change (addWhenNegative (egcdRaw e phi).x phi).toNat < phi
    ∧ e * (addWhenNegative (egcdRaw e phi).x phi).toNat % phi = 1
  generalize addWhenNegative (egcdRaw e phi).x phi = z at hk hlo hhi ⊢
  have hmod : (e * z) % (phi : Int) = 1 := by
    have : e * z = 1 + phi * (e * k - (egcdRaw e phi).y) := by
      rw [hk]; push_cast at hid; linear_combination hid
    rw [this, Int.add_mul_emod_self_left]
    exact Int.emod_eq_of_lt (by omega) (by omega)
  have hne : z ≠ phi := by
    rintro rfl
    simp at hmod
  lift z to Nat using hlo
  exact ⟨by simp; omega, by exact_mod_cast hmod⟩

/-- R202, R204: the key derived of distinct primes and a coprime exponent below φ is lawful. -/
theorem keyOf_lawful {p q e : Nat} (hp : 2 ≤ p) (hq : 2 ≤ q) (hne : p ≠ q)
    (he : e < (p - 1) * (q - 1)) (hgcd : Nat.gcd e ((p - 1) * (q - 1)) = 1) :
    (keyOf p q e).Lawful true := by
  have hphi : 2 ≤ (p - 1) * (q - 1) := by
    obtain hp' | hq' : 2 ≤ p - 1 ∨ 2 ≤ q - 1 := by omega
    · exact hp'.trans (Nat.le_mul_of_pos_right _ (by omega))
    · exact hq'.trans (Nat.le_mul_of_pos_left _ (by omega))
  have hpos : 0 < e := by
    refine Nat.pos_of_ne_zero ?_
    rintro rfl
    rw [Nat.gcd_zero_left] at hgcd
    omega
  obtain ⟨hlt, hinv⟩ := egcdNorm_inverse hphi hgcd
  exact ⟨fun _ => ⟨hp, hq, hne, rfl, rfl, hpos, he, hgcd, hlt, hinv⟩, by simp⟩

/-- R121: the context latched for an odd modulus is lawful. -/
theorem montCtxOf_lawful (width : Nat) {n : Nat} (h : n % 2 = 1) :
    (montCtxOf width n).Lawful width := by
  refine ⟨h, ?_, rfl⟩
  have hpos := Nat.two_pow_pos width
  have hinv := mul_inverseMod hpos
    (Nat.Coprime.pow_right width ((Nat.coprime_two_right).2 (Nat.odd_iff.2 h)))
  have hlt := inverseMod_lt n hpos
  simp only [montCtxOf]
  generalize inverseMod n (2 ^ width) = v at hinv hlt ⊢
  have hsum : (2 ^ width - v) * n + n * v = 2 ^ width * n := by
    rw [mul_comm n v, ← add_mul, Nat.sub_add_cancel hlt.le]
  calc ((2 ^ width - v) % 2 ^ width * n + 1) % 2 ^ width
      = ((2 ^ width - v) * n + n * v) % 2 ^ width := by
        rw [Nat.add_mod, Nat.mod_mul_mod, ← hinv, ← Nat.add_mod]
    _ = 0 := by rw [hsum, Nat.mul_mod_right]

/-- R127: the context latched for a modulus that is not 0 is lawful. -/
theorem barCtxOf_lawful {n : Nat} (h : n ≠ 0) : (barCtxOf n).Lawful :=
  ⟨Nat.one_le_iff_ne_zero.2 h, rfl, rfl⟩

/-! ## Sampling: a command's wait points stay its own -/

/-- A loop that has made `c` draws has not overrun CAP (60 R258). -/
def Counted (cap c : Nat) : Prop := cap = 0 ∨ c ≤ cap

/-- What a witness point's use says of the running command `i`: MRTEST's own operand and rounds, or
a candidate of its search, with the candidates drawn so far. -/
def MrUse.Owned (i : Instr) (b : Bank) (num rounds : Nat) : MrUse → Prop
  | .mrtest rd => ∃ rs1, i = .mrtest rd rs1 ∧ num = b.readX rs1 ∧ rounds ≤ b.arg.toNat
  | .search s nb c => s.belongs i = true ∧ nb = b.arg.toNat ∧ rounds ≤ Config.primegenRounds
      ∧ Counted b.retryCap.toNat c

/-- The coprime loop of the running command `i`. -/
def CoprimeUse.Owned (i : Instr) (b : Bank) (m : Nat) : CoprimeUse → Prop
  | .coprimegen rd => ∃ rs1, i = .coprimegen rd rs1 ∧ m = b.readX rs1
  | .derive p q =>
    i = .keygen ∨ ∃ rs1 rs2, i = .keyderive rs1 rs2 ∧ p = b.readX rs1 ∧ q = b.readX rs2

/-- A wait point of command `i` run on bank `b`, before the cap is checked. -/
def WaitPoint.Owned (i : Instr) (b : Bank) : WaitPoint → Prop
  | .rand rd k => i = .rand rd ∧ k = b.arg.toNat
  | .candidate s nb c =>
    s.belongs i = true ∧ nb = b.arg.toNat ∧ Counted b.retryCap.toNat c
  | .witness use num rounds _ c => use.Owned i b num rounds ∧ Counted b.retryCap.toNat c
  | .coprime use m nb c =>
    use.Owned i b m ∧ nb = b.arg.toNat ∧ Counted b.retryCap.toNat c

/-- What command `i` has come to is its own: its wait point, or a result with RES only if `i` is to
write it. -/
def Advance.Owned (i : Instr) (b : Bank) : Advance → Prop
  | .done (.ok ws) => ∀ v, Write.res v ∈ ws → i.writesRes = true
  | .done (.raise _) => True
  | .wait q => q.Owned i b

theorem counted_zero (cap : Nat) : Counted cap 0 := .inr (Nat.zero_le cap)

/-- A draw that is not blocked is below CAP (60 R258). -/
theorem Counted.lt_of_unblocked {cap c : Nat} (h : Counted cap c)
    (hb : capReached cap (some c) = false) : cap = 0 ∨ c < cap := by
  simp only [capReached, Bool.and_eq_false_iff, bne_eq_false_iff_eq, beq_eq_false_iff_ne] at hb
  unfold Counted at h
  omega

theorem Counted.succ {cap c : Nat} (h : cap = 0 ∨ c < cap) : Counted cap (c + 1) := h

theorem WaitPoint.blocked_eq_none_iff {cap : Nat} {efail : Bool} {q : WaitPoint} :
    q.blocked cap efail = none ↔ capReached cap q.count = false ∧ efail = false := by
  unfold WaitPoint.blocked
  cases hcap : capReached cap q.count <;> cases efail <;> simp

section
variable {i : Instr} {b : Bank}

theorem beginDerive_owned {p q eb : Nat} (heb : eb = b.arg.toNat)
    (h : (CoprimeUse.derive p q).Owned i b ((p - 1) * (q - 1))) :
    (beginDerive p q eb).Owned i b :=
  ⟨h, heb, counted_zero _⟩

theorem primeFound_owned {s : Search} {nb prime : Nat} (hs : s.belongs i = true)
    (hnb : nb = b.arg.toNat) : (primeFound s nb prime).Owned i b := by
  cases s with
  | primegen rd => simp [primeFound, Advance.Owned]
  | keygenP => exact ⟨hs, hnb, counted_zero _⟩
  | keygenQ p => exact beginDerive_owned hnb (.inl (by simpa [Search.belongs] using hs))

theorem verdict_owned {use : MrUse} {num rounds : Nat} (v : Bool)
    (h : use.Owned i b num rounds) : (verdict use num v).Owned i b := by
  cases use with
  | mrtest rd =>
    obtain ⟨rs1, rfl, -⟩ := h
    exact fun _ _ => rfl
  | search s nb c =>
    obtain ⟨hs, hnb, -, hc⟩ := h
    cases v with
    | false => exact ⟨hs, hnb, hc⟩
    | true => exact primeFound_owned hs hnb

theorem beginWitness_owned {use : MrUse} {num rounds : Nat} (h : use.Owned i b num rounds) :
    (beginWitness use num rounds).Owned i b :=
  ⟨h, counted_zero _⟩

theorem beginMr_owned {use : MrUse} {num k : Nat} (h : use.Owned i b num k) :
    (beginMr use num k).Owned i b := by
  unfold beginMr
  split_ifs
  · exact verdict_owned _ h
  · exact verdict_owned _ h
  · exact verdict_owned _ h
  · exact beginWitness_owned h

theorem candidateDrawn_owned {s : Search} {nb c : Nat} (cand : Nat) (hs : s.belongs i = true)
    (hnb : nb = b.arg.toNat) (hc : Counted b.retryCap.toNat c) :
    (candidateDrawn s nb c cand).Owned i b := by
  unfold candidateDrawn
  split
  · exact ⟨hs, hnb, hc⟩
  · exact beginMr_owned ⟨hs, hnb, le_rfl, hc⟩

theorem MrUse.Owned.mono {use : MrUse} {num rounds rounds' : Nat} (h : use.Owned i b num rounds)
    (hle : rounds' ≤ rounds) : use.Owned i b num rounds' := by
  cases use with
  | mrtest rd =>
    obtain ⟨rs1, hi, hnum, hr⟩ := h
    exact ⟨rs1, hi, hnum, hle.trans hr⟩
  | search s nb c =>
    obtain ⟨hs, hnb, hr, hc⟩ := h
    exact ⟨hs, hnb, hle.trans hr, hc⟩

theorem witnessDrawn_owned {use : MrUse} {num rounds c : Nat} (w v : Nat)
    (h : use.Owned i b num rounds) (hc : Counted b.retryCap.toNat c) :
    (witnessDrawn use num rounds w c v).Owned i b := by
  unfold witnessDrawn
  split_ifs
  · exact verdict_owned true h
  · exact beginWitness_owned (h.mono (Nat.sub_le rounds 1))
  · exact verdict_owned false h
  · exact ⟨h, hc⟩
  · exact ⟨h, hc⟩

theorem coprimeDrawn_owned {use : CoprimeUse} {m nb c : Nat} (v : Nat) (h : use.Owned i b m)
    (hnb : nb = b.arg.toNat) (hc : Counted b.retryCap.toNat c) :
    (coprimeDrawn use m nb c v).Owned i b := by
  unfold coprimeDrawn
  split
  · cases use <;> simp [coprimeFound, Advance.Owned]
  · exact ⟨h, hnb, hc⟩

/-- A draw that is not blocked takes a command's wait point to another of its own, or to a result
that it may write. -/
theorem WaitPoint.answered_owned {q : WaitPoint} {efail : Bool} (v : Nat) (h : q.Owned i b)
    (hb : q.blocked b.retryCap.toNat efail = none) : (q.answered v).Owned i b := by
  obtain ⟨hcap, -⟩ := WaitPoint.blocked_eq_none_iff.1 hb
  cases q with
  | rand rd k => simp [WaitPoint.answered, Advance.Owned]
  | candidate s nb c =>
    obtain ⟨hs, hnb, hc⟩ := h
    exact candidateDrawn_owned v hs hnb (.succ (hc.lt_of_unblocked hcap))
  | witness use num rounds w c =>
    obtain ⟨hu, hc⟩ := h
    exact witnessDrawn_owned w v hu (.succ (hc.lt_of_unblocked hcap))
  | coprime use m nb c =>
    obtain ⟨hu, hnb, hc⟩ := h
    exact coprimeDrawn_owned v hu hnb (.succ (hc.lt_of_unblocked hcap))

end

/-! ## The run of a command -/

/-- What command `i` has come to under the invariant: a lawful result, or a wait point of its own
with its values in range. -/
def Advance.Lawful (p : Params) (i : Instr) (b : Bank) : Advance → Prop
  | .done r => r.Lawful p.width i
  | .wait q => q.inRange p.width b.kv = true ∧ q.Owned i b

/-- The same of the engine's run over the answers. -/
def DriveEnd.Lawful (p : Params) (i : Instr) (b : Bank) : DriveEnd → Prop
  | .ended r _ => r.Lawful p.width i
  | .failed _ => True
  | .starved q => q.sound p b = true

section
variable {p : Params} {i : Instr} {b : Bank}

theorem Result.lawful_of_sampled {r : Result} (h : r.Sampled p.width b.kv)
    (ho : (Advance.done r).Owned i b) : r.Lawful p.width i := by
  cases h with
  | raised e => trivial
  | number rd hv => simp
  | verdict rd v => simpa using ho v (by simp)
  | keypair hp hq hne hpq he hgcd hkv =>
    exact Result.lawful_of_write (keyOf_lawful hp hq hne he ((Nat.gcd_comm _ _).trans hgcd))

theorem Advance.lawful_of_inRange {a : Advance} (h : a.InRange p.width b.kv)
    (ho : a.Owned i b) : a.Lawful p i b := by
  cases a with
  | done r => exact Result.lawful_of_sampled h ho
  | wait q => exact ⟨h, ho⟩

/-- The counters of a wait point have not overrun CAP. -/
def WaitPoint.Counts (cap : Nat) : WaitPoint → Prop
  | .rand _ _ => True
  | .candidate _ _ c | .witness (.mrtest _) _ _ _ c | .coprime _ _ _ c => Counted cap c
  | .witness (.search _ _ c') _ _ _ c => Counted cap c' ∧ Counted cap c

/-- Being a command's own is to belong to it, with the counters within CAP. -/
theorem WaitPoint.owned_iff {q : WaitPoint} :
    q.Owned i b ↔ q.belongs i b = true ∧ q.Counts b.retryCap.toNat := by
  cases q with
  | rand rd k => simp [WaitPoint.Owned, WaitPoint.belongs, WaitPoint.Counts]
  | candidate s nb c => simp [WaitPoint.Owned, WaitPoint.belongs, WaitPoint.Counts, and_assoc]
  | witness use num rounds w c =>
    cases use with
    | mrtest rd =>
      simp only [WaitPoint.Owned, MrUse.Owned, WaitPoint.belongs, WaitPoint.Counts]
      split
      · next rd' rs1 => simp [eq_comm (a := rd), and_assoc]
      · next hi =>
        refine iff_of_false ?_ (by simp)
        rintro ⟨⟨rs1, h, -⟩, -⟩
        exact hi _ rs1 h
    | search s nb c' =>
      simp [WaitPoint.Owned, MrUse.Owned, WaitPoint.belongs, WaitPoint.Counts, and_assoc]
  | coprime use m nb c =>
    cases use with
    | coprimegen rd =>
      simp only [WaitPoint.Owned, CoprimeUse.Owned, WaitPoint.belongs, WaitPoint.Counts]
      split
      · next rd' rs1 => simp [eq_comm (a := rd), and_assoc]
      · next hi =>
        refine iff_of_false ?_ (by simp)
        rintro ⟨⟨rs1, h, -⟩, -⟩
        exact hi _ rs1 h
    | derive p q =>
      simp only [WaitPoint.Owned, CoprimeUse.Owned, WaitPoint.belongs, WaitPoint.Counts]
      split
      · simp
      · next rs1 rs2 => simp [and_assoc]
      · next hk hd =>
        refine iff_of_false ?_ (by simp)
        rintro ⟨h | ⟨rs1, rs2, h, -⟩, -⟩
        · exact hk h
        · exact hd rs1 rs2 h

theorem WaitPoint.counts_of_withinCap {q : WaitPoint} {cap : Nat} (h : q.withinCap cap = true) :
    q.Counts cap := by
  cases q with
  | rand rd k => trivial
  | candidate _ _ c | coprime _ _ _ c =>
    simp only [WaitPoint.withinCap, Bool.or_eq_true, beq_iff_eq, decide_eq_true_eq] at h
    exact h.imp_right le_of_lt
  | witness use num rounds w c =>
    cases use <;>
      simp only [WaitPoint.withinCap, Bool.or_eq_true, beq_iff_eq, decide_eq_true_eq] at h
    case mrtest => exact h.imp_right le_of_lt
    case search => exact ⟨h.imp_right And.right, h.imp_right fun hc => hc.1.le⟩

theorem WaitPoint.withinCap_of_counts {q : WaitPoint} {cap : Nat} (h : q.Counts cap)
    (hcap : capReached cap q.count = false) : q.withinCap cap = true := by
  cases q with
  | rand rd k => rfl
  | candidate _ _ _ | coprime _ _ _ _ =>
    simpa [WaitPoint.withinCap] using Counted.lt_of_unblocked h hcap
  | witness use num rounds w c =>
    cases use with
    | mrtest rd => simpa [WaitPoint.withinCap] using Counted.lt_of_unblocked h hcap
    | search s nb c' =>
      obtain ⟨hc', hc⟩ := h
      have hlt := hc.lt_of_unblocked hcap
      rw [Counted] at hc'
      rw [WaitPoint.withinCap, Bool.or_eq_true, beq_iff_eq, decide_eq_true_eq]
      omega

/-- A wait point that is the command's own and in range is sound when its draw is not blocked. -/
theorem WaitPoint.sound_of_unblocked {q : WaitPoint} (hi : decode b.cmd = .ok i)
    (h : (Advance.wait q).Lawful p i b) (hb : q.blocked b.retryCap.toNat b.efail = none) :
    q.sound p b = true := by
  obtain ⟨hrange, howned⟩ := h
  obtain ⟨hbelongs, hcounts⟩ := WaitPoint.owned_iff.1 howned
  obtain ⟨hcap, hefail⟩ := WaitPoint.blocked_eq_none_iff.1 hb
  simp [WaitPoint.sound, hi, hbelongs, hrange, hefail, WaitPoint.withinCap_of_counts hcounts hcap]

theorem WaitPoint.lawful_of_sound {q : WaitPoint} (hi : decode b.cmd = .ok i)
    (h : q.sound p b = true) : (Advance.wait q).Lawful p i b := by
  simp only [WaitPoint.sound, hi, Bool.and_eq_true] at h
  obtain ⟨⟨⟨hbelongs, hrange⟩, hcap⟩, -⟩ := h
  exact ⟨hrange, WaitPoint.owned_iff.2 ⟨hbelongs, WaitPoint.counts_of_withinCap hcap⟩⟩

/-- The run over the answers at hand stays lawful. -/
theorem drive_lawful {q : WaitPoint} (answers : List Answer) (hi : decode b.cmd = .ok i)
    (h : (Advance.wait q).Lawful p i b) :
    (drive b.retryCap.toNat b.efail answers q).Lawful p i b := by
  induction answers generalizing q with
  | nil =>
    cases hb : q.blocked b.retryCap.toNat b.efail with
    | some e => rw [drive_of_blocked [] hb]; trivial
    | none => rw [drive_nil hb]; exact WaitPoint.sound_of_unblocked hi h hb
  | cons a rest ih =>
    cases hb : q.blocked b.retryCap.toNat b.efail with
    | some e => rw [drive_of_blocked (a :: rest) hb]; trivial
    | none =>
      cases a with
      | fail => rw [drive_fail rest hb]; trivial
      | value v =>
        have hnext : (q.answered (v % 2 ^ q.width)).Lawful p i b :=
          Advance.lawful_of_inRange
            (WaitPoint.answered_inRange h.1 (Nat.mod_lt v (Nat.two_pow_pos q.width)))
            (WaitPoint.answered_owned _ h.2 hb)
        cases ha : q.answered (v % 2 ^ q.width) with
        | done r => rw [drive_value_done rest hb ha]; rwa [ha] at hnext
        | wait q' => rw [drive_value_wait rest hb ha]; rw [ha] at hnext; exact ih hnext

end

section
variable {s : State} {i : Instr}

/-- How a lawful run ends: with lawful writes, with an answer FAIL, or at a sound wait point. -/
inductive State.Ran (s : State) (i : Instr) : State → Prop
  | completed {r : Result} (rest : List Answer) (hr : r.Lawful s.params.width i) :
      Ran s i (State.complete { s with entropy := rest } r)
  | failed (rest : List Answer) :
      Ran s i (State.complete { s with entropy := rest, bank := { s.bank with efail := true } }
        (.raise .entropyUnavailable))
  | waiting {q : WaitPoint} (hq : q.sound s.params s.bank = true) :
      Ran s i { s with entropy := [], phase := .busy s.bank (some q) }

theorem State.advance_ran {a : Advance} (h : s.Inv) (hi : decode s.bank.cmd = .ok i)
    (ha : a.Lawful s.params i s.bank) : s.Ran i (s.advance a) := by
  cases a with
  | done r => exact .completed s.entropy ha
  | wait q =>
    have hd := drive_lawful s.entropy hi ha
    rw [State.advance, State.cap, h.snap_eq]
    cases hdrive : drive s.bank.retryCap.toNat s.bank.efail s.entropy q with
    | ended r rest =>
      rw [hdrive] at hd
      exact .completed rest hd
    | failed rest => exact .failed rest
    | starved q' =>
      rw [hdrive] at hd
      rw [State.settle, h.snap_eq]
      exact .waiting hd

theorem State.resume_lawful {start : Advance} (h : s.Inv) (hi : decode s.bank.cmd = .ok i)
    (hstart : start.Lawful s.params i s.bank) :
    (s.resume start).Lawful s.params i s.bank := by
  unfold State.resume
  split
  · next hp => exact WaitPoint.lawful_of_sound hi ((h.busy hp).2 _ rfl)
  · exact hstart

theorem State.Inv.argument_eq (h : s.Inv) : s.argument = s.bank.arg.toNat := by
  rw [State.argument, h.snap_eq]

theorem State.Inv.src_eq (h : s.Inv) (r : Reg) : s.src r = s.bank.readX r := by
  rw [State.src, h.snap_eq]

/-- A command that refuses a bad width starts lawfully if it does so from a good one (60 R243). -/
theorem lawful_of_badWidth {k : Nat} {e : ErrCode} {start : Advance}
    (hstart : 1 ≤ k → k ≤ s.params.width → start.Lawful s.params i s.bank) :
    (if s.badWidth k then .done (.raise e) else start : Advance).Lawful s.params i s.bank := by
  split
  · trivial
  · next hw =>
    obtain ⟨hlo, hhi⟩ := State.badWidth_eq_false_iff.1 (Bool.eq_false_iff.2 hw)
    exact hstart hlo hhi

end

/-! ## Every command -/

/-- The command has a next state, that of a lawful run. -/
def Out.Lawful (s : State) (i : Instr) (o : Out) : Prop :=
  ∃ a, o = .next (s.advance a) ∧ a.Lawful s.params i s.bank

section
variable {s : State}

theorem State.finish_lawful {i : Instr} {r : Result} (hr : r.Lawful s.params.width i) :
    Out.Lawful s i (s.finish r) :=
  ⟨.done r, rfl, hr⟩

theorem State.sample_lawful {i : Instr} {start : Advance} (h : s.Inv)
    (hi : decode s.bank.cmd = .ok i) (hstart : start.Lawful s.params i s.bank) :
    Out.Lawful s i (s.sample start) :=
  ⟨s.resume start, rfl, s.resume_lawful h hi hstart⟩

/-- RAND (R102). -/
theorem execRand_lawful {rd : Reg} (h : s.Inv) (hi : decode s.bank.cmd = .ok (.rand rd)) :
    Out.Lawful s (.rand rd) (execRand rd s) := by
  refine State.sample_lawful h hi
    (lawful_of_badWidth fun hlo hhi => ⟨?_, rfl, h.argument_eq⟩)
  simp [WaitPoint.inRange, hlo, hhi]

/-- MONTSETUP (R121). -/
theorem execMontsetup_lawful (rs1 : Reg) :
    Out.Lawful s (.montsetup rs1) (execMontsetup rs1 s) := by
  refine State.finish_lawful ?_
  split
  · trivial
  · next hodd =>
    exact Result.lawful_of_write (montCtxOf_lawful s.width (Nat.mod_two_ne_zero.1 hodd))

/-- BARSETUP (R127). -/
theorem execBarsetup_lawful (rs1 : Reg) : Out.Lawful s (.barsetup rs1) (execBarsetup rs1 s) := by
  refine State.finish_lawful ?_
  split
  · trivial
  · next hn => exact Result.lawful_of_write (barCtxOf_lawful hn)

/-- MRTEST (R153). -/
theorem execMrtest_lawful {rd rs1 : Reg} (h : s.Inv)
    (hi : decode s.bank.cmd = .ok (.mrtest rd rs1)) :
    Out.Lawful s (.mrtest rd rs1) (execMrtest rd rs1 s) := by
  refine State.sample_lawful h hi ?_
  split
  · trivial
  · exact Advance.lawful_of_inRange (beginMr_inRange trivial (h.src_lt rs1))
      (beginMr_owned ⟨rs1, rfl, h.src_eq rs1, h.argument_eq.le⟩)

/-- PRIMEGEN (R154). -/
theorem execPrimegen_lawful {rd : Reg} (h : s.Inv)
    (hi : decode s.bank.cmd = .ok (.primegen rd)) :
    Out.Lawful s (.primegen rd) (execPrimegen rd s) := by
  refine State.sample_lawful h hi
    (lawful_of_badWidth fun hlo hhi => ⟨?_, ?_, h.argument_eq, counted_zero _⟩)
  · simp [WaitPoint.inRange, Search.inRange, hlo, hhi]
  · simp [Search.belongs]

/-- COPRIMEGEN (R182). -/
theorem execCoprimegen_lawful {rd rs1 : Reg} (h : s.Inv)
    (hi : decode s.bank.cmd = .ok (.coprimegen rd rs1)) :
    Out.Lawful s (.coprimegen rd rs1) (execCoprimegen rd rs1 s) := by
  refine State.sample_lawful h hi (lawful_of_badWidth fun hlo hhi => ?_)
  split
  · trivial
  · next hm =>
    exact ⟨WaitPoint.inRange_coprime_iff.2
        ⟨⟨hlo, hhi⟩, Nat.one_le_iff_ne_zero.2 hm, h.src_lt rs1⟩,
      ⟨rs1, rfl, h.src_eq rs1⟩, h.argument_eq, counted_zero _⟩

/-- KEYGEN (R201): the search runs without a keypair, on at most W/2 bits. -/
theorem execKeygen_lawful (h : s.Inv) (hi : decode s.bank.cmd = .ok .keygen) :
    Out.Lawful s .keygen (execKeygen s) := by
  refine State.sample_lawful h hi ?_
  rw [h.snap_eq]
  split_ifs with hkv hw
  · trivial
  · trivial
  · have hnb : 1 ≤ s.argument ∧ s.argument ≤ s.params.width / 2 := by
      rw [State.width] at hw
      omega
    refine ⟨?_, ?_, h.argument_eq, counted_zero _⟩
    · simp [WaitPoint.inRange, Search.inRange, hkv, hnb]
    · simp [Search.belongs]

/-- KEYDERIVE (R203). -/
theorem execKeyderive_lawful {rs1 rs2 : Reg} (h : s.Inv)
    (hi : decode s.bank.cmd = .ok (.keyderive rs1 rs2)) :
    Out.Lawful s (.keyderive rs1 rs2) (execKeyderive rs1 rs2 s) := by
  refine State.sample_lawful h hi ?_
  rw [h.snap_eq]
  split
  · trivial
  · next hkv =>
    refine lawful_of_badWidth fun hlo hhi => ?_
    split_ifs with hbad hpq
    · trivial
    · trivial
    · obtain ⟨hp, hq, hne⟩ := badPrimes_eq_false_iff.1 (Bool.eq_false_iff.2 hbad)
      exact Advance.lawful_of_inRange
        (beginDerive_inRange hp hq hne (not_le.1 hpq) ⟨hlo, hhi⟩ (Bool.eq_false_iff.2 hkv))
        (beginDerive_owned h.argument_eq (.inr ⟨rs1, rs2, rfl, h.src_eq rs1, h.src_eq rs2⟩))

/-- KEYDERIVEE (R204). -/
theorem execKeyderivee_lawful (rs1 rs2 rs3 : Reg) :
    Out.Lawful s (.keyderivee rs1 rs2 rs3) (execKeyderivee rs1 rs2 rs3 s) := by
  refine State.finish_lawful ?_
  split_ifs with hkv hbad hpq he hg
  · trivial
  · trivial
  · trivial
  · trivial
  · trivial
  · obtain ⟨hp, hq, hne⟩ := badPrimes_eq_false_iff.1 (Bool.eq_false_iff.2 hbad)
    exact Result.lawful_of_write (keyOf_lawful hp hq hne (by omega) (by simpa using hg))

/-- ENC and DEC (R223, R224) write an operand register only. -/
theorem codecResult_lawful (width : Nat) (i : Instr) (rd : Reg) (message exponent : Nat) :
    (codecResult s rd message exponent).Lawful width i := by
  unfold codecResult
  split_ifs <;> simp

/-- Under the invariant the command of a bank's command word runs lawfully on it. -/
theorem exec_lawful {i : Instr} (h : s.Inv) (hi : decode s.bank.cmd = .ok i) :
    Out.Lawful s i (exec i s) := by
  cases i with
  | nop => exact State.finish_lawful (by simp)
  | rand rd => exact execRand_lawful h hi
  | montsetup rs1 => exact execMontsetup_lawful rs1
  | montmul rd rs1 rs2 => exact State.finish_lawful (by split <;> simp)
  | montin rd rs1 => exact State.finish_lawful (by split <;> simp)
  | montout rd rs1 => exact State.finish_lawful (by split <;> simp)
  | barsetup rs1 => exact execBarsetup_lawful rs1
  | barred rd rs1 => exact State.finish_lawful (by split_ifs <;> simp)
  | modexp rd rs1 rs2 rs3 => exact State.finish_lawful (by split <;> simp)
  | mrtest rd rs1 => exact execMrtest_lawful h hi
  | primegen rd => exact execPrimegen_lawful h hi
  | gcd rd rs1 rs2 => exact State.finish_lawful (by simp)
  | coprime rd rs1 rs2 => exact State.finish_lawful (by simp [Instr.writesRes])
  | egcd rd rs1 rs2 => exact State.finish_lawful (by split <;> simp)
  | modinv rd rs1 rs2 => exact State.finish_lawful (by split_ifs <;> simp)
  | coprimegen rd rs1 => exact execCoprimegen_lawful h hi
  | keygen => exact execKeygen_lawful h hi
  | keyderive rs1 rs2 => exact execKeyderive_lawful h hi
  | keyderivee rs1 rs2 rs3 => exact execKeyderivee_lawful rs1 rs2 rs3
  | keyclr => exact State.finish_lawful (by simp [KeyRegs.Lawful])
  | enc rd rs1 => exact State.finish_lawful (codecResult_lawful _ _ rd _ _)
  | dec rd rs1 => exact State.finish_lawful (codecResult_lawful _ _ rd _ _)
  | b2i rd => exact State.finish_lawful (by simp)
  | i2b rs1 => exact State.finish_lawful (by simp)

/-- What the engine makes of the fetched command under the invariant. -/
theorem exec_ran {t : State} {i : Instr} (h : s.Inv) (hi : decode s.bank.cmd = .ok i)
    (ht : exec i s = .next t) : s.Ran i t := by
  obtain ⟨a, hexec, ha⟩ := exec_lawful h hi
  obtain rfl : s.advance a = t := by simpa [hexec] using ht
  exact State.advance_ran h hi ha

/-! ## Every step keeps the laws -/

theorem State.Ran.laws {t : State} {i : Instr} (hr : s.Ran i t) (h : s.Inv) :
    t.bank.Laws s.params := by
  cases hr with
  | completed rest hr =>
    exact State.complete_laws (s := { s with entropy := rest }) h.laws hr
  | failed rest => exact h.laws
  | waiting hq => exact h.laws

theorem State.Ran.controlSound {t : State} {i : Instr} (hr : s.Ran i t) (hdone : s.done = false)
    (herr : s.err = .ok) : t.controlSound = true := by
  cases hr with
  | completed rest hr => simp [State.controlSound]
  | failed rest => simp [State.controlSound]
  | waiting hq => simp [State.controlSound, hdone, herr, hq]

theorem State.Ran.params_eq {t : State} {i : Instr} (hr : s.Ran i t) : t.params = s.params := by
  cases hr <;> simp

theorem State.hostAccess_laws (h : s.bank.Laws s.params) (a : Access) :
    (s.hostAccess a).bank.Laws s.params := by
  obtain ⟨-, r, heq⟩ | ⟨v, d, r, heq, hd⟩ := s.hostAccess_cases a
  · rw [heq]
    exact Bank.reset_laws s.params s.bank.efail
  · rw [heq]
    obtain ⟨hkeys, hmont, hbar, -⟩ := State.writeTarget_keepsResults (s := s) hd
    exact h.of_same hkeys hmont hbar

theorem State.controlSound_of_idle (h : s.phase = .idle) : s.controlSound = true := by
  simp [State.controlSound, h]

theorem State.Undisturbed.controlSound {t : State} (hu : s.Undisturbed t)
    (hparams : t.params = s.params) (h : s.controlSound = true) : t.controlSound = true := by
  obtain ⟨hphase, hbank, -, herr, hdone⟩ := hu
  unfold State.controlSound at h ⊢
  rw [hphase, hbank, herr, hparams]
  cases hp : s.phase with
  | idle => rfl
  | busy snap point =>
    simp only [hp, Bool.and_eq_true, Bool.not_eq_true'] at h ⊢
    obtain ⟨⟨⟨hsnap, hd⟩, he⟩, hq⟩ := h
    exact ⟨⟨⟨hsnap, hdone hd⟩, he⟩, hq⟩

theorem State.writeTarget_controlSound {v : Word} {d : Target} (h : s.controlSound = true)
    (hd : d = .ctrl → v.getLsbD 31 = false) : (s.writeTarget v d).controlSound = true := by
  cases hp : s.phase with
  | idle =>
    obtain hidle | hstart := State.writeTarget_of_idle hp v d
    · exact State.controlSound_of_idle hidle
    · simp [hstart, State.controlSound]
  | busy snap point =>
    exact (State.writeTarget_undisturbed (by simp [State.busy, hp]) hd).controlSound
      (s.writeTarget_params v d) h

theorem State.hostAccess_controlSound (h : s.controlSound = true) (a : Access) :
    (s.hostAccess a).controlSound = true := by
  obtain ⟨-, r, heq⟩ | ⟨v, d, r, heq, hd⟩ := s.hostAccess_cases a
  · rw [heq]
    rfl
  · rw [heq]
    exact State.writeTarget_controlSound h hd

theorem State.StepsTo.laws {t : State} (hstep : s.StepsTo t) (h : s.Inv) :
    t.bank.Laws t.params := by
  cases hstep with
  | nothing rest answers => exact h.laws
  | @access rest a hs =>
    rw [State.hostAccess_params]
    exact State.hostAccess_laws (s := s.load rest s.entropy) h.laws a
  | reset hs => exact Bank.reset_laws s.params false
  | illegal rest answers => exact h.laws
  | @command rest answers w i t hw hi ht =>
    obtain ⟨rfl, -, -⟩ := h.busy_of_fetch hw
    have hr := exec_ran (h.load rest answers) hi ht
    rw [hr.params_eq]
    exact hr.laws (h.load rest answers)

theorem State.StepsTo.controlSound {t : State} (hstep : s.StepsTo t) (h : s.Inv) :
    t.controlSound = true := by
  cases hstep with
  | nothing rest answers => exact h.controlSound
  | @access rest a hs =>
    exact State.hostAccess_controlSound (s := s.load rest s.entropy) h.controlSound a
  | reset hs => rfl
  | illegal rest answers => rfl
  | @command rest answers w i t hw hi ht =>
    obtain ⟨rfl, hdone, herr⟩ := h.busy_of_fetch hw
    exact (exec_ran (h.load rest answers) hi ht).controlSound hdone herr

/-- An outstanding request is for 1 to W bits (60 R257). -/
theorem WaitPoint.width_of_inRange {width : Nat} {kv : Bool} {q : WaitPoint}
    (h : q.inRange width kv = true) : 1 ≤ q.width ∧ q.width ≤ width := by
  cases q with
  | rand rd k => simpa [WaitPoint.inRange, WaitPoint.width] using h
  | candidate s nb c => exact Search.width_legal h
  | witness use num rounds w c =>
    obtain ⟨⟨-, hnum, -, hw, hw'⟩, -⟩ := WaitPoint.inRange_witness_iff.1 h
    have hbits : bitlen (num - 2) ≤ width := bitlen_le_of_lt_two_pow (by omega)
    simp only [WaitPoint.width]
    omega
  | coprime use m nb c => exact (WaitPoint.inRange_coprime_iff.1 h).1

theorem State.request_width_of_controlSound {k : Nat} (h : s.controlSound = true)
    (hk : s.request = some k) : 1 ≤ k ∧ k ≤ s.width := by
  unfold State.request at hk
  split at hk
  · next snap q hp =>
    cases hk
    simp only [State.controlSound, hp, Bool.and_eq_true] at h
    exact WaitPoint.width_of_inRange (WaitPoint.inRange_of_sound h.2)
  · cases hk

end

/-! ## The obligations -/

/-- Settles O55: the only writes of the key registers are lawful, and a reset clears them. -/
theorem everyStepKeepsTheKeypairLaws : Obligations.EveryStepKeepsTheKeypairLaws := by
  intro s t h ht
  obtain ⟨hkey, -⟩ := (step_stepsTo ht).laws h
  exact hkey

/-- Settles O56: the only writes of the contexts are lawful, and a reset clears MV and BV. -/
theorem everyStepKeepsTheContextLaws : Obligations.EveryStepKeepsTheContextLaws := by
  intro s t h ht
  obtain ⟨-, hctx⟩ := (step_stepsTo ht).laws h
  exact hctx

/-- Settles O57: a command ends IDLE or at a wait point of its own whose draw is not blocked. -/
theorem everyStepKeepsTheControlLaws : Obligations.EveryStepKeepsTheControlLaws := by
  intro s t h ht
  have hsound := (step_stepsTo ht).controlSound h
  exact ⟨hsound, fun k => State.request_width_of_controlSound hsound⟩

end Sys2Proof.Machine
end

section
/-! PROOFS. MV and BV are never cleared between resets, RES is written by its two commands only, and
no host access but a soft reset reaches a running command (10_state R23, R25, R32 to R36). -/

namespace Sys2Proof

/-! ## The encoding of a decoded word (30_encoding R84, R85) -/

/-- A word whose reserved bits are 0 is the packing of its fields. -/
theorem packFields_fields {w : Word} (h : reservedField w = 0) :
    packFields (opcodeField w) (rdField w) (rs1Field w) (rs2Field w) (rs3Field w) = w := by
  have hres (j : Nat) (hj : j < 8) : w.getLsbD (24 + j) = false := by
    simpa [reservedField, hj] using congrArg (·.getLsbD j) h
  apply BitVec.eq_of_getLsbD_eq
  intro n hn
  simp only [getLsbD_packFields, opcodeField, rdField, rs1Field, rs2Field, rs3Field,
    BitVec.ofFin_toFin, BitVec.getLsbD_extractLsb']
  split_ifs with h8 h12 h16 h20
  · simp [h8]
  · rw [decide_eq_true (by omega), Bool.true_and, Nat.add_sub_cancel' (by omega)]
  · rw [decide_eq_true (by omega), Bool.true_and, Nat.add_sub_cancel' (by omega)]
  · rw [decide_eq_true (by omega), Bool.true_and, Nat.add_sub_cancel' (by omega)]
  · by_cases h24 : n < 24
    · rw [decide_eq_true (by omega), Bool.true_and, Nat.add_sub_cancel' (by omega)]
    · rw [decide_eq_false (by omega), Bool.false_and, ← hres (n - 24) (by omega),
        Nat.add_sub_cancel' (by omega)]

/-- A word accepted for `i`, whose encoding has the used fields and the opcode of the word. -/
theorem encode_of_ifUnusedZero {d s t u : Bool} {op : BitVec 8} {w : Word} {i j : Instr}
    (h : ifUnusedZero d s t u w i = .ok j) (hres : reservedField w = 0)
    (hop : opcodeField w = op)
    (henc : encode i = packFields op (bif d then rdField w else 0)
      (bif s then rs1Field w else 0) (bif t then rs2Field w else 0)
      (bif u then rs3Field w else 0)) : encode j = w := by
  have hfield {used : Bool} {f : Reg} (hf : used = true ∨ f = 0) :
      (bif used then f else 0) = f := by
    obtain rfl | rfl := hf
    · rfl
    · exact Bool.cond_self used 0
  obtain ⟨rfl, hd, hs, ht, hu⟩ := ifUnusedZero_eq_ok h
  rw [henc, ← hop, hfield hd, hfield hs, hfield ht, hfield hu, packFields_fields hres]

/-- A word that decodes to a command is that command's encoding. -/
theorem encode_of_decode {w : Word} {i : Instr} (h : decode w = .ok i) : encode i = w := by
  unfold decode at h
  split at h
  · cases h
  · next hres =>
    have hres := not_not.1 hres
    generalize hop : opcodeField w = op at h
    unfold decodeOpcode at h
    split at h
    case h_14 =>
      dsimp only at h
      split at h
      · cases h
      · exact encode_of_ifUnusedZero h hres hop rfl
    case h_25 => cases h
    all_goals exact encode_of_ifUnusedZero h hres hop rfl

end Sys2Proof

namespace Sys2Proof.Machine

/-! ## MV, BV and RES (10_state R25, R32 to R34) -/

/-- MV and BV are not cleared. -/
def Bank.KeepsFlags (b c : Bank) : Prop :=
  (b.mv = true → c.mv = true) ∧ (b.bv = true → c.bv = true)

theorem Bank.KeepsFlags.refl (b : Bank) : b.KeepsFlags b := ⟨id, id⟩

theorem Bank.KeepsFlags.trans {b c d : Bank} (h : b.KeepsFlags c) (h' : c.KeepsFlags d) :
    b.KeepsFlags d := by
  obtain ⟨hmv, hbv⟩ := h
  obtain ⟨hmv', hbv'⟩ := h'
  exact ⟨hmv' ∘ hmv, hbv' ∘ hbv⟩

theorem State.KeepsResults.keepsFlags {s t : State} (h : s.KeepsResults t) :
    s.bank.KeepsFlags t.bank := by
  obtain ⟨-, ⟨-, hmv⟩, ⟨-, hbv⟩, -⟩ := h
  exact ⟨hmv.trans, hbv.trans⟩

theorem State.applyWrite_keepsFlags (s : State) (w : Write) :
    s.bank.KeepsFlags (s.applyWrite w).bank := by
  cases w with
  | mont c => exact ⟨fun _ => rfl, id⟩
  | bar c => exact ⟨id, fun _ => rfl⟩
  | x _ _ | res _ | key _ _ | mbuf _ | mlen _ => exact .refl _

theorem State.applyWrites_keepsFlags (ws : List Write) (s : State) :
    s.bank.KeepsFlags (ws.foldl State.applyWrite s).bank := by
  induction ws generalizing s with
  | nil => exact .refl _
  | cons w ws ih => exact (s.applyWrite_keepsFlags w).trans (ih (s.applyWrite w))

theorem State.complete_keepsFlags (s : State) (r : Result) :
    s.bank.KeepsFlags (s.complete r).bank := by
  cases r with
  | ok ws => exact State.applyWrites_keepsFlags ws s
  | raise e => exact .refl _

theorem State.advance_keepsFlags (s : State) (a : Advance) :
    s.bank.KeepsFlags (s.advance a).bank := by
  obtain ⟨r, rest, h, -⟩ | ⟨rest, h, -⟩ | ⟨q, h, -⟩ := s.advance_cases a
  · rw [h]
    exact State.complete_keepsFlags { s with entropy := rest } r
  · rw [h]
    exact .refl _
  · rw [h]
    exact .refl _

theorem State.finish_eq_advance (s : State) (r : Result) :
    ∃ a, s.finish r = .next (s.advance a) :=
  ⟨.done r, rfl⟩

theorem State.sample_eq_advance (s : State) (start : Advance) :
    ∃ a, s.sample start = .next (s.advance a) :=
  ⟨s.resume start, rfl⟩

/-- Every command runs a rule, to its end or to a draw. -/
theorem exec_eq_advance (i : Instr) (s : State) : ∃ a, exec i s = .next (s.advance a) := by
  cases i with
  | rand _ | mrtest _ _ | primegen _ | coprimegen _ _ | keygen | keyderive _ _ =>
    exact s.sample_eq_advance _
  | nop | montsetup _ | montmul _ _ _ | montin _ _ | montout _ _ | barsetup _ | barred _ _
  | modexp _ _ _ _ | gcd _ _ _ | coprime _ _ _ | egcd _ _ _ | modinv _ _ _
  | keyderivee _ _ _ | keyclr | enc _ _ | dec _ _ | b2i _ | i2b _ => exact s.finish_eq_advance _

section
variable {s t : State}

theorem exec_keepsFlags {i : Instr} (h : exec i s = .next t) : s.bank.KeepsFlags t.bank := by
  obtain ⟨a, ha⟩ := exec_eq_advance i s
  obtain rfl : s.advance a = t := by simpa [ha] using h
  exact s.advance_keepsFlags a

theorem State.applyWrites_res_of_lawful {width : Nat} {i : Instr} {ws : List Write}
    (hi : i.writesRes = false) (hws : ∀ w ∈ ws, w.Lawful width i) :
    (ws.foldl State.applyWrite s).res = s.res := by
  induction ws generalizing s with
  | nil => rfl
  | cons w ws ih =>
    obtain ⟨hw, hws⟩ := List.forall_mem_cons.1 hws
    rw [List.foldl_cons, ih hws]
    cases w with
    | res v => simp [hi] at hw
    | x _ _ | key _ _ | mont _ | bar _ | mbuf _ | mlen _ => rfl

theorem State.Ran.res_eq {i : Instr} (hr : s.Ran i t) (hi : i.writesRes = false) :
    t.res = s.res := by
  cases hr with
  | @completed r rest hr =>
    cases r with
    | ok ws => exact State.applyWrites_res_of_lawful (s := { s with entropy := rest }) hi hr
    | raise e => rfl
  | failed rest => rfl
  | waiting hq => rfl

theorem State.hostAccess_keepsResults {a : Access} (h : a.softResets = false) :
    s.KeepsResults (s.hostAccess a) := by
  obtain ⟨hreset, -⟩ | ⟨v, d, r, heq, hd⟩ := s.hostAccess_cases a
  · rw [h] at hreset
    cases hreset
  · rw [heq]
    exact State.writeTarget_keepsResults (s := s) hd

theorem State.hostAccess_undisturbed {a : Access} (hb : s.busy = true)
    (h : a.softResets = false) : s.Undisturbed (s.hostAccess a) := by
  obtain ⟨hreset, -⟩ | ⟨v, d, r, heq, hd⟩ := s.hostAccess_cases a
  · rw [h] at hreset
    cases hreset
  · rw [heq]
    exact State.writeTarget_undisturbed (s := s) hb hd

theorem State.StepsTo.keepsFlags (hstep : s.StepsTo t) (hreset : s.resetComing = false)
    (hsoft : s.softResetComing = false) : s.bank.KeepsFlags t.bank := by
  cases hstep with
  | nothing rest answers => exact .refl _
  | @access rest a hs =>
    rw [State.softResetComing_eq hs] at hsoft
    exact (State.hostAccess_keepsResults (s := s.load rest s.entropy) hsoft).keepsFlags
  | reset hs => simp [State.resetComing, hs] at hreset
  | illegal rest answers => exact .refl _
  | @command rest answers w i t hw hi ht => exact exec_keepsFlags (s := s.load rest answers) ht

/-- The word fetched belongs to no command that writes RES. -/
theorem writesRes_eq_false {w : Word} {i : Instr} (hi : decode w = .ok i)
    (hmr : ∀ rd rs1 : Reg, w ≠ encode (.mrtest rd rs1))
    (hco : ∀ rd rs1 rs2 : Reg, w ≠ encode (.coprime rd rs1 rs2)) : i.writesRes = false := by
  have henc := encode_of_decode hi
  unfold Instr.writesRes
  split
  · next rd rs1 => exact absurd henc.symm (hmr rd rs1)
  · next rd rs1 rs2 => exact absurd henc.symm (hco rd rs1 rs2)
  · rfl

theorem State.StepsTo.res_eq (hstep : s.StepsTo t) (h : s.Inv)
    (hreset : s.resetComing = false) (hsoft : s.softResetComing = false)
    (hres : ∀ w i, s.fetch = some w → decode w = .ok i → i.writesRes = false) :
    t.res = s.res := by
  cases hstep with
  | nothing rest answers => rfl
  | @access rest a hs =>
    rw [State.softResetComing_eq hs] at hsoft
    obtain ⟨-, -, -, heq⟩ := State.hostAccess_keepsResults (s := s.load rest s.entropy) hsoft
    exact heq
  | reset hs => simp [State.resetComing, hs] at hreset
  | illegal rest answers => rfl
  | @command rest answers w i t hw hi ht =>
    have hfalse := hres w i hw hi
    obtain ⟨rfl, -, -⟩ := h.busy_of_fetch hw
    exact (exec_ran (h.load rest answers) hi ht).res_eq hfalse

end

/-! ## The obligations -/

/-- Settles O40: only the contexts' own writes touch MV and BV, and they set them; RES is written
by a command that may, and the word of such a command is its encoding. -/
theorem flagsChangeOnlyByTheirCommands : Obligations.FlagsChangeOnlyByTheirCommands := by
  intro s t ht hreset hsoft
  obtain ⟨hmv, hbv⟩ := (step_stepsTo ht).keepsFlags hreset hsoft
  refine ⟨hmv, hbv, fun h hmr hco => (step_stepsTo ht).res_eq h hreset hsoft ?_⟩
  intro w i hw hi
  exact writesRes_eq_false hi (fun rd rs1 heq => hmr rd rs1 (heq ▸ hw))
    (fun rd rs1 rs2 heq => hco rd rs1 rs2 (heq ▸ hw))

/-- Settles O42: a host access while BUSY is a read, a soft reset, or a write that is dropped or
reaches status and control bits only. -/
theorem hostCannotDisturbARunningCommand : Obligations.HostCannotDisturbARunningCommand := by
  intro s t a rest hs hb hsoft ht
  obtain rfl : State.hostAccess { s with schedule := rest } a = t := by
    simpa [step, hs, eventStep] using ht
  rw [State.softResetComing_eq hs] at hsoft
  obtain ⟨hphase, hbank, hres, herr, -⟩ :=
    State.hostAccess_undisturbed (s := { s with schedule := rest }) hb hsoft
  exact ⟨hphase, hbank, hres, herr, by simp, by simp⟩

end Sys2Proof.Machine
end

section
/-! PROOFS. What the host reads and writes, word by word (10_state R22 to R31, 20_memory R61 to
R63), the state after reset, and the command a step runs. -/

namespace Sys2Proof.Machine

/-! ## A step that is a host access (20_memory R61) -/

section
variable {s : State} {offset : BitVec 15} {rest : List Event}

theorem badAccess_eq_false (h : offset.toNat % 4 = 0) : badAccess offset 4 = false := by
  simp [badAccess, h]

theorem State.readTarget_schedule (s : State) (rest : List Event) (d : Target) :
    State.readTarget { s with schedule := rest } d = s.readTarget d := by
  cases d <;> rfl

/-- A read of a word of the map returns the word and changes the bus's response only. -/
theorem step_read (d : Target) (hs : s.schedule = .host (.read offset 4) :: rest)
    (halign : offset.toNat % 4 = 0) (hd : busTarget s.params.words offset.toNat = d) :
    step s = .next { s with schedule := rest, response := some ⟨s.readTarget d, false⟩ } := by
  subst hd
  simp only [step, hs, eventStep, State.hostAccess, badAccess_eq_false halign,
    Bool.false_eq_true, if_false, State.readTarget_schedule]

/-- A write of a word of the map does what its target says. -/
theorem step_write (d : Target) {v : Word} {t : State}
    (hs : s.schedule = .host (.write offset 4 v) :: rest) (halign : offset.toNat % 4 = 0)
    (hd : busTarget s.params.words offset.toNat = d)
    (ht : State.writeTarget { s with schedule := rest } v d = t) :
    step s = .next { t with response := some ⟨0, false⟩ } := by
  subst hd ht
  simp only [step, hs, eventStep, State.hostAccess, badAccess_eq_false halign,
    Bool.false_eq_true, if_false]

/-! ## The control words (10_state R24 to R26) -/

theorem State.writeTarget_cmd_of_idle (h : s.phase = .idle) (v : Word) :
    s.writeTarget v .cmd = s.start v := by
  simp [State.writeTarget, State.busy_of_idle h]

theorem State.writeTarget_cmd_of_busy (h : s.busy = true) (v : Word) :
    s.writeTarget v .cmd = { s with cmdLost := true } := by
  simp [State.writeTarget, h]

end

theorem State.writeCtrl_eq (s : State) (v : Word) :
    s.writeCtrl v = { s with
      ie := v.getLsbD 0
      bank := { s.bank with chk := if s.busy then s.bank.chk else v.getLsbD 1 } } := by
  unfold State.writeCtrl
  split <;> rfl

/-- The bits of a word whose lowest bit is a flag. -/
theorem getLsbD_append_flagBit {k : Nat} (x : BitVec k) (b : Bool) (n : Nat) :
    (x ++ flagBit b).getLsbD n = if n = 0 then b else x.getLsbD (n - 1) := by
  rw [flagBit, BitVec.getLsbD_append]
  by_cases hn : n = 0
  · simp [hn]
  · rw [if_neg (by omega), if_neg hn]

theorem State.acknowledge_eq (s : State) (v : Word) :
    s.acknowledge v = { s with
      done := if v.getLsbD 1 then false else s.done
      ign := if v.getLsbD 12 then false else s.ign
      cmdLost := if v.getLsbD 13 then false else s.cmdLost } := by
  have hclear (b c : Bool) : (b && !c) = if c then false else b := by cases c <;> simp
  simp only [State.acknowledge, hclear]

theorem zero_eq_flagBit : (0 : BitVec 1) = flagBit false := rfl

/-- The bits of a word whose lowest four bits are a code. -/
theorem getLsbD_append_code {k : Nat} (x : BitVec k) (c : BitVec 4) (n : Nat) :
    (x ++ c).getLsbD n = if n < 4 then c.getLsbD n else x.getLsbD (n - 4) :=
  BitVec.getLsbD_append

/-- ERR is bits 11 to 8 of STATUS (R25). -/
theorem State.statusWord_err (s : State) : s.statusWord.extractLsb' 8 4 = s.err.code := by
  apply BitVec.eq_of_getLsbD_eq
  intro n hn
  rw [BitVec.getLsbD_extractLsb', decide_eq_true hn, Bool.true_and, Nat.add_comm]
  simp only [State.statusWord, zero_eq_flagBit, getLsbD_append_flagBit, getLsbD_append_code]
  exact if_pos hn

/-! ## The windows of wide registers (R62, R63) -/

/-- The number of a read-only window, counted from 0x5000 in steps of 0x400 (R62). -/
def RoWindow.number : RoWindow → Nat
  | .kn => 0
  | .ke => 1
  | .kd => 2
  | .mctxN => 3
  | .mctxNp => 4
  | .mctxR2 => 5
  | .bctxN => 6
  | .bctxMu => 7

theorem busTarget_wide {words n k : Nat} (hk : k < 256) :
    busTarget words (0x5000 + 0x400 * n + 4 * k) = wideTarget words n k := by
  have hword : (0x5000 + 0x400 * n + 4 * k) % 0x400 / 4 = k := by omega
  have hnumber : (0x5000 + 0x400 * n + 4 * k - 0x5000) / 0x400 = n := by omega
  simp only [busTarget, hword, hnumber]
  rw [if_neg (by omega), if_neg (by omega)]

/-- Word k of a read-only window is where R62 says; BCTX_MU has one word more. -/
theorem busTarget_ro {words k : Nat} (w : RoWindow) (hwords : words ≤ 128)
    (hk : k < words ∨ (w = .bctxMu ∧ k = words)) :
    busTarget words (0x5000 + 0x400 * w.number + 4 * k) = .ro w k := by
  rw [busTarget_wide (by omega)]
  cases w with
  | bctxMu => exact if_pos (by omega)
  | kn | ke | kd | mctxN | mctxNp | mctxR2 | bctxN => exact if_pos (by simpa using hk)

theorem paramWord_eq {p : Params} (hp : p.Legal) :
    paramWord p = BitVec.ofNat 32 (2 ^ 24 + 16 * 2 ^ 16 + p.width) := by
  obtain ⟨-, hwords⟩ := hp
  have hwidth : p.width < 2 ^ 16 := by
    rw [Params.width]
    omega
  apply BitVec.eq_of_toNat_eq
  simp only [paramWord, Config.interfaceVersion, Config.registerCount, BitVec.toNat_append,
    BitVec.toNat_ofNat, Nat.mod_eq_of_lt hwidth]
  rw [← Nat.shiftLeft_add_eq_or_of_lt hwidth, Nat.mod_eq_of_lt (by omega)]
  rfl

theorem two_pow_word_succ (k : Nat) : 2 ^ (32 * (k + 1)) = 2 ^ 32 * 2 ^ (32 * k) := by
  rw [Nat.mul_succ, Nat.add_comm, Nat.pow_add]

/-- Replacing word k leaves the words below it. -/
theorem setWord_mod (v k : Nat) (d : Word) : setWord v k d % 2 ^ (32 * k) = v % 2 ^ (32 * k) := by
  rw [setWord, two_pow_word_succ, ← mul_assoc, ← add_mul, Nat.mul_add_mod_self_right, Nat.mod_mod]

/-- Replacing word k leaves the words above it. -/
theorem setWord_div (v k : Nat) (d : Word) :
    setWord v k d / 2 ^ (32 * (k + 1)) = v / 2 ^ (32 * (k + 1)) := by
  have hlow : d.toNat * 2 ^ (32 * k) + v % 2 ^ (32 * k) < 2 ^ (32 * (k + 1)) := by
    have := assembled_lt (high := 0) (highBound := 1) one_pos d.isLt
      (Nat.mod_lt v (Nat.two_pow_pos (32 * k)))
    rwa [zero_mul, zero_add, one_mul, ← two_pow_word_succ] at this
  rw [setWord, add_assoc, mul_comm, Nat.mul_add_div (Nat.two_pow_pos _), Nat.div_eq_of_lt hlow,
    add_zero]

/-- R63: every other word reads as before. -/
theorem setWord_of_ne {v k j : Nat} (d : Word) (h : j ≠ k) :
    setWord v k d / 2 ^ (32 * j) % 2 ^ 32 = v / 2 ^ (32 * j) % 2 ^ 32 := by
  obtain hlt | hlt := Nat.lt_or_gt_of_ne h
  · have hmod (x : Nat) :
        x / 2 ^ (32 * j) % 2 ^ 32 = x % 2 ^ (32 * k) / 2 ^ (32 * j) % 2 ^ 32 := by
      rw [← Nat.mod_mul_right_div_self, ← Nat.mod_mul_right_div_self, ← pow_add,
        Nat.mod_mod_of_dvd _ (pow_dvd_pow 2 (by omega))]
    rw [hmod, setWord_mod, ← hmod]
  · have hdiv (x : Nat) : x / 2 ^ (32 * j) = x / 2 ^ (32 * (k + 1)) / 2 ^ (32 * (j - (k + 1))) := by
      rw [Nat.div_div_eq_div_mul, ← pow_add, ← mul_add, Nat.add_sub_cancel' hlt]
    rw [hdiv, setWord_div, ← hdiv]

theorem setWord_words (v k : Nat) (d : Word) (j : Nat) :
    setWord v k d / 2 ^ (32 * j) % 2 ^ 32
      = if j = k then d.toNat else v / 2 ^ (32 * j) % 2 ^ 32 := by
  split
  · next h => rw [h, setWord_same]
  · next h => exact setWord_of_ne d h

/-! ## An engine step (70_reset_and_hazards R279) -/

/-- A command word placed by `withFetchWord` is the word of its 32 bits. -/
theorem State.withFetchWord_toNat (s : State) (w : Word) :
    s.withFetchWord 32 w.toNat = s.withCommand w := by
  rw [State.withFetchWord, Nat.mod_eq_of_lt w.isLt, BitVec.ofNat_toNat, BitVec.setWidth_eq]

theorem engineStep_of_fetch {s : State} {w : Word} {i : Instr} (hw : s.fetch = some w)
    (hi : decode w = .ok i) : engineStep s = exec i s := by
  simp [engineStep, hw, hi]

theorem answerStep_of_waiting {s : State} (a : Answer) (h : s.waiting = true) :
    answerStep a s = engineStep { s with entropy := a :: s.entropy } := by
  unfold State.waiting at h
  split at h
  · next hp => simp [answerStep, State.request, hp]
  · cases h

/-! ## The obligations -/

/-- Settles O45: the eight bases are those of the read-only windows. -/
theorem readOnlyWordsReadTheirRegisters : Obligations.ReadOnlyWordsReadTheirRegisters := by
  intro s offset rest hlegal hs
  refine ⟨?_, ?_, ?_, ?_⟩
  · rintro rfl
    exact step_read .id hs rfl rfl
  · rintro rfl
    rw [step_read .param hs rfl rfl, State.readTarget, paramWord_eq hlegal]
    rfl
  · rintro rfl
    exact step_read .bctxK hs rfl rfl
  · intro base value k hmem hk hoff
    obtain ⟨w, rfl, rfl⟩ : ∃ w : RoWindow,
        base = 0x5000 + 0x400 * w.number ∧ value = s.bank.roValue w := by
      simp only [List.mem_cons, Prod.mk.injEq, List.not_mem_nil, or_false] at hmem
      obtain h | h | h | h | h | h | h | h := hmem
      · exact ⟨.kn, h⟩
      · exact ⟨.ke, h⟩
      · exact ⟨.kd, h⟩
      · exact ⟨.mctxN, h⟩
      · exact ⟨.mctxNp, h⟩
      · exact ⟨.mctxR2, h⟩
      · exact ⟨.bctxN, h⟩
      · exact ⟨.bctxMu, h⟩
    have hk' : k < s.params.words ∨ (w = .bctxMu ∧ k = s.params.words) := by
      refine hk.imp_right fun ⟨hbase, hkw⟩ => ⟨?_, hkw⟩
      cases w <;> simp [RoWindow.number] at hbase ⊢
    exact step_read (.ro w k) hs (by omega) (by rw [hoff]; exact busTarget_ro w hlegal.2 hk')

/-- Settles O46: the write is setWord on X[i], which replaces one word. -/
theorem operandWordIsStoredAndRead : Obligations.OperandWordIsStoredAndRead := by
  intro s i k v rest ⟨hlo, hwords⟩ hk
  have hx := xOffset_toNat i (hk.trans_le hwords)
  have htarget : busTarget s.params.words (xOffset i k).toNat = .x i k := by
    rw [hx]
    exact busTarget_x i hwords hk
  refine ⟨fun hs hidle => ?_, fun hs => step_read (.x i k) hs (by omega) htarget⟩
  refine ⟨_, (step_write (.x i k) hs (by omega) htarget (State.writeIdle_of_idle _ hidle) :),
    ?_, ?_, ?_, rfl⟩
  · intro j
    dsimp only
    rw [Bank.readX_writeX_same, setWord_words]
  · intro hv
    dsimp only
    rw [Bank.readX_writeX_same]
    exact setWord_lt v hv hk
  · intro r hr
    exact Bank.readX_writeX_of_ne s.bank _ hr

/-- Settles O49: each of the five is a write that needs IDLE. -/
theorem operandWritesWhileBusyAreDropped : Obligations.OperandWritesWhileBusyAreDropped := by
  intro s offset v rest i k ⟨hlo, hwords⟩ hbusy hk hoff hs
  have hx := xOffset_toNat i (hk.trans_le hwords)
  obtain rfl | rfl | rfl | rfl | hoff := hoff
  · exact (step_write (.x i k) hs (by omega) (by rw [hx]; exact busTarget_x i hwords hk)
      (State.writeIdle_of_busy _ hbusy) :)
  · exact (step_write .arg hs rfl rfl (State.writeIdle_of_busy _ hbusy) :)
  · exact (step_write .retryCap hs rfl rfl (State.writeIdle_of_busy _ hbusy) :)
  · exact (step_write .mlen hs rfl rfl (State.writeIdle_of_busy _ hbusy) :)
  · exact (step_write (.mbuf k) hs (by omega) (by rw [hoff]; exact busTarget_mbuf hwords hk)
      (State.writeIdle_of_busy _ hbusy) :)

/-- Settles O4: each of the three ways to move the engine is an engine step, and it fetches w. -/
theorem stepRunsTheDecodedCommand : Obligations.StepRunsTheDecodedCommand := by
  intro s w i hi
  refine ⟨fun hw => ⟨fun rest hs => ?_, fun hs => ?_, fun a rest hs hwait => ?_⟩, ?_⟩
  · rw [step, hs]
    exact engineStep_of_fetch (s := { s with schedule := rest }) hw hi
  · rw [step, hs]
    exact engineStep_of_fetch hw hi
  · rw [step, hs]
    exact (answerStep_of_waiting (s := { s with schedule := rest }) a hwait).trans
      (engineStep_of_fetch (s := { s with schedule := rest, entropy := a :: s.entropy }) hw hi)
  · rw [State.withFetchWord_toNat]
    exact engineStep_of_fetch (s := s.start w) rfl hi

/-- Settles O6: CMD is one word of the map, whose write starts a command or is dropped. -/
theorem cmdWriteStartsACommand : Obligations.CmdWriteStartsACommand := by
  intro s v rest
  refine ⟨fun hs hidle => ?_, fun hs hbusy => ?_, fun hs => step_read .cmd hs rfl rfl⟩
  · exact (step_write .cmd hs rfl rfl
      (State.writeTarget_cmd_of_idle (s := { s with schedule := rest }) hidle v) :)
  · exact (step_write .cmd hs rfl rfl
      (State.writeTarget_cmd_of_busy (s := { s with schedule := rest }) hbusy v) :)

/-- Settles O9: the status word bit by bit, and a write as an acknowledgement. -/
theorem statusIsReadAndAcknowledged : Obligations.StatusIsReadAndAcknowledged := by
  intro s v rest
  refine ⟨fun hs => ⟨s.statusWord, step_read .status hs rfl rfl, ?_⟩,
    fun hs => (step_write .status hs rfl rfl (State.acknowledge_eq _ v) :)⟩
  rw [State.statusWord_err]
  simp only [State.statusWord, zero_eq_flagBit, getLsbD_append_flagBit, getLsbD_append_code]
  refine ⟨rfl, rfl, rfl, rfl, rfl, rfl, rfl, rfl, by cases s.err <;> rfl, rfl, rfl, ?_⟩
  intro n hn
  obtain ⟨m, rfl⟩ := Nat.exists_eq_add_of_le' hn
  exact BitVec.getLsbD_zero

/-- Settles O48: each of the three is one word of the map, written in IDLE. -/
theorem scalarRegistersAreStoredAndRead : Obligations.ScalarRegistersAreStoredAndRead := by
  intro s v rest
  refine ⟨fun hidle => ⟨fun hs => ?_, fun hs => ?_, fun hs => ?_⟩,
    fun hs => step_read .arg hs rfl rfl, fun hs => step_read .retryCap hs rfl rfl,
    fun hs => step_read .mlen hs rfl rfl⟩
  · exact (step_write .arg hs rfl rfl (State.writeIdle_of_idle _ hidle) :)
  · exact (step_write .retryCap hs rfl rfl (State.writeIdle_of_idle _ hidle) :)
  · have hbytes : s.width / 8 = s.params.bytes := by
      rw [State.width, Params.width_eq_bytes]
      omega
    rw [hbytes]
    exact (step_write .mlen hs rfl rfl (State.writeIdle_of_idle _ hidle) :)

/-- Settles O50: a write without SRST is writeCtrl, and a read is the word of its two flags. -/
theorem ctrlWriteStoresEnableAndCheck : Obligations.CtrlWriteStoresEnableAndCheck := by
  intro s v rest
  refine ⟨fun hs hv => ?_, fun hs => ⟨s.ctrlWord, ?_, ?_, ?_, step_read .ctrl hs rfl rfl⟩⟩
  · exact (step_write .ctrl hs rfl rfl
      ((State.writeTarget_ctrl hv).trans (State.writeCtrl_eq _ v)) :)
  · simp only [State.ctrlWord, getLsbD_append_flagBit]
    rfl
  · simp only [State.ctrlWord, getLsbD_append_flagBit]
    rfl
  · intro n hn
    simp only [State.ctrlWord, getLsbD_append_flagBit]
    rw [if_neg (by omega), if_neg (by omega)]
    exact BitVec.getLsbD_zero

/-- Settles O53: the reset bank fits and obeys the laws with KV, MV and BV at 0. -/
theorem resetMeetsTheInvariant : Obligations.ResetMeetsTheInvariant := by
  have hreset (p : Params) (hp : p.Legal) : (State.resetOf p).Inv :=
    have ⟨hkey, hctx⟩ := Bank.reset_laws p false
    ⟨hp, Bank.reset_fits p false, hkey, hctx, rfl⟩
  exact ⟨hreset, hreset Params.reference (by decide)⟩

end Sys2Proof.Machine
end

section
/-! PROOFS. Host accesses without effect: a bad access, any read (20_memory R61, R67), and a write
of a read-only or unmapped word (R65). Then the byte lanes of a word of MBUF (R64). -/

namespace Sys2Proof.Machine

/-! ## Accesses without effect (20_memory R61, R67) -/

section
variable {s : State} {offset : BitVec 15} {bytes : Nat} {rest : List Event}

theorem badAccess_eq_true (h : bytes ≠ 4 ∨ offset.toNat % 4 ≠ 0) :
    badAccess offset bytes = true := decide_eq_true h

theorem State.hostAccess_read_of_bad (h : badAccess offset bytes = true) :
    s.hostAccess (.read offset bytes) = { s with response := some ⟨0, true⟩ } := if_pos h

theorem State.hostAccess_write_of_bad (h : badAccess offset bytes = true) (v : Word) :
    s.hostAccess (.write offset bytes v) = { s with response := some ⟨0, true⟩ } := if_pos h

/-- R67: a read, bad or not, changes the bus's response only. -/
theorem State.hostAccess_read (s : State) (offset : BitVec 15) (bytes : Nat) :
    ∃ r, s.hostAccess (.read offset bytes) = { s with response := some r } := by
  rw [State.hostAccess]
  split <;> exact ⟨_, rfl⟩

theorem step_host {a : Access} (hs : s.schedule = .host a :: rest) :
    step s = .next (State.hostAccess { s with schedule := rest } a) := by
  rw [step, hs]
  rfl

end

/-! ## Words the map does not hold (20_memory R65) -/

theorem controlTarget_of_ge {offset : Nat} (h : 0x24 ≤ offset) :
    controlTarget offset = .unmapped := by
  unfold controlTarget
  split
  iterate 9 omega
  rfl

/-- Beyond the words of X[n] nothing is mapped. -/
theorem busTarget_x_beyond {words n k : Nat} (hn : n < 16) (hk : k < 256) (hw : words ≤ k) :
    busTarget words (0x1000 + 0x400 * n + 4 * k) = .unmapped := by
  have hword : (0x1000 + 0x400 * n + 4 * k) % 0x400 / 4 = k := by omega
  simp only [busTarget, hword]
  rw [if_neg (by omega), if_pos (by omega), if_neg (by omega)]

/-- Beyond the words of a wide window nothing is mapped; BCTX_MU, window 7, has one word more. -/
theorem wideTarget_beyond {words window k : Nat}
    (h : if window = 7 then words + 1 ≤ k else words ≤ k) :
    wideTarget words window k = .unmapped := by
  unfold wideTarget
  split
  case h_10 => rfl
  all_goals exact if_neg (by simpa using h)

theorem wideTarget_of_ge {window : Nat} (words k : Nat) (h : 9 ≤ window) :
    wideTarget words window k = .unmapped := by
  unfold wideTarget
  split
  iterate 9 omega
  rfl

/-- From 0x5000 on, the map is the wide windows, whatever the lowest bits of the offset. -/
theorem busTarget_of_ge {words offset : Nat} (h : 0x5000 ≤ offset) :
    busTarget words offset
      = wideTarget words ((offset - 0x5000) / 0x400) (offset % 0x400 / 4) := by
  simp only [busTarget]
  rw [if_neg (by omega), if_neg (by omega)]

/-- Word k of the window of 0x400 bytes with number n from 0x1000 on, at or beyond its size. -/
theorem busTarget_window_beyond {words n k : Nat} (hk : k < 256)
    (h : if n = 23 then words + 1 ≤ k else words ≤ k) :
    busTarget words (0x1000 + 0x400 * n + 4 * k) = .unmapped := by
  obtain hn | hn := Nat.lt_or_ge n 16
  · exact busTarget_x_beyond hn hk (by rwa [if_neg (by omega)] at h)
  · obtain ⟨m, rfl⟩ := Nat.exists_eq_add_of_le hn
    have hoff : 0x1000 + 0x400 * (16 + m) + 4 * k = 0x5000 + 0x400 * m + 4 * k := by omega
    rw [hoff, busTarget_wide hk]
    apply wideTarget_beyond
    split_ifs at h ⊢ <;> omega

/-! ## Words no write changes (20_memory R62, R65) -/

/-- The words of the map that ignore writes (R62, R65). -/
def Target.readOnly : Target → Bool
  | .id | .param | .bctxK | .ro _ _ | .unmapped => true
  | .ctrl | .status | .cmd | .arg | .retryCap | .mlen | .x _ _ | .mbuf _ => false

theorem State.writeTarget_of_readOnly {d : Target} (h : d.readOnly = true) (s : State) (v : Word) :
    s.writeTarget v d = s := by
  cases d with
  | id | param | bctxK | ro _ _ | unmapped => rfl
  | ctrl | status | cmd | arg | retryCap | mlen | x _ _ | mbuf _ => cases h

theorem wideTarget_readOnly {window : Nat} (words k : Nat) (h : window < 8) :
    (wideTarget words window k).readOnly = true := by
  unfold wideTarget
  split
  case h_9 => omega
  case h_10 => rfl
  all_goals split <;> rfl

/-- ID, PARAM, BCTX_K and the windows from 0x5000 to 0x6FFC ignore writes. -/
theorem busTarget_readOnly {words offset : Nat} (halign : offset % 4 = 0)
    (h : offset < 8 ∨ offset = 0x20 ∨ (0x5000 ≤ offset ∧ offset < 0x7000)) :
    (busTarget words offset).readOnly = true := by
  obtain hlt | rfl | ⟨hlo, hhi⟩ := h
  · obtain rfl | rfl : offset = 0 ∨ offset = 4 := by omega
    · rfl
    · rfl
  · rfl
  · rw [busTarget_of_ge hlo]
    exact wideTarget_readOnly _ _ (by omega)

/-! ## The byte lanes of a word of MBUF (20_memory R64) -/

/-- Byte b of a bus word is its bits [8b+7:8b]. -/
theorem wordBytes_getElem (v : Word) {b : Nat} (hb : b < (wordBytes v).length) :
    (wordBytes v)[b] = v.extractLsb' (8 * b) 8 := by
  match b, hb with
  | 0, _ | 1, _ | 2, _ | 3, _ => rfl

/-- The lowest lane of joined bytes is the last one. -/
theorem lane_zero_append {k : Nat} (x : BitVec k) (c : Byte) : (x ++ c).extractLsb' 0 8 = c :=
  (BitVec.extractLsb'_append_eq_of_add_le le_rfl).trans BitVec.extractLsb'_eq_self

/-- The lanes above it are those of the bytes before. -/
theorem lane_succ_append {k : Nat} (x : BitVec k) (c : Byte) (b : Nat) :
    (x ++ c).extractLsb' (8 * (b + 1)) 8 = x.extractLsb' (8 * b) 8 :=
  BitVec.extractLsb'_append_eq_of_le (Nat.le_add_left 8 (8 * b))

/-- A read of bus word j shows byte 4j+b in bits [8b+7:8b]. -/
theorem Memory.busWord_lane (m : Memory) (j : Nat) {b : Nat} (hb : b < 4) :
    (m.busWord j).extractLsb' (8 * b) 8 = m.read (4 * j + b) := by
  match b, hb with
  | 0, _ => exact lane_zero_append _ _
  | 1, _ => exact (lane_succ_append _ _ 0).trans (lane_zero_append _ _)
  | 2, _ =>
    exact (lane_succ_append _ _ 1).trans ((lane_succ_append _ _ 0).trans (lane_zero_append _ _))
  | 3, _ =>
    exact (lane_succ_append _ _ 2).trans ((lane_succ_append _ _ 1).trans
      ((lane_succ_append _ _ 0).trans BitVec.extractLsb'_eq_self))

/-! ## The obligations -/

/-- Settles O43: a bad access only answers with an error, and no read writes the state. -/
theorem badAccessesAndReadsChangeNothing : Obligations.BadAccessesAndReadsChangeNothing := by
  intro s offset bytes v rest
  refine ⟨fun hbad hs => ?_, fun hs => ?_⟩
  · have hbad := badAccess_eq_true hbad
    obtain hs | hs := hs
    · rw [step_host hs, State.hostAccess_read_of_bad hbad]
    · rw [step_host hs, State.hostAccess_write_of_bad hbad]
  · obtain ⟨r, hr⟩ := State.hostAccess_read { s with schedule := rest } offset bytes
    exact ⟨r, by rw [step_host hs, hr]⟩

/-- Settles O44: the map sends each of the offsets to no word, or to a word that ignores writes. -/
theorem unmappedAndReadOnlyWordsIgnoreWrites :
    Obligations.UnmappedAndReadOnlyWordsIgnoreWrites := by
  intro s offset v rest n k _ halign
  refine ⟨fun hoff => ?_, fun hoff hs => ?_⟩
  · have htarget : busTarget s.params.words offset.toNat = .unmapped := by
      obtain ⟨hlo, hhi⟩ | ⟨heq, hk, -, hbeyond⟩ | hhigh := hoff
      · rw [busTarget, if_pos hhi, controlTarget_of_ge hlo]
      · rw [heq, busTarget_window_beyond hk hbeyond]
      · rw [busTarget_of_ge (by omega), wideTarget_of_ge _ _ (by omega)]
    exact ⟨fun hs => step_read .unmapped hs halign htarget,
      fun hs => (step_write .unmapped hs halign htarget rfl :)⟩
  · exact (step_write _ hs halign rfl
      (State.writeTarget_of_readOnly (busTarget_readOnly halign hoff) _ v) :)

/-- Settles O47: the write stores the word's four bytes in lane order, and the read joins them. -/
theorem messageWordIsFourBytesLittleEndian : Obligations.MessageWordIsFourBytesLittleEndian := by
  intro s offset j v rest ⟨_, hwords⟩ hj hoff hwf
  have htarget : busTarget s.params.words offset.toNat = .mbuf j := by
    rw [hoff, busTarget_mbuf hwords hj]
  have halign : offset.toNat % 4 = 0 := by omega
  refine ⟨fun hs hidle => ?_, fun hs => ?_⟩
  · exact ⟨s.bank.mbuf.writeAll (4 * j) (wordBytes v), Memory.wf_writeAll _ _ hwf,
      fun b hb => (Memory.read_writeAll_inside _ hwf hb).trans (wordBytes_getElem v hb),
      fun a ha => Memory.read_writeAll_outside _ ha,
      (step_write (.mbuf j) hs halign htarget (State.writeIdle_of_idle _ hidle) :)⟩
  · exact ⟨s.bank.mbuf.busWord j, fun b hb => Memory.busWord_lane _ j hb,
      step_read (.mbuf j) hs halign htarget⟩

end Sys2Proof.Machine
end

section
/-! PROOFS. The command words (30_encoding R84 to R86): decode and encode agree, every word is one
row of the table or illegal, and an illegal word completes with ILLEGAL_CMD. -/

namespace Sys2Proof

/-! ## Decoding an encoded command (R84, R85) -/

theorem decode_packFields (op : BitVec 8) (d s t u : Reg) :
    decode (packFields op d s t u) = decodeOpcode op (packFields op d s t u) := by
  simp [decode, reservedField_packFields, opcodeField_packFields]

/-- The one check left is that of the operands (R85 (d)). -/
theorem decode_encode (i : Instr) :
    decode (encode i) = if i.wellFormed then .ok i else .error .egcdDestination := by
  cases i
  case egcd rd rs1 rs2 =>
    simp only [encode, decode_packFields, decodeOpcode, ifUnusedZero, rdField_packFields,
      rs1Field_packFields, rs2Field_packFields, rs3Field_packFields, Instr.wellFormed,
      decide_eq_true_eq, ← Nat.not_lt, ite_not]
    rfl
  all_goals
    simp [encode, decode_packFields, decodeOpcode, ifUnusedZero, rdField_packFields,
      rs1Field_packFields, rs2Field_packFields, rs3Field_packFields, Instr.wellFormed]

theorem wellFormed_of_decode {w : Word} {i : Instr} (h : decode w = .ok i) :
    i.wellFormed = true := by
  have hself : decode (encode i) = .ok i := by rw [encode_of_decode h, h]
  rw [decode_encode] at hself
  split at hself
  · assumption
  · cases hself

/-- R85 (d) as a check of the word's rd field. -/
theorem Instr.wellFormed_iff (i : Instr) :
    i.wellFormed = true ↔ (i.mnemonic = "EGCD" → (rdField (encode i)).val ≤ 13) := by
  cases i
  case egcd => simp [Instr.wellFormed, Instr.mnemonic, encode, rdField_packFields]
  all_goals simp [Instr.wellFormed, Instr.mnemonic]

/-! ## Packed words are equal when their fields are (R80) -/

theorem packFields_inj {op op' : BitVec 8} {d d' s s' t t' u u' : Reg} :
    packFields op d s t u = packFields op' d' s' t' u'
      ↔ op = op' ∧ d = d' ∧ s = s' ∧ t = t' ∧ u = u' := by
  refine ⟨fun h => ⟨?_, ?_, ?_, ?_, ?_⟩, ?_⟩
  · simpa only [opcodeField_packFields] using congrArg opcodeField h
  · simpa only [rdField_packFields] using congrArg rdField h
  · simpa only [rs1Field_packFields] using congrArg rs1Field h
  · simpa only [rs2Field_packFields] using congrArg rs2Field h
  · simpa only [rs3Field_packFields] using congrArg rs3Field h
  · rintro ⟨rfl, rfl, rfl, rfl, rfl⟩
    rfl

/-! ## The rows of the table as forms of a word (R84) -/

/-- The mask bits of a field: none when the command uses it. -/
def nibbleMask (used : Bool) : BitVec 4 := bif used then 0x0 else 0xF

/-- The mask of a command with the given fields used. -/
def fieldMask (d s t u : Bool) : Word :=
  0xFF#8 ++ nibbleMask u ++ nibbleMask t ++ nibbleMask s ++ nibbleMask d ++ 0xFF#8

/-- A row of R84 by its meaning: the opcode, which of rd, rs1, rs2, rs3 are used, and the command
with these operands. -/
structure Form where
  mnemonic : String
  op       : BitVec 8
  rd       : Bool
  rs1      : Bool
  rs2      : Bool
  rs3      : Bool
  instr    : Reg → Reg → Reg → Reg → Instr

/-- The row a form stands for. -/
def Form.row (f : Form) : Row :=
  ⟨f.mnemonic, packFields f.op 0 0 0 0, fieldMask f.rd f.rs1 f.rs2 f.rs3⟩

/-- The word with the given used fields; an unused one is 0. -/
def Form.pack (f : Form) (d s t u : Reg) : Word :=
  packFields f.op (bif f.rd then d else 0) (bif f.rs1 then s else 0) (bif f.rs2 then t else 0)
    (bif f.rs3 then u else 0)

/-- The rows of R84 as forms, in the table's order. -/
def forms : List Form :=
  [ ⟨"NOP", 0x00, false, false, false, false, fun _ _ _ _ => .nop⟩,
    ⟨"RAND", 0x01, true, false, false, false, fun d _ _ _ => .rand d⟩,
    ⟨"MONTSETUP", 0x10, false, true, false, false, fun _ s _ _ => .montsetup s⟩,
    ⟨"MONTMUL", 0x11, true, true, true, false, fun d s t _ => .montmul d s t⟩,
    ⟨"MONTIN", 0x12, true, true, false, false, fun d s _ _ => .montin d s⟩,
    ⟨"MONTOUT", 0x13, true, true, false, false, fun d s _ _ => .montout d s⟩,
    ⟨"BARSETUP", 0x18, false, true, false, false, fun _ s _ _ => .barsetup s⟩,
    ⟨"BARRED", 0x19, true, true, false, false, fun d s _ _ => .barred d s⟩,
    ⟨"MODEXP", 0x20, true, true, true, true, fun d s t u => .modexp d s t u⟩,
    ⟨"MRTEST", 0x28, true, true, false, false, fun d s _ _ => .mrtest d s⟩,
    ⟨"PRIMEGEN", 0x29, true, false, false, false, fun d _ _ _ => .primegen d⟩,
    ⟨"GCD", 0x30, true, true, true, false, fun d s t _ => .gcd d s t⟩,
    ⟨"COPRIME", 0x31, true, true, true, false, fun d s t _ => .coprime d s t⟩,
    ⟨"EGCD", 0x32, true, true, true, false, fun d s t _ => .egcd d s t⟩,
    ⟨"MODINV", 0x33, true, true, true, false, fun d s t _ => .modinv d s t⟩,
    ⟨"COPRIMEGEN", 0x34, true, true, false, false, fun d s _ _ => .coprimegen d s⟩,
    ⟨"KEYGEN", 0x40, false, false, false, false, fun _ _ _ _ => .keygen⟩,
    ⟨"KEYDERIVE", 0x41, false, true, true, false, fun _ s t _ => .keyderive s t⟩,
    ⟨"KEYDERIVEE", 0x42, false, true, true, true, fun _ s t u => .keyderivee s t u⟩,
    ⟨"KEYCLR", 0x43, false, false, false, false, fun _ _ _ _ => .keyclr⟩,
    ⟨"ENC", 0x48, true, true, false, false, fun d s _ _ => .enc d s⟩,
    ⟨"DEC", 0x49, true, true, false, false, fun d s _ _ => .dec d s⟩,
    ⟨"B2I", 0x50, true, false, false, false, fun d _ _ _ => .b2i d⟩,
    ⟨"I2B", 0x51, false, true, false, false, fun _ s _ _ => .i2b s⟩ ]

/-- The masks and matches of R84 are those of the forms. -/
theorem opcodeTable_eq_map_row : opcodeTable = forms.map Form.row := rfl

theorem encode_instr {f : Form} (hf : f ∈ forms) (d s t u : Reg) :
    encode (f.instr d s t u) = f.pack d s t u := by
  revert f
  simp [forms, encode, Form.pack]

theorem mnemonic_instr {f : Form} (hf : f ∈ forms) (d s t u : Reg) :
    (f.instr d s t u).mnemonic = f.mnemonic := by
  revert f
  simp [forms, Instr.mnemonic]

/-- Every command is one of the form that has its name. -/
theorem exists_form (i : Instr) :
    ∃ f, forms.find? (·.mnemonic == i.mnemonic) = some f ∧ ∃ d s t u, f.instr d s t u = i := by
  cases i
  all_goals
    refine ⟨_, rfl, ?_⟩
    simp

/-- One field of a masked word: it is cleared when the command uses it. -/
theorem append_and_nibbleMask {n : Nat} {x y z : BitVec n} (h : x &&& y = z) (used : Bool)
    (r : Reg) :
    (x ++ BitVec.ofFin (w := 4) r) &&& (y ++ nibbleMask used)
      = z ++ BitVec.ofFin (w := 4) (bif used then 0 else r) := by
  rw [BitVec.and_append, h]
  cases used
  · exact congrArg (z ++ ·) BitVec.and_allOnes
  · exact congrArg (z ++ ·) BitVec.and_zero

theorem packFields_and_fieldMask (op : BitVec 8) (d s t u : Reg) (a b c e : Bool) :
    packFields op d s t u &&& fieldMask a b c e =
      packFields op (bif a then 0 else d) (bif b then 0 else s) (bif c then 0 else t)
        (bif e then 0 else u) := by
  have hfields := append_and_nibbleMask (append_and_nibbleMask (append_and_nibbleMask
    (append_and_nibbleMask (BitVec.zero_and (x := 0xFF#8)) e u) c t) b s) a d
  exact BitVec.and_append.trans (congrArg₂ (· ++ ·) hfields BitVec.and_allOnes)

theorem reservedField_and_fieldMask (w : Word) (a b c e : Bool) :
    reservedField (w &&& fieldMask a b c e) = reservedField w := by
  have hmask : reservedField (fieldMask a b c e) = BitVec.allOnes 8 := by
    revert a b c e
    decide
  rw [reservedField, BitVec.extractLsb'_and]
  exact (congrArg (reservedField w &&& ·) hmask).trans BitVec.and_allOnes

/-- An operand is its field, when one that is not used is 0. -/
theorem cond_eq_self_of_cond_eq_zero {used : Bool} {r : Reg}
    (h : (bif used then 0 else r) = 0) : (bif used then r else 0) = r := by
  cases used
  · exact h.symm
  · rfl

theorem cond_cond_eq_zero (used : Bool) (r : Reg) :
    (bif used then 0 else bif used then r else 0) = 0 := by
  cases used <;> rfl

theorem Form.row_accepts_pack (f : Form) (d s t u : Reg) :
    f.row.accepts (f.pack d s t u) = true := by
  simp only [Row.accepts, Form.row, Form.pack, packFields_and_fieldMask, cond_cond_eq_zero,
    beq_self_eq_true]

/-- A row accepts only the words of its form. -/
theorem Form.eq_pack_of_row_accepts {f : Form} {w : Word} (h : f.row.accepts w = true) :
    w = f.pack (rdField w) (rs1Field w) (rs2Field w) (rs3Field w) := by
  have hacc : w &&& fieldMask f.rd f.rs1 f.rs2 f.rs3 = packFields f.op 0 0 0 0 := eq_of_beq h
  have hres : reservedField w = 0 := by
    rw [← reservedField_and_fieldMask, hacc, reservedField_packFields]
  have hw := packFields_fields hres
  rw [← hw, packFields_and_fieldMask, packFields_inj] at hacc
  obtain ⟨hop, hd, hs, ht, hu⟩ := hacc
  rw [Form.pack, ← hop, cond_eq_self_of_cond_eq_zero hd, cond_eq_self_of_cond_eq_zero hs,
    cond_eq_self_of_cond_eq_zero ht, cond_eq_self_of_cond_eq_zero hu, hw]

/-! ## The rows of a word (R86) -/

/-- Each command's word is accepted by a row, EGCD's with rd > 13 too. -/
theorem exists_row_accepts_encode (i : Instr) :
    ∃ row ∈ opcodeTable, row.accepts (encode i) = true := by
  obtain ⟨f, hfind, d, s, t, u, rfl⟩ := exists_form i
  have hf := List.mem_of_find?_eq_some hfind
  rw [encode_instr hf, opcodeTable_eq_map_row]
  exact ⟨f.row, List.mem_map_of_mem hf, f.row_accepts_pack d s t u⟩

theorem exists_encode_of_accepts {row : Row} {w : Word} (hrow : row ∈ opcodeTable)
    (h : row.accepts w = true) : ∃ i : Instr, i.mnemonic = row.mnemonic ∧ encode i = w := by
  rw [opcodeTable_eq_map_row] at hrow
  obtain ⟨f, hf, rfl⟩ := List.mem_map.1 hrow
  refine ⟨f.instr (rdField w) (rs1Field w) (rs2Field w) (rs3Field w), mnemonic_instr hf _ _ _ _, ?_⟩
  rw [encode_instr hf, ← Form.eq_pack_of_row_accepts h]

theorem opcodeField_of_accepts {row : Row} {w : Word} (hrow : row ∈ opcodeTable)
    (h : row.accepts w = true) : opcodeField w = opcodeField row.value := by
  rw [opcodeTable_eq_map_row] at hrow
  obtain ⟨f, -, rfl⟩ := List.mem_map.1 hrow
  rw [Form.eq_pack_of_row_accepts h, Form.pack, Form.row, opcodeField_packFields,
    opcodeField_packFields]

/-- No two rows have one opcode. -/
theorem opcodeTable_opcodes_nodup : (opcodeTable.map (opcodeField ·.value)).Nodup := by decide

theorem row_unique {row row' : Row} {w : Word} (hrow : row ∈ opcodeTable)
    (hrow' : row' ∈ opcodeTable) (h : row.accepts w = true) (h' : row'.accepts w = true) :
    row' = row :=
  List.inj_on_of_nodup_map opcodeTable_opcodes_nodup hrow' hrow
    ((opcodeField_of_accepts hrow' h').symm.trans (opcodeField_of_accepts hrow h))

/-! ## The obligations -/

/-- Settles O1: decode_encode one way, the word's fields packed again the other way. -/
theorem decodeAndEncodeAgree : Obligations.DecodeAndEncodeAgree := by
  refine ⟨fun i hi => ?_, fun w i h => ⟨encode_of_decode h, wellFormed_of_decode h⟩⟩
  rw [decode_encode, if_pos hi]

/-- Settles O2: a word some row accepts is the encoding of a command of that row, whose operands
are the one check left; a word no row accepts encodes no command. -/
theorem everyWordIsOneRowOrIllegal : Obligations.EveryWordIsOneRowOrIllegal := by
  intro w
  by_cases hex : ∃ row ∈ opcodeTable, row.accepts w = true
  · obtain ⟨row, hrow, hacc⟩ := hex
    obtain ⟨i, hname, rfl⟩ := exists_encode_of_accepts hrow hacc
    have huniq (row' : Row) (hrow' : row' ∈ opcodeTable)
        (hacc' : row'.accepts (encode i) = true) : row' = row :=
      row_unique hrow hrow' hacc hacc'
    by_cases hwf : i.wellFormed = true
    · refine .inl ⟨row, hrow, hacc, huniq, hname ▸ i.wellFormed_iff.1 hwf, i, ?_, hname⟩
      rw [decode_encode, if_pos hwf]
    · refine .inr ⟨fun row' hrow' hacc' => ?_, .egcdDestination, ?_⟩
      · rw [huniq row' hrow' hacc', ← hname]
        rwa [i.wellFormed_iff, Classical.not_imp, Nat.not_le] at hwf
      · rw [decode_encode, if_neg hwf]
  · refine .inr ⟨fun row hrow hacc => absurd ⟨row, hrow, hacc⟩ hex, ?_⟩
    cases hdec : decode w with
    | error e => exact ⟨e, rfl⟩
    | ok i => exact absurd (encode_of_decode hdec ▸ exists_row_accepts_encode i) hex

/-- Settles O3: each word is decoded. -/
theorem specWordsDecode : Obligations.SpecWordsDecode := by
  unfold Obligations.SpecWordsDecode
  decide

/-- What R85 says is illegal, read off the table, the decoder refuses. -/
theorem decode_eq_error {w : Word} (h : ∀ row ∈ opcodeTable, row.accepts w = true →
    row.mnemonic = "EGCD" ∧ 13 < (rdField w).val) : ∃ e, decode w = .error e := by
  obtain ⟨row, hrow, hacc, -, hrd, -⟩ | ⟨-, herr⟩ := everyWordIsOneRowOrIllegal w
  · obtain ⟨hegcd, hlt⟩ := h row hrow hacc
    exact absurd (hrd hegcd) (Nat.not_le.2 hlt)
  · exact herr

end Sys2Proof

namespace Sys2Proof.Machine

/-- A step that keeps the bank keeps every register, key, context and byte of MBUF. -/
theorem State.onlyX_of_bank_eq {s t : State} (hout : s.SameOutside t) (hbank : t.bank = s.bank)
    (written : List Reg) : s.OnlyX t written := by
  refine ⟨hout, ?_⟩
  rw [hbank]
  exact ⟨fun _ _ => rfl, ⟨rfl, rfl, rfl, rfl⟩, ⟨rfl, rfl⟩, ⟨rfl, rfl⟩, ⟨rfl, rfl⟩,
    ⟨fun _ => rfl, rfl⟩, rfl⟩

/-- A completion with an error changes BUSY, DONE and ERR only (60_exceptions R245). -/
theorem State.failsCleanly_complete_raise (s : State) (e : ErrCode) :
    s.FailsCleanly (s.complete (.raise e)) e :=
  ⟨⟨rfl, rfl, rfl⟩, State.onlyX_of_bank_eq ⟨rfl, rfl, rfl, rfl, rfl, rfl⟩ rfl [], rfl, rfl⟩

theorem engineStep_of_illegal {s : State} {w : Word} {e : Illegal} (hw : s.fetch = some w)
    (h : decode w = .error e) : engineStep s = .next (s.complete (.raise .illegalCmd)) := by
  simp [engineStep, hw, h]

/-- Settles O5: both steps are engine steps on a word the decoder refuses. -/
theorem illegalWordEndsWithIllegalCmd : Obligations.IllegalWordEndsWithIllegalCmd := by
  intro s w hw hillegal
  obtain ⟨e, he⟩ := decode_eq_error hillegal
  refine ⟨fun rest hs => ⟨_, ?_, State.failsCleanly_complete_raise _ _⟩,
    fun hs => ⟨_, ?_, State.failsCleanly_complete_raise _ _⟩⟩
  · rw [step, hs]
    exact engineStep_of_illegal (s := { s with schedule := rest }) hw he
  · rw [step, hs]
    exact engineStep_of_illegal hw he

end Sys2Proof.Machine
end

section
/-! PROOFS. Control and randomness (40_control_random R101, R102): how a command that writes one
operand register ends, and what the engine does with one draw. -/

namespace Sys2Proof.Machine

/-! ## Completion -/

/-- The command succeeds with `v` in X[rd], which is all it writes, and leaves the answers `rest`. -/
abbrev State.YieldsX (s t : State) (rd : Reg) (v : Nat) (rest : List Answer) : Prop :=
  t.Succeeded ∧ t.bank.readX rd = v ∧ s.OnlyX t [rd] ∧ t.res = s.res ∧ t.entropy = rest

/-- A completion that writes one operand register changes that register only. -/
theorem State.yieldsX_complete_x (s : State) (rd : Reg) (v : Nat) (rest : List Answer) :
    s.YieldsX (State.complete { s with entropy := rest } (.ok [.x rd v])) rd v rest := by
  have hothers : s.bank.SameXBut (s.bank.writeX rd v) [rd] := fun q hq =>
    s.bank.readX_writeX_of_ne v (List.ne_of_not_mem_cons hq)
  exact ⟨⟨rfl, rfl, rfl⟩, s.bank.readX_writeX_same rd v,
    ⟨⟨rfl, rfl, rfl, rfl, rfl, rfl⟩, hothers, ⟨rfl, rfl, rfl, rfl⟩, ⟨rfl, rfl⟩, ⟨rfl, rfl⟩,
      ⟨rfl, rfl⟩, ⟨fun _ => rfl, rfl⟩, rfl⟩, rfl, rfl⟩

/-! ## One draw (60_exceptions R257 to R259) -/

section
variable {s : State} {p : WaitPoint}

/-- A command accepted and not yet waiting runs from its start. -/
theorem State.sample_of_atStart (h : s.atStart = true) (start : Advance) :
    s.sample start = .next (s.advance start) := by
  have hpoint : ∀ b q, s.phase ≠ .busy b (some q) := by
    intro b q hphase
    simp [State.atStart, hphase] at h
  rw [State.sample, State.resume_of_not_waiting start hpoint]

/-- A draw that is refused consumes no answer. -/
theorem State.advance_of_blocked {e : ErrCode} (h : p.blocked s.cap s.snap.efail = some e) :
    s.advance (.wait p) = s.complete (.raise e) := by
  rw [State.advance, drive_of_blocked s.entropy h]
  rfl

/-- The one draw of a rule that ends with it. -/
theorem State.advance_of_value {v : Nat} {rest : List Answer} {r : Result}
    (h : p.blocked s.cap s.snap.efail = none) (hs : s.entropy = .value v :: rest)
    (hr : p.answered (v % 2 ^ p.width) = .done r) :
    s.advance (.wait p) = State.complete { s with entropy := rest } r := by
  rw [State.advance, hs, drive_value_done rest h hr]
  rfl

/-- R259: the answer FAIL ends the command and sets EFAIL. -/
theorem State.raisesAfterDraws_of_fail {rest : List Answer}
    (h : p.blocked s.cap s.snap.efail = none) (hs : s.entropy = .fail :: rest) :
    s.RaisesAfterDraws (s.advance (.wait p)) .entropyUnavailable true rest := by
  rw [State.advance, hs, drive_fail rest h]
  refine ⟨⟨rfl, rfl, rfl⟩, ⟨rfl, rfl, rfl, rfl, rfl, rfl⟩, ?_, rfl, rfl⟩
  rw [Bool.or_true]
  rfl

/-- With no answer at hand the command waits at the point of the draw, and requests its width. -/
theorem State.waitsForAnswer_of_nil (h : p.blocked s.cap s.snap.efail = none)
    (hs : s.entropy = []) :
    s.WaitsForAnswer (s.advance (.wait p))
      ∧ (s.advance (.wait p)).request = some p.width := by
  rw [State.advance, hs, drive_nil h]
  exact ⟨⟨⟨p, rfl⟩, ⟨rfl, rfl, rfl, rfl, rfl, rfl⟩, rfl, rfl, rfl, rfl, rfl⟩, rfl⟩

end

/-! ## RAND -/

/-- RAND has no cap check: EFAIL alone refuses its draw. -/
theorem WaitPoint.blocked_rand (cap : Nat) (efail : Bool) (rd : Reg) (k : Nat) :
    (WaitPoint.rand rd k).blocked cap efail
      = if efail then some .entropyUnavailable else none := rfl

section
variable {s : State}

theorem exec_rand_of_badWidth (h : s.atStart = true) (rd : Reg)
    (hbad : s.argument = 0 ∨ s.width < s.argument) :
    exec (.rand rd) s = .next (s.complete (.raise .invalidArg)) := by
  have hcheck : s.badWidth s.argument = true := decide_eq_true hbad
  rw [exec, execRand, State.sample_of_atStart h, hcheck]
  rfl

/-- RAND of 1 to W bits goes to its draw. -/
theorem exec_rand_of_width (h : s.atStart = true) (rd : Reg)
    (hlo : 1 ≤ s.argument) (hhi : s.argument ≤ s.width) :
    exec (.rand rd) s = .next (s.advance (.wait (.rand rd s.argument))) := by
  have hcheck : s.badWidth s.argument = false := State.badWidth_eq_false_iff.2 ⟨hlo, hhi⟩
  rw [exec, execRand, State.sample_of_atStart h, hcheck]
  rfl

end

/-! ## The obligations -/

/-- Settles O11: a completion with no write keeps the bank. -/
theorem nopOnlyCompletes : Obligations.NopOnlyCompletes := by
  intro s
  exact ⟨s.complete (.ok []), rfl, ⟨rfl, rfl, rfl⟩,
    State.onlyX_of_bank_eq ⟨rfl, rfl, rfl, rfl, rfl, rfl⟩ rfl [], rfl, rfl⟩

/-- Settles O12: the width check, then the one draw: EFAIL refuses it, and it ends RAND with the
value, ends it with FAIL, or waits. -/
theorem randWritesOneDraw : Obligations.RandWritesOneDraw := by
  intro s rd hstart
  refine ⟨fun hbad => ⟨_, exec_rand_of_badWidth hstart rd hbad,
    s.failsCleanly_complete_raise _⟩, fun hlo hhi => ?_⟩
  have hexec := exec_rand_of_width hstart rd hlo hhi
  refine ⟨fun hefail => ?_, fun hefail => ?_⟩
  · have hrefused : (WaitPoint.rand rd s.argument).blocked s.cap s.snap.efail
        = some .entropyUnavailable := by
      rw [WaitPoint.blocked_rand, if_pos hefail]
    rw [State.advance_of_blocked hrefused] at hexec
    exact ⟨_, hexec, s.failsCleanly_complete_raise _⟩
  · have hopen : (WaitPoint.rand rd s.argument).blocked s.cap s.snap.efail = none := by
      rw [WaitPoint.blocked_rand, if_neg (Bool.eq_false_iff.1 hefail)]
    refine ⟨fun v rest hs => ?_, fun rest hs => ?_, fun hs => ?_⟩
    · rw [State.advance_of_value hopen hs rfl] at hexec
      exact ⟨_, hexec, s.yieldsX_complete_x rd (v % 2 ^ s.argument) rest⟩
    · exact ⟨_, hexec, State.raisesAfterDraws_of_fail hopen hs⟩
    · exact ⟨_, hexec, State.waitsForAnswer_of_nil hopen hs⟩

end Sys2Proof.Machine
end

section
/-! PROOFS. The modular arithmetic commands (41_modular_arithmetic R120 to R130): how each one
completes, and the laws of the Montgomery commands over runs of one after another. -/

namespace Sys2Proof.Machine

/-! ## Each command's completion -/

section
variable {s : State}

/-- A command that ends with an error fails cleanly (60_exceptions R245). -/
theorem State.exists_failsCleanly {o : Out} {e : ErrCode}
    (h : o = .next (s.complete (.raise e))) : ∃ t, o = .next t ∧ s.FailsCleanly t e :=
  ⟨_, h, s.failsCleanly_complete_raise e⟩

/-- A command that draws no entropy and writes one operand register leaves the answers alone. -/
theorem State.exists_yieldsX {o : Out} {rd : Reg} {v : Nat}
    (h : o = .next (s.complete (.ok [.x rd v]))) :
    ∃ t, o = .next t ∧ s.YieldsX t rd v s.entropy :=
  ⟨_, h, s.yieldsX_complete_x rd v s.entropy⟩

theorem exec_montsetup_of_even {rs1 : Reg} (h : s.src rs1 % 2 = 0) :
    exec (.montsetup rs1) s = .next (s.complete (.raise .invalidArg)) := by
  rw [exec, execMontsetup, if_pos h]
  rfl

theorem exec_montsetup_of_odd {rs1 : Reg} (h : s.src rs1 % 2 = 1) :
    exec (.montsetup rs1) s
      = .next (s.complete (.ok [.mont (montCtxOf s.width (s.src rs1))])) := by
  rw [exec, execMontsetup, if_neg (by omega)]
  rfl

theorem exec_barsetup_of_zero {rs1 : Reg} (h : s.src rs1 = 0) :
    exec (.barsetup rs1) s = .next (s.complete (.raise .invalidArg)) := by
  rw [exec, execBarsetup, if_pos h]
  rfl

theorem exec_barsetup_of_ne_zero {rs1 : Reg} (h : s.src rs1 ≠ 0) :
    exec (.barsetup rs1) s = .next (s.complete (.ok [.bar (barCtxOf (s.src rs1))])) := by
  rw [exec, execBarsetup, if_neg h]
  rfl

theorem exec_barred_of_noContext {rs1 : Reg} (rd : Reg) (h : s.snap.bv = false) :
    exec (.barred rd rs1) s = .next (s.complete (.raise .noContext)) := by
  rw [exec, execBarred, h]
  rfl

theorem exec_barred_of_ge {rs1 : Reg} (rd : Reg) (h : s.snap.bv = true)
    (hge : 2 ^ (2 * s.snap.bar.k) ≤ s.src rs1) :
    exec (.barred rd rs1) s = .next (s.complete (.raise .invalidArg)) := by
  rw [exec, execBarred, if_pos h, if_pos hge]
  rfl

theorem exec_barred_of_lt {rs1 : Reg} (rd : Reg) (h : s.snap.bv = true)
    (hlt : s.src rs1 < 2 ^ (2 * s.snap.bar.k)) :
    exec (.barred rd rs1) s
      = .next (s.complete (.ok [.x rd (s.src rs1 % s.snap.bar.n)])) := by
  rw [exec, execBarred, if_pos h, if_neg hlt.not_ge]
  rfl

theorem exec_modexp_of_zero {rs3 : Reg} (rd rs1 rs2 : Reg) (h : s.src rs3 = 0) :
    exec (.modexp rd rs1 rs2 rs3) s = .next (s.complete (.raise .invalidArg)) := by
  rw [exec, execModexp, if_pos h]
  rfl

theorem exec_modexp_of_ne_zero {rs3 : Reg} (rd rs1 rs2 : Reg) (h : s.src rs3 ≠ 0) :
    exec (.modexp rd rs1 rs2 rs3) s
      = .next (s.complete (.ok [.x rd (s.src rs1 ^ s.src rs2 % s.src rs3)])) := by
  rw [exec, execModexp, if_neg h, powMod_eq]
  rfl

end

/-! ## The three commands of the Montgomery context (R122 to R124) -/

/-- The commands that compute with the Montgomery context. -/
inductive MontCommand where
  | mul (rs1 rs2 : Reg)
  | into (rs1 : Reg)
  | out (rs1 : Reg)

/-- The command with destination `rd`. -/
def MontCommand.instr (rd : Reg) : MontCommand → Instr
  | .mul rs1 rs2 => .montmul rd rs1 rs2
  | .into rs1 => .montin rd rs1
  | .out rs1 => .montout rd rs1

/-- What the command reduces modulo MCTX_N = `n`, with operands `x` and radix 2^`width`. -/
def MontCommand.value (x : Reg → Nat) (width n : Nat) : MontCommand → Nat
  | .mul rs1 rs2 => x rs1 * x rs2 * radixInverse width n
  | .into rs1 => x rs1 * 2 ^ width
  | .out rs1 => x rs1 * radixInverse width n

section
variable {s : State}

theorem MontCommand.exec_of_noContext (m : MontCommand) (rd : Reg) (h : s.snap.mv = false) :
    exec (m.instr rd) s = .next (s.complete (.raise .noContext)) := by
  cases m with
  | mul rs1 rs2 => rw [instr, exec, execMontmul, h]; rfl
  | into rs1 => rw [instr, exec, execMontin, h]; rfl
  | out rs1 => rw [instr, exec, execMontout, h]; rfl

theorem MontCommand.exec_of_context (m : MontCommand) (rd : Reg) (h : s.snap.mv = true) :
    exec (m.instr rd) s
      = .next (s.complete
          (.ok [.x rd (m.value s.src s.width s.snap.mont.n % s.snap.mont.n)])) := by
  cases m with
  | mul rs1 rs2 => rw [instr, exec, execMontmul, h]; rfl
  | into rs1 => rw [instr, exec, execMontin, h]; rfl
  | out rs1 => rw [instr, exec, execMontout, h]; rfl

end

/-! ## Residues in Montgomery form (R120) -/

section
variable {n : Nat} (width a b : Nat)

theorem mul_radixInverse_modEq (h : n % 2 = 1) :
    2 ^ width * radixInverse width n ≡ 1 [MOD n] :=
  (radixInverse_spec width h).2

/-- MONTOUT's product undoes MONTIN's. -/
theorem radixInverse_cancels (h : n % 2 = 1) :
    a * 2 ^ width % n * radixInverse width n % n = a % n := by
  change _ ≡ _ [MOD n]
  calc a * 2 ^ width % n * radixInverse width n
      ≡ a * 2 ^ width * radixInverse width n [MOD n] := (Nat.mod_modEq _ n).mul_right _
    _ = a * (2 ^ width * radixInverse width n) := mul_assoc _ _ _
    _ ≡ a * 1 [MOD n] := (mul_radixInverse_modEq width h).mul_left a
    _ = a := mul_one a

/-- The Montgomery product of two values in Montgomery form is their product's Montgomery form. -/
theorem montgomery_product_of_forms (h : n % 2 = 1) :
    a * 2 ^ width % n * (b * 2 ^ width % n) * radixInverse width n % n
      = a * b % n * 2 ^ width % n := by
  change _ ≡ _ [MOD n]
  calc a * 2 ^ width % n * (b * 2 ^ width % n) * radixInverse width n
      ≡ a * 2 ^ width * (b * 2 ^ width) * radixInverse width n [MOD n] :=
        ((Nat.mod_modEq _ n).mul (Nat.mod_modEq _ n)).mul_right _
    _ = a * b * 2 ^ width * (2 ^ width * radixInverse width n) := by ring
    _ ≡ a * b * 2 ^ width * 1 [MOD n] := (mul_radixInverse_modEq width h).mul_left _
    _ = a * b * 2 ^ width := mul_one _
    _ ≡ a * b % n * 2 ^ width [MOD n] := (Nat.mod_modEq _ n).symm.mul_right _

end

/-! ## Runs of Montgomery commands (R126) -/

/-- What the next Montgomery command sees of a run that has written `v` to X[rd]: the other operand
registers, the context and W are as they were. -/
structure State.MontStep (s t : State) (rd : Reg) (v : Nat) : Prop where
  result : t.bank.readX rd = v
  others : ∀ r, r ≠ rd → t.bank.readX r = s.bank.readX r
  mont   : t.bank.mont = s.bank.mont
  mv     : t.bank.mv = s.bank.mv
  width  : t.width = s.width

/-- A run of a Montgomery command writes its residue. -/
theorem MontCommand.montStep_of_runsTo {s t : State} {rd : Reg} (m : MontCommand)
    (hmv : s.bank.mv = true) (h : s.RunsTo (m.instr rd) t) :
    s.MontStep t rd (m.value s.bank.readX s.width s.bank.mont.n % s.bank.mont.n) := by
  obtain ⟨u, hu, -, hresult, ⟨⟨hparams, -⟩, hothers, -, -, ⟨hmont, hmvu⟩, -⟩, -⟩ :=
    State.exists_yieldsX
      (m.exec_of_context rd (s := s.start (encode (m.instr rd))) hmv)
  obtain rfl : u = t := Host.Outcome.next.inj (hu.symm.trans h)
  exact ⟨hresult, fun r hr => hothers r (mt List.mem_singleton.1 hr), hmont, hmvu,
    congrArg Params.width hparams⟩

section
variable {s t u : State} {a b c : Reg} (hmv : s.bank.mv = true)
include hmv

/-- MONTMUL of MONTIN(a) and MONTIN(b). -/
theorem montmul_of_montins {t' : State} {d e : Reg} (hodd : s.bank.mont.n % 2 = 1) (hcd : c ≠ d)
    (hbc : b ≠ c) (ha : s.RunsTo (.montin c a) t) (hb : t.RunsTo (.montin d b) t')
    (hmul : t'.RunsTo (.montmul e c d) u) :
    u.bank.readX e
      = s.bank.readX a * s.bank.readX b % s.bank.mont.n * 2 ^ s.width % s.bank.mont.n := by
  have ia := MontCommand.montStep_of_runsTo (.into a) hmv ha
  have ib := MontCommand.montStep_of_runsTo (.into b) (ia.mv.trans hmv) hb
  have im := MontCommand.montStep_of_runsTo (.mul c d) (ib.mv.trans (ia.mv.trans hmv)) hmul
  rw [im.result, MontCommand.value, ib.result, ib.others c hcd, ia.result, ib.width, ib.mont]
  simp only [MontCommand.value]
  rw [ia.others b hbc, ia.width, ia.mont]
  exact montgomery_product_of_forms _ _ _ hodd

/-- MONTOUT after MONTIN. -/
theorem montout_of_montin (hodd : s.bank.mont.n % 2 = 1) (hin : s.RunsTo (.montin b a) t)
    (hout : t.RunsTo (.montout c b) u) : u.bank.readX c = s.bank.readX a % s.bank.mont.n := by
  have hi := MontCommand.montStep_of_runsTo (.into a) hmv hin
  have ho := MontCommand.montStep_of_runsTo (.out b) (hi.mv.trans hmv) hout
  rw [ho.result, MontCommand.value, hi.result, hi.width, hi.mont]
  exact radixInverse_cancels _ _ hodd

theorem montmul_comm (hab : s.RunsTo (.montmul c a b) t) (hba : s.RunsTo (.montmul c b a) u) :
    t.bank.readX c = u.bank.readX c := by
  have ht := MontCommand.montStep_of_runsTo (.mul a b) hmv hab
  have hu := MontCommand.montStep_of_runsTo (.mul b a) hmv hba
  rw [ht.result, hu.result, MontCommand.value, MontCommand.value,
    mul_comm (s.bank.readX a) (s.bank.readX b)]

/-- Every result is a residue. -/
theorem MontCommand.result_lt (hodd : s.bank.mont.n % 2 = 1) (m : MontCommand)
    (h : s.RunsTo (m.instr c) t) : t.bank.readX c < s.bank.mont.n := by
  rw [(m.montStep_of_runsTo hmv h).result]
  exact Nat.mod_lt _ (by omega)

end

/-! ## The obligations -/

/-- Settles O13: the context of an odd modulus obeys R32. -/
theorem montsetupLatchesTheContext : Obligations.MontsetupLatchesTheContext := by
  intro s rs1
  refine ⟨fun heven => State.exists_failsCleanly (exec_montsetup_of_even heven), fun hodd => ?_⟩
  obtain ⟨-, hnp, hr2⟩ := montCtxOf_lawful s.width hodd
  have hlt : (montCtxOf s.width (s.src rs1)).np < 2 ^ s.width :=
    Nat.mod_lt _ (Nat.two_pow_pos s.width)
  exact ⟨_, exec_montsetup_of_odd hodd, ⟨rfl, rfl, rfl⟩, rfl, hlt, hnp, hr2, rfl,
    ⟨rfl, rfl, rfl, rfl, rfl, rfl⟩, fun _ _ => rfl, ⟨rfl, rfl, rfl, rfl⟩, ⟨rfl, rfl⟩, ⟨rfl, rfl⟩,
    ⟨fun _ => rfl, rfl⟩, rfl, rfl, rfl⟩

/-- Settles O14: R⁻¹ is `radixInverse`. -/
theorem montmulIsTheMontgomeryProduct : Obligations.MontmulIsTheMontgomeryProduct := by
  intro s rd rs1 rs2
  refine ⟨fun hmv => State.exists_failsCleanly
    (MontCommand.exec_of_noContext (.mul rs1 rs2) rd hmv), fun hmv hodd => ?_⟩
  obtain ⟨t, ht, hok, hx⟩ :=
    State.exists_yieldsX (MontCommand.exec_of_context (.mul rs1 rs2) rd hmv)
  obtain ⟨hlt, hinv⟩ := radixInverse_spec s.width hodd
  exact ⟨t, _, ht, hok, hlt, hinv, hx⟩

/-- Settles O15: only MONTOUT multiplies by R⁻¹, so only it needs MCTX_N odd. -/
theorem montinAndMontoutConvert : Obligations.MontinAndMontoutConvert := by
  intro s rd rs1
  refine ⟨fun hmv => ⟨?_, ?_⟩, fun hmv => ?_, fun hmv hodd => ?_⟩
  · exact State.exists_failsCleanly (MontCommand.exec_of_noContext (.into rs1) rd hmv)
  · exact State.exists_failsCleanly (MontCommand.exec_of_noContext (.out rs1) rd hmv)
  · exact State.exists_yieldsX (MontCommand.exec_of_context (.into rs1) rd hmv)
  · obtain ⟨t, ht, hok, hx⟩ :=
      State.exists_yieldsX (MontCommand.exec_of_context (.out rs1) rd hmv)
    obtain ⟨hlt, hinv⟩ := radixInverse_spec s.width hodd
    exact ⟨t, _, ht, hok, hlt, hinv, hx⟩

/-- Settles O16: each run writes its residue and keeps the context for the next. -/
theorem montgomeryLaws : Obligations.MontgomeryLaws := by
  intro s hmv hodd
  refine ⟨fun t t' u a b c d e hcd hbc ha hb hmul => ?_, fun t u a b c hin hout => ?_,
    fun t u a b c hab hba => ?_, fun t a b c hrun => ?_⟩
  · exact montmul_of_montins hmv hodd hcd hbc ha hb hmul
  · exact montout_of_montin hmv hodd hin hout
  · exact montmul_comm hmv hab hba
  · obtain hmul | hin | hout := hrun
    · exact MontCommand.result_lt hmv hodd (.mul a b) hmul
    · exact MontCommand.result_lt hmv hodd (.into a) hin
    · exact MontCommand.result_lt hmv hodd (.out a) hout

/-- Settles O17: K is the bit length of N, which bounds N by powers of two on both sides. -/
theorem barsetupLatchesTheContext : Obligations.BarsetupLatchesTheContext := by
  intro s rs1
  refine ⟨fun hzero => State.exists_failsCleanly (exec_barsetup_of_zero hzero), fun hn => ?_⟩
  have hk : 1 ≤ bitlen (s.src rs1) := by simp [bitlen, hn]
  exact ⟨_, exec_barsetup_of_ne_zero hn, ⟨rfl, rfl, rfl⟩, rfl, hk, two_pow_bitlen_le hn,
    lt_two_pow_bitlen _, rfl, rfl,
    ⟨rfl, rfl, rfl, rfl, rfl, rfl⟩, fun _ _ => rfl, ⟨rfl, rfl, rfl, rfl⟩, ⟨rfl, rfl⟩, ⟨rfl, rfl⟩,
    ⟨fun _ => rfl, rfl⟩, rfl, rfl, rfl⟩

/-- Settles O18: the context, then the domain, then the remainder. -/
theorem barredReduces : Obligations.BarredReduces := by
  intro s rd rs1
  refine ⟨fun hbv => ?_, fun hbv hge => ?_, fun hbv hlt => ?_⟩
  · exact State.exists_failsCleanly (exec_barred_of_noContext rd hbv)
  · exact State.exists_failsCleanly (exec_barred_of_ge rd hbv hge)
  · exact State.exists_yieldsX (exec_barred_of_lt rd hbv hlt)

/-- Settles O19: `powMod` is the modular power. -/
theorem modexpIsTheModularPower : Obligations.ModexpIsTheModularPower := by
  intro s rd rs1 rs2 rs3
  refine ⟨fun hzero => ?_, fun hn => ?_⟩
  · exact State.exists_failsCleanly (exec_modexp_of_zero rd rs1 rs2 hzero)
  · exact State.exists_yieldsX (exec_modexp_of_ne_zero rd rs1 rs2 hn)

end Sys2Proof.Machine
end

section
/-! PROOFS. Primality (42_primality R151 to R156): the engine, which stops and resumes between draws,
performs the rules' procedures; a Miller-Rabin round is the strong test, which a prime passes. -/

namespace Sys2Proof.Machine

/-! ## A procedure performed by the engine -/

/-- The engine's run over the answers, from wherever a rule has got to. -/
def Advance.run (port : Port) (answers : List Answer) : Advance → DriveEnd
  | .done r => .ended r answers
  | .wait p => drive port.cap port.efail answers p

/-- The run from `start` over the answers performs the procedure that ends as `m`: where it returns,
the run goes on with `next` over the answers left, no more than there were; where it raises an error
or lacks an answer, so does the run. -/
def Advance.Performs {α : Type} (port : Port) (answers : List Answer) (start : Advance) (m : Ran α)
    (next : α → Advance) : Prop :=
  match m with
  | .value a rest =>
    start.run port answers = (next a).run port rest ∧ rest.length ≤ answers.length
  | .raised e false rest => start.run port answers = .ended (.raise e) rest
  | .raised e true rest => e = .entropyUnavailable ∧ start.run port answers = .failed rest
  | .starved => ∃ p, start.run port answers = .starved p

section
variable {α β : Type} {port : Port} {answers : List Answer} {start : Advance}

theorem Advance.performs_value (a : α) (next : α → Advance) :
    Advance.Performs port answers (next a) (.value a answers) next := ⟨rfl, le_rfl⟩

/-- A run that goes on over fewer answers performs what it then performs. -/
theorem Advance.Performs.of_run_eq {rest : List Answer} {later : Advance} {m : Ran α}
    {next : α → Advance} (hrun : start.run port answers = later.run port rest)
    (hlen : rest.length ≤ answers.length) (h : Advance.Performs port rest later m next) :
    Advance.Performs port answers start m next := by
  unfold Advance.Performs at h ⊢
  rw [hrun]
  match m with
  | .value _ _ => exact h.imp_right (le_trans · hlen)
  | .raised _ false _ | .raised _ true _ | .starved => exact h

/-- One procedure after another. -/
theorem Advance.Performs.andThen {m : Ran α} {next : α → Advance} {f : α → List Answer → Ran β}
    {last : β → Advance} (h : Advance.Performs port answers start m next)
    (hf : ∀ a rest, rest.length ≤ answers.length →
      Advance.Performs port rest (next a) (f a rest) last) :
    Advance.Performs port answers start (m.andThen f) last := by
  match m with
  | .value a rest =>
    obtain ⟨hrun, hlen⟩ := h
    exact (hf a rest hlen).of_run_eq hrun hlen
  | .raised _ false _ | .raised _ true _ | .starved => exact h

/-- The check before a draw of a sampling loop: CAP, then EFAIL (60_exceptions R246, R258). -/
theorem WaitPoint.blocked_of_count {p : WaitPoint} {c : Nat} (hc : p.count = some c) (cap : Nat)
    (efail : Bool) :
    p.blocked cap efail = if cap ≠ 0 ∧ c = cap then some .retryBudgetExceeded
      else if efail then some .entropyUnavailable else none := by
  simp [WaitPoint.blocked, capReached, hc]

/-- A turn of a sampling loop is one draw of the engine, after which fewer answers are left. -/
theorem Advance.performs_draw {p : WaitPoint} {c : Nat} (hc : p.count = some c)
    {f : Nat → List Answer → Ran α} {last : α → Advance}
    (hf : ∀ v rest, rest.length < answers.length →
      Advance.Performs port rest (p.answered v) (f v rest) last) :
    Advance.Performs port answers (.wait p)
      ((Procedure.cappedEntropy port c p.width answers).andThen f) last := by
  have hblocked := p.blocked_of_count hc port.cap port.efail
  unfold Procedure.cappedEntropy Procedure.entropy
  split at hblocked
  · next hcap =>
    rw [if_pos hcap]
    exact drive_of_blocked answers hblocked
  next hcap =>
  rw [if_neg hcap]
  split at hblocked
  · next hefail =>
    rw [if_pos hefail]
    exact drive_of_blocked answers hblocked
  next hefail =>
  rw [if_neg hefail]
  match answers with
  | [] => exact ⟨p, drive_nil hblocked⟩
  | .fail :: rest => exact ⟨rfl, drive_fail rest hblocked⟩
  | .value v :: rest =>
    have hrun : (Advance.wait p).run port (.value v :: rest)
        = (p.answered (v % 2 ^ p.width)).run port rest := by
      cases hv : p.answered (v % 2 ^ p.width) with
      | done r => exact drive_value_done rest hblocked hv
      | wait q => exact drive_value_wait rest hblocked hv
    exact (hf _ rest (Nat.lt_succ_self _)).of_run_eq hrun (Nat.le_succ _)

end

/-- A command's step follows the procedure its run performs, once the rule ends where the procedure
returns. -/
theorem Advance.Performs.follows {α : Type} {s : State} {start : Advance} {m : Ran α}
    {next : α → Advance} {writes : α → List Write} {onSuccess : State → α → Prop}
    (h : start.Performs s.port s.entropy m next) (hnext : ∀ a, next a = .done (.ok (writes a)))
    (hok : ∀ a rest,
      onSuccess (State.complete { s with entropy := rest } (.ok (writes a))) a) :
    s.Follows (s.advance start) m (onSuccess (s.advance start)) := by
  have hsettle : s.advance start = s.settle (start.run s.port s.entropy) := by
    cases start <;> rfl
  rw [hsettle]
  match m with
  | .value a rest =>
    obtain ⟨hrun, -⟩ := h
    rw [hrun, hnext]
    exact ⟨⟨rfl, rfl, rfl⟩, State.complete_entropy _ _, hok a rest⟩
  | .raised e false rest =>
    have hrun : start.run s.port s.entropy = .ended (.raise e) rest := h
    rw [hrun]
    refine ⟨⟨rfl, rfl, rfl⟩, ⟨rfl, rfl, rfl, rfl, rfl, rfl⟩, ?_, rfl, rfl⟩
    rw [Bool.or_false]
    rfl
  | .raised e true rest =>
    obtain ⟨rfl, hrun⟩ := h
    rw [hrun]
    refine ⟨⟨rfl, rfl, rfl⟩, ⟨rfl, rfl, rfl, rfl, rfl, rfl⟩, ?_, rfl, rfl⟩
    rw [Bool.or_true]
    rfl
  | .starved =>
    obtain ⟨p, hrun⟩ := h
    rw [hrun]
    exact ⟨⟨p, rfl⟩, ⟨rfl, rfl, rfl, rfl, rfl, rfl⟩, rfl, rfl, rfl, rfl, rfl⟩

/-! ## The procedure MR (R151, R152) -/

/-- Where the rule stands before `k` more rounds of MR(num, …). -/
def beginRounds (use : MrUse) (num k : Nat) : Advance :=
  if k = 0 then verdict use num true else beginWitness use num k

/-- Where the rule goes on after the round of witness `a`, with `k` more to come. -/
def roundRun (use : MrUse) (num k a : Nat) : Advance :=
  if witnessPasses num a then beginRounds use num k else verdict use num false

theorem witnessDrawn_eq (use : MrUse) (num k w c v : Nat) :
    witnessDrawn use num (k + 1) w c v =
      if 2 ≤ v ∧ v ≤ num - 2 then roundRun use num k v
      else if num - 2 < v then .wait (.witness use num (k + 1) (max 2 (w - 1)) c)
      else .wait (.witness use num (k + 1) w c) := rfl

theorem beginMr_of_ge {num : Nat} (h : 4 ≤ num) (use : MrUse) (k : Nat) :
    beginMr use num k = beginRounds use num k := by
  rw [beginMr, if_neg (by omega), if_neg (by omega)]
  rfl

section
variable {port : Port} {answers : List Answer} {use : MrUse} {num : Nat}

theorem sampleLoop_performed {fuel k w c : Nat} (hfuel : answers.length < fuel) :
    Advance.Performs port answers (.wait (.witness use num (k + 1) w c))
      (Procedure.sampleLoop port (num - 2) fuel w c answers) (roundRun use num k) := by
  induction fuel generalizing w c answers with
  | zero => exact absurd hfuel (Nat.not_lt_zero _)
  | succ fuel ih =>
    rw [Procedure.sampleLoop]
    refine Advance.performs_draw rfl fun v rest hlt => ?_
    have hrest : rest.length < fuel := by omega
    rw [WaitPoint.answered, witnessDrawn_eq]
    split
    · exact Advance.performs_value v (roundRun use num k)
    · split
      · exact ih hrest
      · exact ih hrest

theorem rounds_performed (k : Nat) :
    Advance.Performs port answers (beginRounds use num k) (Procedure.rounds port num k answers)
      (verdict use num) := by
  induction k generalizing answers with
  | zero => exact Advance.performs_value true (verdict use num)
  | succ k ih =>
    refine Advance.Performs.andThen (sampleLoop_performed (Nat.lt_succ_self _)) fun a rest _ => ?_
    rw [roundRun]
    split
    · exact ih
    · exact Advance.performs_value false (verdict use num)

/-- MR(num, k) is performed from its start to its verdict. -/
theorem mr_performed (k : Nat) :
    Advance.Performs port answers (beginMr use num k) (Procedure.mr port num k answers)
      (verdict use num) := by
  rw [Procedure.mr]
  split
  · next hlt =>
    rw [beginMr, if_pos hlt]
    exact Advance.performs_value false (verdict use num)
  next hlt =>
  split
  · next hsmall =>
    rw [beginMr, if_neg hlt, if_pos hsmall]
    exact Advance.performs_value true (verdict use num)
  · next hsmall =>
    rw [beginMr_of_ge (by omega)]
    exact rounds_performed k

end

/-! ## The candidate loop (R154, 44_keypair R201) -/

/-- The candidate a search rejects before any witness draw: loop Q rejects p (44_keypair R201). -/
def Search.skip : Search → Option Nat
  | .keygenQ p => some p
  | .primegen _ | .keygenP => none

theorem Search.skip_eq_some_iff {s : Search} {cand : Nat} :
    s.skip = some cand ↔ s = .keygenQ cand := by
  cases s <;> simp [Search.skip]

theorem primeLoop_performed {port : Port} {answers : List Answer} {s : Search} {nb fuel c : Nat}
    (hfuel : answers.length < fuel) :
    Advance.Performs port answers (.wait (.candidate s nb c))
      (Procedure.primeLoop port nb s.skip fuel c answers) (primeFound s nb) := by
  induction fuel generalizing c answers with
  | zero => exact absurd hfuel (Nat.not_lt_zero _)
  | succ fuel ih =>
    rw [Procedure.primeLoop]
    refine Advance.performs_draw rfl fun cand rest hlt => ?_
    rw [WaitPoint.answered, candidateDrawn]
    simp only [Search.skip_eq_some_iff]
    split
    · exact ih (by omega)
    · refine (mr_performed Config.primegenRounds).andThen fun v rest' hle => ?_
      cases v with
      | true => exact Advance.performs_value cand (primeFound s nb)
      | false => exact ih (by omega)

/-- The search is performed from its first draw to the candidate that passes. -/
theorem findPrime_performed {port : Port} {answers : List Answer} (s : Search) (nb : Nat) :
    Advance.Performs port answers (.wait (.candidate s nb 0))
      (Procedure.findPrime port nb s.skip answers) (primeFound s nb) :=
  primeLoop_performed (Nat.lt_succ_self _)

/-! ## What a procedure ensures -/

/-- The procedure returns only values with `P`, and every error it raises is one. -/
def Ran.Ensures {α : Type} (P : α → Prop) : Ran α → Prop
  | .value a _ => P a
  | .raised e _ _ => e ≠ .ok
  | .starved => True

theorem Ran.Ensures.andThen {α β : Type} {P : α → Prop} {Q : β → Prop} {m : Ran α}
    {f : α → List Answer → Ran β} (hm : m.Ensures P)
    (hf : ∀ a rest, P a → (f a rest).Ensures Q) : (m.andThen f).Ensures Q := by
  match m with
  | .value a rest => exact hf a rest hm
  | .raised _ _ _ => exact hm
  | .starved => trivial

theorem cappedEntropy_lt (port : Port) (c k : Nat) (answers : List Answer) :
    (Procedure.cappedEntropy port c k answers).Ensures (· < 2 ^ k) := by
  unfold Procedure.cappedEntropy Procedure.entropy
  split
  · simp [Ran.Ensures]
  · split
    · simp [Ran.Ensures]
    · split
      · trivial
      · simp [Ran.Ensures]
      · exact Nat.mod_lt _ (Nat.two_pow_pos k)

/-- R152: a witness lies in [2, hi]. -/
theorem sampleLoop_mem (port : Port) (hi fuel w c : Nat) (answers : List Answer) :
    (Procedure.sampleLoop port hi fuel w c answers).Ensures fun a => 2 ≤ a ∧ a ≤ hi := by
  induction fuel generalizing w c answers with
  | zero => trivial
  | succ fuel ih =>
    refine (cappedEntropy_lt port c w answers).andThen fun v rest _ => ?_
    split
    · next hmem => exact hmem
    · split
      · exact ih _ _ _
      · exact ih _ _ _

/-- Where every witness passes, so does every number of rounds. -/
theorem rounds_true_of_witnessPasses {num : Nat}
    (hpass : ∀ a, 2 ≤ a → a ≤ num - 2 → witnessPasses num a = true) (port : Port) (k : Nat)
    (answers : List Answer) : (Procedure.rounds port num k answers).Ensures (· = true) := by
  induction k generalizing answers with
  | zero => exact rfl
  | succ k ih =>
    refine (sampleLoop_mem port (num - 2) _ _ 0 answers).andThen fun a rest hmem => ?_
    obtain ⟨hlo, hhi⟩ := hmem
    rw [if_pos (hpass a hlo hhi)]
    exact ih rest

/-! ## The strong test (R151) -/

/-- The halvings find the odd part and the exponent of two of a number that is given by them. -/
theorem oddPart_of_odd {d : Nat} (hd : d % 2 = 1) (r fuel r0 : Nat) (hfuel : r ≤ fuel) :
    oddPart fuel (d * 2 ^ r) r0 = (d, r0 + r) := by
  induction r generalizing fuel r0 with
  | zero => cases fuel <;> simp [oddPart, hd]
  | succ r ih =>
    obtain ⟨fuel, rfl⟩ : ∃ f, fuel = f + 1 := ⟨fuel - 1, by omega⟩
    have hdouble : d * 2 ^ (r + 1) = d * 2 ^ r * 2 := by rw [pow_succ, mul_assoc]
    rw [oddPart, hdouble, if_pos (Nat.mul_mod_left _ 2), Nat.mul_div_cancel _ two_pos,
      ih fuel (r0 + 1) (by omega), Nat.add_right_comm, Nat.add_assoc]

/-- num passes the strong test to base `a`, where num − 1 = d·2^r with d odd: `a`^d is ±1 or one of
the r − 1 squarings reaches −1. -/
abbrev StrongTest (num d r a : Nat) : Prop :=
  a ^ d % num = 1 ∨ a ^ d % num = num - 1
    ∨ ∃ j, 1 ≤ j ∧ j < r ∧ a ^ (d * 2 ^ j) % num = num - 1

/-- A round passes just on the strong test. -/
theorem witnessPasses_iff {num d r : Nat} (hnum : 4 ≤ num) (hdr : num - 1 = d * 2 ^ r)
    (hd : d % 2 = 1) (a : Nat) : witnessPasses num a = true ↔ StrongTest num d r a := by
  have hr : r ≤ bitlen num := by
    have hle : 2 ^ r ≤ d * 2 ^ r := Nat.le_mul_of_pos_left _ (by omega)
    have hlt := lt_two_pow_bitlen num
    exact ((Nat.pow_lt_pow_iff_right one_lt_two).1 (by omega : 2 ^ r < 2 ^ bitlen num)).le
  have hpow (j : Nat) : (a ^ d % num) ^ 2 ^ j % num = a ^ (d * 2 ^ j) % num := by
    rw [← Nat.pow_mod, ← pow_mul]
  have hrange (j : Nat) : 1 ≤ j ∧ j ≤ r - 1 ↔ 1 ≤ j ∧ j < r := by omega
  simp only [witnessPasses, hdr ▸ oddPart_of_odd hd r _ 0 hr, zero_add, powMod_eq]
  split
  · next h => simp only [true_iff]; exact or_assoc.1 (.inl h)
  · next h =>
    rw [squaringsReach_iff, StrongTest, ← or_assoc, or_iff_right h]
    simp only [hpow, ← and_assoc, hrange]

/-! ## Primes pass (R156) -/

/-- ±1 are the only square roots of 1: of the successive squares that lead to 1, the first is 1 or
one is −1. -/
theorem eq_one_or_pow_eq_neg_one {F : Type} [Field F] {x : F} {r : Nat} (h : x ^ 2 ^ r = 1) :
    x = 1 ∨ ∃ j, j < r ∧ x ^ 2 ^ j = -1 := by
  induction r with
  | zero => exact .inl (by simpa using h)
  | succ r ih =>
    rw [pow_succ, pow_mul, sq_eq_one_iff] at h
    obtain hone | hneg := h
    · exact (ih hone).imp_right fun ⟨j, hj, hx⟩ => ⟨j, Nat.lt_succ_of_lt hj, hx⟩
    · exact .inr ⟨r, Nat.lt_succ_self r, hneg⟩

theorem mod_eq_of_cast_eq {n m v : Nat} (hv : v < n) (h : (m : ZMod n) = v) : m % n = v := by
  rw [(ZMod.natCast_eq_natCast_iff' m v n).1 h, Nat.mod_eq_of_lt hv]

/-- A prime passes every round: Fermat's theorem ends the squarings at 1. -/
theorem witnessPasses_of_prime {num a : Nat} (hprime : num.Prime) (hnum : 4 ≤ num) (hlo : 2 ≤ a)
    (hhi : a ≤ num - 2) : witnessPasses num a = true := by
  obtain ⟨r, d, hd, hdr⟩ := Nat.exists_eq_two_pow_mul_odd (n := num - 1) (by omega)
  rw [mul_comm] at hdr
  rw [witnessPasses_iff hnum hdr (Nat.odd_iff.1 hd)]
  have hfact : Fact num.Prime := ⟨hprime⟩
  have ha : (a : ZMod num) ≠ 0 := by
    rw [Ne, ZMod.natCast_eq_zero_iff]
    exact Nat.not_dvd_of_pos_of_lt (by omega) (by omega)
  have hfermat : ((a : ZMod num) ^ d) ^ 2 ^ r = 1 := by
    rw [← pow_mul, ← hdr]
    exact ZMod.pow_card_sub_one_eq_one ha
  have hminus : ((num - 1 : Nat) : ZMod num) = -1 := by
    rw [Nat.cast_pred (by omega), ZMod.natCast_self, zero_sub]
  obtain hone | ⟨j, hj, hneg⟩ := eq_one_or_pow_eq_neg_one hfermat
  · exact .inl (mod_eq_of_cast_eq (by omega) (by rw [Nat.cast_pow, hone, Nat.cast_one]))
  · have hmod : a ^ (d * 2 ^ j) % num = num - 1 :=
      mod_eq_of_cast_eq (by omega) (by rw [Nat.cast_pow, pow_mul, hneg, hminus])
    cases j with
    | zero => exact .inr (.inl (by simpa using hmod))
    | succ j => exact .inr (.inr ⟨j + 1, Nat.le_add_left 1 j, hj, hmod⟩)

/-- MR returns no verdict but "prime" on a prime. -/
theorem mr_true_of_prime {num : Nat} (hprime : num.Prime) (port : Port) (k : Nat)
    (answers : List Answer) : (Procedure.mr port num k answers).Ensures (· = true) := by
  have htwo := hprime.two_le
  rw [Procedure.mr, if_neg (by omega)]
  split
  · exact rfl
  · exact rounds_true_of_witnessPasses
      (fun a => witnessPasses_of_prime hprime (by omega)) port k answers

/-! ## One round (R151, R152) -/

theorem bitlen_eq {v w : Nat} (hlo : 2 ^ (w - 1) ≤ v) (hhi : v < 2 ^ w) :
    bitlen v = w := by
  have hle : bitlen v ≤ w := bitlen_le_of_lt_two_pow hhi
  have hlt : w - 1 < bitlen v :=
    (Nat.pow_lt_pow_iff_right one_lt_two).1 (hlo.trans_lt (lt_two_pow_bitlen v))
  omega

/-- A first draw in [2, num − 2] is the witness. -/
theorem sampleWitness_of_mem {port : Port} {num draw v : Nat} {rest : List Answer}
    (hefail : port.efail = false) (hv : v = draw % 2 ^ bitlen (num - 2)) (hlo : 2 ≤ v)
    (hhi : v ≤ num - 2) :
    Procedure.sampleWitness port num (.value draw :: rest) = .value v rest := by
  have hcap : ¬ (port.cap ≠ 0 ∧ 0 = port.cap) := by omega
  simp only [Procedure.sampleWitness, Procedure.sampleLoop, Procedure.cappedEntropy, if_neg hcap,
    Procedure.entropy, hefail, Bool.false_eq_true, if_false, Ran.andThen, ← hv,
    if_pos (And.intro hlo hhi)]

/-- MR of one round is the round of its witness. -/
theorem mr_one_round {port : Port} {num a : Nat} {answers rest : List Answer} (hnum : 4 ≤ num)
    (h : Procedure.sampleWitness port num answers = .value a rest) :
    Procedure.mr port num 1 answers = .value (witnessPasses num a) rest := by
  rw [Procedure.mr, if_neg (by omega), if_neg (by omega), Procedure.rounds, h, Ran.andThen]
  cases witnessPasses num a <;> rfl

/-! ## The commands (R153, R154) -/

section
variable {s : State}

theorem exec_mrtest_of_zero (h : s.atStart = true) (rd rs1 : Reg) (hzero : s.argument = 0) :
    exec (.mrtest rd rs1) s = .next (s.complete (.raise .invalidArg)) := by
  rw [exec, execMrtest, State.sample_of_atStart h, if_pos hzero]
  rfl

theorem exec_mrtest_of_ne_zero (h : s.atStart = true) (rd rs1 : Reg) (hne : s.argument ≠ 0) :
    exec (.mrtest rd rs1) s
      = .next (s.advance (beginMr (.mrtest rd) (s.src rs1) s.argument)) := by
  rw [exec, execMrtest, State.sample_of_atStart h, if_neg hne]

theorem exec_primegen_of_badWidth (h : s.atStart = true) (rd : Reg)
    (hbad : s.argument = 0 ∨ s.width < s.argument) :
    exec (.primegen rd) s = .next (s.complete (.raise .invalidArg)) := by
  have hcheck : s.badWidth s.argument = true := decide_eq_true hbad
  rw [exec, execPrimegen, State.sample_of_atStart h, hcheck]
  rfl

theorem exec_primegen_of_width (h : s.atStart = true) (rd : Reg) (hlo : 1 ≤ s.argument)
    (hhi : s.argument ≤ s.width) :
    exec (.primegen rd) s
      = .next (s.advance (.wait (.candidate (.primegen rd) s.argument 0))) := by
  have hcheck : s.badWidth s.argument = false := State.badWidth_eq_false_iff.2 ⟨hlo, hhi⟩
  rw [exec, execPrimegen, State.sample_of_atStart h, hcheck]
  rfl

end

/-- A completion that writes a verdict to an operand register and RES changes those two only. -/
theorem State.complete_x_res_onlyX (s : State) (rd : Reg) (v : Nat) (b : Bool)
    (rest : List Answer) :
    s.OnlyX (State.complete { s with entropy := rest } (.ok [.x rd v, .res b])) [rd] := by
  obtain ⟨-, -, honly, -⟩ := s.yieldsX_complete_x rd v rest
  exact honly

/-! ## The obligations -/

/-- Settles O20: the run from the start of MR performs MR, and its verdict ends the command. -/
theorem mrtestFollowsMillerRabin : Obligations.MrtestFollowsMillerRabin := by
  intro s rd rs1 hstart
  refine ⟨fun hzero => State.exists_failsCleanly (exec_mrtest_of_zero hstart rd rs1 hzero),
    fun hne => ⟨_, exec_mrtest_of_ne_zero hstart rd rs1 hne, ?_⟩⟩
  exact (mr_performed s.argument).follows
    (writes := fun v : Bool => [.x rd (if v then 1 else 0), .res v])
    (onSuccess := fun t v => t.bank.readX rd = (if v then 1 else 0) ∧ t.res = v ∧ s.OnlyX t [rd])
    (fun _ => rfl)
    fun v rest => ⟨s.bank.readX_writeX_same rd (if v then 1 else 0), rfl,
      s.complete_x_res_onlyX rd _ v rest⟩

/-- Settles O21: the halvings give back d and r, and MR of one round is that round. -/
theorem millerRabinRoundIsTheStrongTest : Obligations.MillerRabinRoundIsTheStrongTest := by
  intro num d r hnum hdr hd
  have hround := witnessPasses_iff hnum hdr hd
  refine ⟨hround, ?_⟩
  intro s rd rs1 w draw v rest hstart hsrc harg hefail hs hwlo hwhi hv hlo hhi
  obtain ⟨-, hrun⟩ := mrtestFollowsMillerRabin s rd rs1 hstart
  obtain ⟨t, hexec, hfollows⟩ := hrun (by omega)
  have hwidth : bitlen (num - 2) = w := bitlen_eq hwlo hwhi
  have hwitness : Procedure.sampleWitness s.port num s.entropy = .value v rest := by
    rw [hs]
    exact sampleWitness_of_mem hefail (hwidth ▸ hv) hlo hhi
  rw [hsrc, harg, mr_one_round hnum hwitness] at hfollows
  obtain ⟨hok, hrest, hx, hres, honly⟩ := hfollows
  refine ⟨t, hexec, hok, fun hpass => ?_, fun hone hminus hsquares => ?_, honly, hrest⟩
  · rw [(hround v).2 hpass] at hx hres
    exact ⟨hx, hres⟩
  · have hfails : witnessPasses num v = false := by
      rw [Bool.eq_false_iff, Ne, hround]
      rintro (h | h | ⟨j, hj1, hjr, h⟩)
      · exact hone h
      · exact hminus h
      · exact hsquares j hj1 hjr h
    rw [hfails] at hx hres
    exact ⟨hx, hres⟩

/-- Settles O22: MRTEST follows MR, and MR has no other verdict on a prime. -/
theorem primeIsNeverReportedComposite : Obligations.PrimeIsNeverReportedComposite := by
  intro s t rd rs1 hstart hprime hexec hok
  obtain ⟨hidle, -, herr⟩ := hok
  obtain ⟨hinvalid, hrun⟩ := mrtestFollowsMillerRabin s rd rs1 hstart
  by_cases hzero : s.argument = 0
  · obtain ⟨u, hu, ⟨-, -, huerr⟩, -⟩ := hinvalid hzero
    cases hexec.symm.trans hu
    exact absurd (herr.symm.trans huerr) (by decide)
  · obtain ⟨u, hu, hfollows⟩ := hrun hzero
    cases hexec.symm.trans hu
    have hensures := mr_true_of_prime hprime s.port s.argument s.entropy
    match hmr : Procedure.mr s.port (s.src rs1) s.argument s.entropy with
    | .value v rest =>
      rw [hmr] at hfollows hensures
      obtain ⟨-, -, hx, hres, -⟩ := hfollows
      obtain rfl : v = true := hensures
      exact ⟨hx, hres⟩
    | .raised e failed rest =>
      rw [hmr] at hfollows hensures
      obtain ⟨⟨-, -, hraised⟩, -⟩ := hfollows
      exact absurd (hraised.symm.trans herr) hensures
    | .starved =>
      rw [hmr] at hfollows
      obtain ⟨⟨p, hbusy⟩, -⟩ := hfollows
      exact absurd (hbusy.symm.trans hidle) (by simp)

/-- Settles O23: the run from the first draw performs the candidate loop, and the candidate that
passes ends the command. -/
theorem primegenFollowsTheCandidateLoop : Obligations.PrimegenFollowsTheCandidateLoop := by
  intro s rd hstart
  refine ⟨fun hbad => State.exists_failsCleanly (exec_primegen_of_badWidth hstart rd hbad),
    fun hlo hhi => ⟨_, exec_primegen_of_width hstart rd hlo hhi, ?_⟩⟩
  refine (findPrime_performed (.primegen rd) s.argument).follows
    (writes := fun cand => [.x rd cand])
    (onSuccess := fun t cand => t.bank.readX rd = cand ∧ s.OnlyX t [rd] ∧ t.res = s.res)
    (fun _ => rfl) fun cand rest => ?_
  obtain ⟨-, hx, honly, hres, -⟩ := s.yieldsX_complete_x rd cand rest
  exact ⟨hx, honly, hres⟩

end Sys2Proof.Machine
end

section
/-! PROOFS. Number theory (43_number_theory R171 to R182): the range and the identity of the
normalized coefficients, the inverse, the coprime loop, and how each command completes. -/

namespace Sys2Proof.Machine

/-! ## The raw coefficients (R176) -/

/-- A turn of the recurrence does not raise |s1|·r0 + |s0|·r1. -/
theorem egcd_turn_sum_le (r0 r1 : Nat) (s0 s1 : Int) :
    |s0 - (r0 / r1 : Nat) * s1| * r1 + |s1| * (r0 % r1 : Nat) ≤ |s1| * r0 + |s0| * r1 := by
  have hdiv : (r0 : Int) = r1 * (r0 / r1 : Nat) + (r0 % r1 : Nat) := by
    exact_mod_cast (Nat.div_add_mod r0 r1).symm
  generalize r0 / r1 = q at hdiv ⊢
  generalize r0 % r1 = r at hdiv ⊢
  have htri : |s0 - q * s1| ≤ |s0| + q * |s1| :=
    (abs_sub s0 (q * s1)).trans_eq (by rw [abs_mul, Nat.abs_cast])
  calc |s0 - q * s1| * r1 + |s1| * r
      ≤ (|s0| + q * |s1|) * r1 + |s1| * r := by gcongr
    _ = |s1| * r0 + |s0| * r1 := by rw [hdiv]; ring

/-- The strict form of `egcdLoop_x_abs_le`: a new coefficient is returned only if another turn
follows, and then its remainder r1 is at least 2, so that the sum bounds it by half. -/
theorem egcdLoop_x_abs_lt {M : Int} (fuel r0 r1 : Nat) (s0 s1 t0 t1 : Int) (h0 : |s0| < M)
    (h1 : r1 = 0 ∨ |s1| < M) (hsum : |s1| * r0 + |s0| * r1 ≤ M) :
    |(egcdLoop fuel r0 r1 s0 s1 t0 t1).x| < M := by
  induction fuel generalizing r0 r1 s0 s1 t0 t1 with
  | zero => exact h0
  | succ fuel ih =>
    unfold egcdLoop
    split
    · exact h0
    · next hr1 =>
      have hturn := (egcd_turn_sum_le r0 r1 s0 s1).trans hsum
      refine ih _ _ _ _ _ _ (h1.resolve_left hr1) ?_ hturn
      obtain hzero | hpos := Nat.eq_zero_or_pos (r0 % r1)
      · exact .inl hzero
      · have hlt := Nat.mod_lt r0 (Nat.pos_of_ne_zero hr1)
        have htwo : (2 : Int) ≤ r1 := by omega
        have hhalf := mul_le_mul_of_nonneg_left htwo (abs_nonneg (s0 - (r0 / r1 : Nat) * s1))
        have hrest : 0 ≤ |s1| * ((r0 % r1 : Nat) : Int) := by positivity
        have hM := (abs_nonneg s0).trans_lt h0
        refine .inr ?_
        rw [Int.ofNat_eq_natCast]
        linarith

theorem egcdRaw_x_abs_lt (a b : Nat) : |(egcdRaw a b).x| < max b 2 :=
  egcdLoop_x_abs_lt (b + 1) a b 1 0 0 1 (by simp) (.inr (by simp)) (by simp)

theorem egcdRaw_y_abs_lt (a b : Nat) : |(egcdRaw a b).y| < max a 2 := by
  rw [egcdRaw, egcdLoop_y]
  exact egcdLoop_x_abs_lt (b + 1) a b 0 1 1 0 (by simp) (.inr (by simp)) (by simp)

/-- The recurrence makes no turn when b = 0. -/
theorem egcdRaw_zero_right (a : Nat) : egcdRaw a 0 = ⟨a, 1, 0⟩ := rfl

/-- The recurrence makes one turn when b = 1. -/
theorem egcdRaw_one_right_x (a : Nat) : (egcdRaw a 1).x = 0 := by
  simp [egcdRaw, egcdLoop, Nat.mod_one]

/-- A coefficient of a is negative only where there is a b to add to it. -/
theorem right_ne_zero_of_egcdRaw_x_neg {a b : Nat} (h : (egcdRaw a b).x < 0) : b ≠ 0 := by
  rintro rfl
  simp [egcdRaw_zero_right] at h

/-- A coefficient of b is negative only where there is an a to add to it. -/
theorem left_ne_zero_of_egcdRaw_y_neg {a b : Nat} (h : (egcdRaw a b).y < 0) : a ≠ 0 := by
  rintro rfl
  have hid := egcdRaw_identity 0 b
  obtain rfl | hb := Nat.eq_zero_or_pos b
  · exact absurd h (by decide)
  · have := mul_neg_of_neg_of_pos h (Nat.cast_pos.2 hb : (0 : Int) < b)
    simp only [Nat.cast_zero, mul_zero, zero_add] at hid
    omega

/-- At most one coefficient is negative: the combination of both is the gcd. -/
theorem egcdRaw_y_nonneg_of_x_neg {a b : Nat} (h : (egcdRaw a b).x < 0) :
    0 ≤ (egcdRaw a b).y := by
  by_contra! hy
  have ha := Nat.pos_of_ne_zero (left_ne_zero_of_egcdRaw_y_neg hy)
  have hb := Nat.pos_of_ne_zero (right_ne_zero_of_egcdRaw_x_neg h)
  have hid := egcdRaw_identity a b
  have := mul_neg_of_neg_of_pos h (Nat.cast_pos.2 ha : (0 : Int) < a)
  have := mul_neg_of_neg_of_pos hy (Nat.cast_pos.2 hb : (0 : Int) < b)
  omega

/-! ## The normalized coefficients (R177) -/

theorem addWhenNegative_of_neg {z : Int} (h : z < 0) (n : Nat) : addWhenNegative z n = z + n :=
  if_pos h

theorem addWhenNegative_of_nonneg {z : Int} (h : 0 ≤ z) (n : Nat) : addWhenNegative z n = z :=
  if_neg h.not_gt

theorem addWhenNegative_mem {z : Int} {n : Nat} (hz : |z| < max n 2) (hn : z < 0 → n ≠ 0) :
    0 ≤ addWhenNegative z n ∧ addWhenNegative z n < max n 2 := by
  rw [abs_lt] at hz
  obtain hneg | hnonneg := lt_or_ge z 0
  · have := hn hneg
    rw [addWhenNegative_of_neg hneg]
    omega
  · rw [addWhenNegative_of_nonneg hnonneg]
    omega

theorem egcdNorm_x_mem (a b : Nat) : 0 ≤ (egcdNorm a b).x ∧ (egcdNorm a b).x < max b 2 :=
  addWhenNegative_mem (egcdRaw_x_abs_lt a b) right_ne_zero_of_egcdRaw_x_neg

theorem egcdNorm_y_mem (a b : Nat) : 0 ≤ (egcdNorm a b).y ∧ (egcdNorm a b).y < max a 2 :=
  addWhenNegative_mem (egcdRaw_y_abs_lt a b) left_ne_zero_of_egcdRaw_y_neg

/-- R177: normalization adds a·b once where a coefficient was negative. -/
theorem egcdNorm_identity (a b : Nat) :
    ∃ k : Nat, k ≤ 1 ∧ (egcdNorm a b).x * a + (egcdNorm a b).y * b
      = (Nat.gcd a b : Nat) + k * (a * b) := by
  have hid := egcdRaw_identity a b
  rw [egcdRaw_g] at hid
  simp only [egcdNorm]
  obtain hx | hx := lt_or_ge (egcdRaw a b).x 0
  · rw [addWhenNegative_of_neg hx, addWhenNegative_of_nonneg (egcdRaw_y_nonneg_of_x_neg hx)]
    exact ⟨1, le_rfl, by push_cast; linear_combination hid⟩
  · rw [addWhenNegative_of_nonneg hx]
    obtain hy | hy := lt_or_ge (egcdRaw a b).y 0
    · rw [addWhenNegative_of_neg hy]
      exact ⟨1, le_rfl, by push_cast; linear_combination hid⟩
    · rw [addWhenNegative_of_nonneg hy]
      exact ⟨0, zero_le_one, by push_cast; linear_combination hid⟩

/-- The laws of R177 in naturals, as EGCD writes the coefficients. -/
theorem egcdNorm_coefficients (a b : Nat) :
    ∃ x y k : Nat, (egcdNorm a b).x = x ∧ (egcdNorm a b).y = y ∧ x < max b 2 ∧ y < max a 2
      ∧ k ≤ 1 ∧ x * a + y * b = Nat.gcd a b + k * (a * b) := by
  obtain ⟨hx, hxlt⟩ := egcdNorm_x_mem a b
  obtain ⟨hy, hylt⟩ := egcdNorm_y_mem a b
  obtain ⟨k, hk, hid⟩ := egcdNorm_identity a b
  generalize (egcdNorm a b).x = x at *
  generalize (egcdNorm a b).y = y at *
  lift x to Nat using hx
  lift y to Nat using hy
  exact ⟨x, y, k, rfl, rfl, by omega, by omega, hk, by exact_mod_cast hid⟩

/-- R180: the normalized coefficient of e is its inverse in [0, φ), for φ = 1 too. -/
theorem egcdNorm_inverse_of_ne_zero {e phi : Nat} (hphi : phi ≠ 0) (hgcd : Nat.gcd e phi = 1) :
    (egcdNorm e phi).x.toNat < phi ∧ e * (egcdNorm e phi).x.toNat % phi = 1 % phi := by
  obtain rfl | htwo : phi = 1 ∨ 2 ≤ phi := by omega
  · have hx : (egcdNorm e 1).x = 0 := by
      simp only [egcdNorm, egcdRaw_one_right_x, addWhenNegative_of_nonneg le_rfl]
    rw [hx]
    exact ⟨Nat.zero_lt_one, by rw [Nat.mod_one, Nat.mod_one]⟩
  · rw [Nat.mod_eq_of_lt (show 1 < phi from htwo)]
    exact egcdNorm_inverse htwo hgcd

/-! ## CoprimeLoop (R181) -/

theorem coprimeLoop_performed {port : Port} {answers : List Answer} {use : CoprimeUse}
    {m nb fuel c : Nat} (hfuel : answers.length < fuel) :
    Advance.Performs port answers (.wait (.coprime use m nb c))
      (Procedure.coprimeLoop port m nb fuel c answers) (coprimeFound use) := by
  induction fuel generalizing c answers with
  | zero => exact absurd hfuel (Nat.not_lt_zero _)
  | succ fuel ih =>
    rw [Procedure.coprimeLoop]
    refine Advance.performs_draw rfl fun cand rest hlt => ?_
    rw [WaitPoint.answered, coprimeDrawn]
    split
    · exact Advance.performs_value cand (coprimeFound use)
    · exact ih (by omega)

/-- CoprimeLoop is performed from its first draw to the value it finds. -/
theorem findCoprime_performed {port : Port} {answers : List Answer} (use : CoprimeUse)
    (m nb : Nat) :
    Advance.Performs port answers (beginCoprime use m nb)
      (Procedure.findCoprime port m nb answers) (coprimeFound use) :=
  coprimeLoop_performed (Nat.lt_succ_self _)

theorem coprimeLoop_coprime (port : Port) (m nb fuel c : Nat) (answers : List Answer) :
    (Procedure.coprimeLoop port m nb fuel c answers).Ensures
      fun v => v < m ∧ Nat.gcd m v = 1 := by
  induction fuel generalizing c answers with
  | zero => trivial
  | succ fuel ih =>
    refine (cappedEntropy_lt port c nb answers).andThen fun v rest _ => ?_
    split
    · next hfound => exact hfound
    · exact ih _ _

/-- A value that CoprimeLoop returns lies below the modulus and is coprime to it. -/
theorem findCoprime_coprime (port : Port) (m nb : Nat) (answers : List Answer) :
    (Procedure.findCoprime port m nb answers).Ensures fun v => v < m ∧ Nat.gcd m v = 1 :=
  coprimeLoop_coprime port m nb _ 0 answers

/-- A step that follows a procedure also has what the procedure ensures of its value. -/
theorem Ran.Ensures.follows {α : Type} {s t : State} {m : Ran α} {P Q R : α → Prop}
    (hm : m.Ensures Q) (h : s.Follows t m P) (himp : ∀ a, P a → Q a → R a) :
    s.Follows t m R := by
  match m with
  | .value a rest =>
    obtain ⟨hok, hrest, ha⟩ := h
    exact ⟨hok, hrest, himp a ha hm⟩
  | .raised e failed rest => exact h
  | .starved => exact h

/-! ## Each command's completion -/

/-- One more write to a register of `written` keeps the others. -/
theorem Bank.SameXBut.writeX {b c : Bank} {written : List Reg} (h : b.SameXBut c written)
    {r : Reg} (hr : r ∈ written) (v : Nat) : b.SameXBut (c.writeX r v) written := by
  intro q hq
  have hne : q ≠ r := by
    rintro rfl
    exact hq hr
  rw [Bank.readX_writeX_of_ne c v hne]
  exact h q hq

/-- A completion that writes three different operand registers changes those only. -/
theorem State.complete_x_x_x (s : State) {r r1 r2 : Reg} (h1 : r ≠ r1) (h2 : r ≠ r2)
    (h12 : r1 ≠ r2) (v v1 v2 : Nat) :
    (s.complete (.ok [.x r v, .x r1 v1, .x r2 v2])).bank.readX r = v
      ∧ (s.complete (.ok [.x r v, .x r1 v1, .x r2 v2])).bank.readX r1 = v1
      ∧ (s.complete (.ok [.x r v, .x r1 v1, .x r2 v2])).bank.readX r2 = v2
      ∧ s.OnlyX (s.complete (.ok [.x r v, .x r1 v1, .x r2 v2])) [r, r1, r2] := by
  have hothers : s.bank.SameXBut (((s.bank.writeX r v).writeX r1 v1).writeX r2 v2)
      [r, r1, r2] :=
    Bank.SameXBut.writeX (Bank.SameXBut.writeX (Bank.SameXBut.writeX (fun _ _ => rfl)
      (by simp) v) (by simp) v1) (by simp) v2
  refine ⟨?_, ?_, Bank.readX_writeX_same _ r2 v2,
    ⟨⟨rfl, rfl, rfl, rfl, rfl, rfl⟩, hothers, ⟨rfl, rfl, rfl, rfl⟩, ⟨rfl, rfl⟩, ⟨rfl, rfl⟩,
      ⟨rfl, rfl⟩, ⟨fun _ => rfl, rfl⟩, rfl⟩⟩
  · calc (((s.bank.writeX r v).writeX r1 v1).writeX r2 v2).readX r
        = ((s.bank.writeX r v).writeX r1 v1).readX r := Bank.readX_writeX_of_ne _ v2 h2
      _ = (s.bank.writeX r v).readX r := Bank.readX_writeX_of_ne _ v1 h1
      _ = v := Bank.readX_writeX_same _ r v
  · calc (((s.bank.writeX r v).writeX r1 v1).writeX r2 v2).readX r1
        = ((s.bank.writeX r v).writeX r1 v1).readX r1 := Bank.readX_writeX_of_ne _ v2 h12
      _ = v1 := Bank.readX_writeX_same _ r1 v1

theorem Reg.plus_eq_of_val {r q : Reg} {n : Nat} (h : q.val = r.val + n) : Reg.plus r n = q := by
  refine Fin.ext ?_
  rw [Reg.plus, Fin.val_ofNat, ← h, Nat.mod_eq_of_lt q.isLt]

section
variable {s : State}

theorem exec_egcd_of_gt {rd : Reg} (rs1 rs2 : Reg) (h : 13 < rd.val) :
    exec (.egcd rd rs1 rs2) s = .next (s.complete (.raise .illegalCmd)) := by
  simp only [exec, execEgcd, if_pos h]
  rfl

theorem exec_egcd_of_le {rd r1 r2 : Reg} (rs1 rs2 : Reg) (h1 : r1.val = rd.val + 1)
    (h2 : r2.val = rd.val + 2) :
    exec (.egcd rd rs1 rs2) s
      = .next (s.complete (.ok [.x rd (Nat.gcd (s.src rs1) (s.src rs2)),
          .x r1 (egcdNorm (s.src rs1) (s.src rs2)).x.toNat,
          .x r2 (egcdNorm (s.src rs1) (s.src rs2)).y.toNat])) := by
  have hle : ¬ 13 < rd.val := by omega
  simp only [exec, execEgcd, if_neg hle, egcdNorm_g, Reg.plus_eq_of_val h1,
    Reg.plus_eq_of_val h2]
  rfl

theorem exec_modinv_of_zero (rd rs1 : Reg) {rs2 : Reg} (h : s.src rs2 = 0) :
    exec (.modinv rd rs1 rs2) s = .next (s.complete (.raise .invalidArg)) := by
  simp only [exec, execModinv, if_pos h]
  rfl

theorem exec_modinv_of_not_coprime (rd : Reg) {rs1 rs2 : Reg} (h : s.src rs2 ≠ 0)
    (hgcd : Nat.gcd (s.src rs1) (s.src rs2) ≠ 1) :
    exec (.modinv rd rs1 rs2) s = .next (s.complete (.raise .noInverse)) := by
  simp only [exec, execModinv, if_neg h, egcdNorm_g, if_pos hgcd]
  rfl

theorem exec_modinv_of_coprime (rd : Reg) {rs1 rs2 : Reg} (h : s.src rs2 ≠ 0)
    (hgcd : Nat.gcd (s.src rs1) (s.src rs2) = 1) :
    exec (.modinv rd rs1 rs2) s
      = .next (s.complete (.ok [.x rd (egcdNorm (s.src rs1) (s.src rs2)).x.toNat])) := by
  simp only [exec, execModinv, if_neg h, egcdNorm_g, if_neg (not_not_intro hgcd)]
  rfl

theorem exec_coprimegen_of_bad (h : s.atStart = true) (rd : Reg) {rs1 : Reg}
    (hbad : s.argument = 0 ∨ s.width < s.argument ∨ s.src rs1 = 0) :
    exec (.coprimegen rd rs1) s = .next (s.complete (.raise .invalidArg)) := by
  rw [exec, execCoprimegen, State.sample_of_atStart h]
  split
  · rfl
  · next hw =>
    obtain ⟨hlo, hhi⟩ := State.badWidth_eq_false_iff.1 (Bool.eq_false_iff.2 hw)
    rw [if_pos ((hbad.resolve_left (by omega)).resolve_left hhi.not_gt)]
    rfl

theorem exec_coprimegen_of_good (h : s.atStart = true) (rd : Reg) {rs1 : Reg}
    (hlo : 1 ≤ s.argument) (hhi : s.argument ≤ s.width) (hm : s.src rs1 ≠ 0) :
    exec (.coprimegen rd rs1) s
      = .next (s.advance (beginCoprime (.coprimegen rd) (s.src rs1) s.argument)) := by
  have hcheck : s.badWidth s.argument = false := State.badWidth_eq_false_iff.2 ⟨hlo, hhi⟩
  rw [exec, execCoprimegen, State.sample_of_atStart h, hcheck, if_neg Bool.false_ne_true,
    if_neg hm]

end

/-! ## The obligations -/

/-- Settles O24: both commands compute `Nat.gcd`, which the divisibility laws characterize. -/
theorem gcdAndCoprimeFindTheCommonDivisor : Obligations.GcdAndCoprimeFindTheCommonDivisor := by
  intro s rd rs1 rs2
  refine ⟨?_, ?_⟩
  · obtain ⟨t, ht, hok, hx, hframe⟩ :=
      State.exists_yieldsX (rfl : exec (.gcd rd rs1 rs2) s = .next (s.complete (.ok [.x rd _])))
    refine ⟨t, ht, hok, ?_⟩
    rw [hx]
    exact ⟨Nat.gcd_dvd_left _ _, Nat.gcd_dvd_right _ _, fun c => Nat.dvd_gcd, hframe⟩
  · refine ⟨_, rfl, ⟨rfl, rfl, rfl⟩, fun hall => ?_, fun c ha hb hc => ?_,
      s.complete_x_res_onlyX rd _ _ s.entropy, rfl⟩
    · rw [decide_eq_true (hall _ (Nat.gcd_dvd_left _ _) (Nat.gcd_dvd_right _ _))]
      exact ⟨s.bank.readX_writeX_same rd 1, rfl⟩
    · rw [decide_eq_false (fun hgcd => hc (Nat.eq_one_of_dvd_coprimes hgcd ha hb))]
      exact ⟨s.bank.readX_writeX_same rd 0, rfl⟩

/-- Settles O25: the three writes go to different registers, and the normalized coefficients have
the laws of R177. -/
theorem egcdWritesNormalizedCoefficients : Obligations.EgcdWritesNormalizedCoefficients := by
  intro s rd rs1 rs2
  refine ⟨fun hgt => State.exists_failsCleanly (exec_egcd_of_gt rs1 rs2 hgt),
    fun r1 r2 h1 h2 => ?_⟩
  have hexec := exec_egcd_of_le (s := s) rs1 rs2 h1 h2
  obtain ⟨x, y, k, hx, hy, hxlt, hylt, hk, hid⟩ := egcdNorm_coefficients (s.src rs1) (s.src rs2)
  rw [hx, hy, Int.toNat_natCast, Int.toNat_natCast] at hexec
  have hne1 : rd ≠ r1 := Fin.ne_of_val_ne (by omega)
  have hne2 : rd ≠ r2 := Fin.ne_of_val_ne (by omega)
  have hne12 : r1 ≠ r2 := Fin.ne_of_val_ne (by omega)
  obtain ⟨hg, hr1, hr2, honly⟩ :=
    s.complete_x_x_x hne1 hne2 hne12 (Nat.gcd (s.src rs1) (s.src rs2)) x y
  refine ⟨_, hexec, ⟨rfl, rfl, rfl⟩, hg, ?_⟩
  rw [hg, hr1, hr2]
  exact ⟨hx.symm, hy.symm, hxlt, hylt, ⟨k, hk, hid⟩, honly, rfl, State.complete_entropy _ _⟩

/-- Settles O26: the modulus, then coprimality, then the normalized coefficient of e. -/
theorem modinvWritesTheInverse : Obligations.ModinvWritesTheInverse := by
  intro s rd rs1 rs2
  refine ⟨fun hzero => ?_, fun hphi hgcd => ?_, fun hphi hgcd => ?_⟩
  · exact State.exists_failsCleanly (exec_modinv_of_zero rd rs1 hzero)
  · exact State.exists_failsCleanly (exec_modinv_of_not_coprime rd hphi hgcd)
  · obtain ⟨t, ht, hok, hx, hframe⟩ :=
      State.exists_yieldsX (exec_modinv_of_coprime rd hphi hgcd)
    obtain ⟨hlt, hinv⟩ := egcdNorm_inverse_of_ne_zero hphi hgcd
    rw [← hx] at hlt hinv
    exact ⟨t, ht, hok, hlt, hinv, hframe⟩

/-- Settles O27: the run from the first draw performs CoprimeLoop, which ensures that its value is
coprime to the modulus and below it. -/
theorem coprimegenFollowsTheCoprimeLoop : Obligations.CoprimegenFollowsTheCoprimeLoop := by
  intro s rd rs1 hstart
  refine ⟨fun hbad => State.exists_failsCleanly (exec_coprimegen_of_bad hstart rd hbad),
    fun hlo hhi hm => ⟨_, exec_coprimegen_of_good hstart rd hlo hhi hm, ?_⟩⟩
  have hfollows := (findCoprime_performed (.coprimegen rd) (s.src rs1) s.argument).follows
    (s := s) (writes := fun v => [.x rd v])
    (onSuccess := fun t v => t.bank.readX rd = v ∧ s.OnlyX t [rd] ∧ t.res = s.res)
    (fun _ => rfl) fun v rest => by
      obtain ⟨-, hx, honly, hres, -⟩ := s.yieldsX_complete_x rd v rest
      exact ⟨hx, honly, hres⟩
  exact (findCoprime_coprime s.port (s.src rs1) s.argument s.entropy).follows hfollows
    fun v ⟨hx, honly, hres⟩ ⟨hlt, hgcd⟩ => ⟨hx, hlt, hgcd, honly, hres⟩

end Sys2Proof.Machine
end

section
/-! PROOFS. The keypair commands (44_keypair R200 to R206): how each one completes, the keypair that
loops P and Q and Derive give, and that while KV = 1 only KEYCLR and the resets change it. -/

namespace Sys2Proof.Machine

/-! ## The commit of a keypair (R200) -/

/-- A completion that writes the key registers and KV changes those only. -/
theorem State.complete_key_onlyKeys (s : State) (k : KeyRegs) (kv : Bool) (rest : List Answer) :
    s.OnlyKeys (State.complete { s with entropy := rest } (.ok [.key k kv])) :=
  ⟨⟨rfl, rfl, rfl, rfl, rfl, rfl⟩, fun _ _ => rfl, ⟨rfl, rfl, rfl, rfl⟩, ⟨rfl, rfl⟩, ⟨rfl, rfl⟩,
    ⟨fun _ => rfl, rfl⟩, rfl, rfl⟩

/-- The end of KEYGEN and KEYDERIVE: the derived keypair, with KV = 1. -/
def commitKey (k : KeyRegs) : Advance := .done (.ok [.key k true])

/-- A command whose run performs a procedure up to the commit of the keypair it returns follows that
procedure, and the keypair has what the procedure ensures of it. -/
theorem Advance.Performs.follows_commitKey {s : State} {start : Advance} {m : Ran KeyRegs}
    {P : KeyRegs → Prop} (h : start.Performs s.port s.entropy m commitKey) (hm : m.Ensures P) :
    s.Follows (s.advance start) m fun k => (s.advance start).bank.key = k
      ∧ (s.advance start).bank.kv = true ∧ s.OnlyKeys (s.advance start) ∧ P k := by
  have hfollows := h.follows (writes := fun k => [.key k true])
    (onSuccess := fun t k => t.bank.key = k ∧ t.bank.kv = true ∧ s.OnlyKeys t) (fun _ => rfl)
    fun k rest => ⟨rfl, rfl, s.complete_key_onlyKeys k true rest⟩
  exact hm.follows hfollows fun k ⟨hkey, hkv, honly⟩ hk => ⟨hkey, hkv, honly, hk⟩

/-! ## Derive and loops P and Q, performed (R201, R202) -/

section
variable {port : Port} {answers : List Answer}

/-- Derive is performed from its e loop to the commit. -/
theorem deriveKey_performed (p q eb : Nat) :
    Advance.Performs port answers (beginDerive p q eb)
      (Procedure.deriveKey port p q eb answers) commitKey :=
  (findCoprime_performed (.derive p q) ((p - 1) * (q - 1)) eb).andThen fun e _ _ =>
    Advance.performs_value (keyOf p q e) commitKey

/-- Loop P goes on with loop Q, and loop Q with Derive. -/
theorem keygen_performed (nb : Nat) :
    Advance.Performs port answers (.wait (.candidate .keygenP nb 0))
      (Procedure.keygen port nb answers) commitKey :=
  (findPrime_performed .keygenP nb).andThen fun p _ _ =>
    (findPrime_performed (.keygenQ p) nb).andThen fun q _ _ => deriveKey_performed p q nb

end

/-! ## What the procedures ensure of the keypair (R201, R202) -/

theorem Ran.Ensures.mono {α : Type} {P Q : α → Prop} {m : Ran α} (h : m.Ensures P)
    (himp : ∀ a, P a → Q a) : m.Ensures Q := by
  match m with
  | .value a rest => exact himp a h
  | .raised _ _ _ => exact h
  | .starved => trivial

/-- The rounds ensure what both verdicts have. -/
theorem rounds_ensures {P : Bool → Prop} (hP : ∀ v, P v) (port : Port) (num k : Nat)
    (answers : List Answer) : (Procedure.rounds port num k answers).Ensures P := by
  induction k generalizing answers with
  | zero => exact hP true
  | succ k ih =>
    refine (sampleLoop_mem port (num - 2) _ _ 0 answers).andThen fun a rest _ => ?_
    split
    · exact ih rest
    · exact hP false

/-- R151: MR passes no number below 2. -/
theorem mr_two_le (port : Port) (num k : Nat) (answers : List Answer) :
    (Procedure.mr port num k answers).Ensures fun v => v = true → 2 ≤ num := by
  rw [Procedure.mr]
  split
  · exact fun hv => absurd hv Bool.false_ne_true
  · next hlt =>
    have htwo : ∀ v : Bool, v = true → 2 ≤ num := fun _ _ => not_lt.1 hlt
    split
    · exact htwo true
    · exact rounds_ensures htwo port num k answers

theorem primeLoop_mem (port : Port) (nb : Nat) (skip : Option Nat) (fuel c : Nat)
    (answers : List Answer) :
    (Procedure.primeLoop port nb skip fuel c answers).Ensures
      fun v => 2 ≤ v ∧ v < 2 ^ nb ∧ skip ≠ some v := by
  induction fuel generalizing c answers with
  | zero => trivial
  | succ fuel ih =>
    refine (cappedEntropy_lt port c nb answers).andThen fun cand rest hlt => ?_
    split
    · exact ih _ _
    · next hskip =>
      refine (mr_two_le port cand _ rest).andThen fun v rest' htwo => ?_
      cases v with
      | true => exact ⟨htwo rfl, hlt, hskip⟩
      | false => exact ih _ _

/-- The candidate that a prime loop returns is one it may draw, and not the one it skips. -/
theorem findPrime_mem (port : Port) (nb : Nat) (skip : Option Nat) (answers : List Answer) :
    (Procedure.findPrime port nb skip answers).Ensures
      fun v => 2 ≤ v ∧ v < 2 ^ nb ∧ skip ≠ some v :=
  primeLoop_mem port nb skip _ 0 answers

/-- R202: the key of distinct primes and a coprime exponent below φ obeys the laws of R39. -/
theorem keyOf_isDerived {p q e : Nat} (hp : 2 ≤ p) (hq : 2 ≤ q) (hne : p ≠ q)
    (he : e < (p - 1) * (q - 1)) (hgcd : Nat.gcd e ((p - 1) * (q - 1)) = 1) :
    (keyOf p q e).IsDerived := by
  obtain ⟨hlaws, -⟩ := keyOf_lawful hp hq hne he hgcd
  obtain ⟨-, -, -, hderived⟩ := hlaws rfl
  exact hderived

section
variable (port : Port) (answers : List Answer)

theorem deriveKey_isDerived {p q : Nat} (hp : 2 ≤ p) (hq : 2 ≤ q) (hne : p ≠ q) (eb : Nat) :
    (Procedure.deriveKey port p q eb answers).Ensures
      fun k => k.kp = p ∧ k.kq = q ∧ k.IsDerived :=
  (findCoprime_coprime port ((p - 1) * (q - 1)) eb answers).andThen fun _ _ ⟨hlt, hgcd⟩ =>
    ⟨rfl, rfl, keyOf_isDerived hp hq hne hlt ((Nat.gcd_comm _ _).trans hgcd)⟩

/-- Loop Q skips p, so the keypair is of two different primes of the width of the draws. -/
theorem keygen_isDerived (nb : Nat) :
    (Procedure.keygen port nb answers).Ensures fun k => 2 ≤ k.kp ∧ k.kp < 2 ^ nb ∧ 2 ≤ k.kq
      ∧ k.kq < 2 ^ nb ∧ k.kp ≠ k.kq ∧ k.IsDerived := by
  refine (findPrime_mem port nb none answers).andThen fun p rest ⟨hp, hplt, _⟩ =>
    (findPrime_mem port nb (some p) rest).andThen fun q rest' ⟨hq, hqlt, hskip⟩ => ?_
  have hne : p ≠ q := fun h => hskip (congrArg some h)
  refine (deriveKey_isDerived port rest' hp hq hne nb).mono fun k ⟨hkp, hkq, hderived⟩ => ?_
  rw [hkp, hkq]
  exact ⟨hp, hplt, hq, hqlt, hne, hderived⟩

end

/-! ## Each command's completion (R201, R203, R204) -/

theorem badPrimes_eq_true {p q : Nat} (h : p < 2 ∨ q < 2 ∨ p = q) : badPrimes p q = true :=
  decide_eq_true h

section
variable {s : State}

theorem exec_keygen_of_locked (h : s.atStart = true) (hkv : s.snap.kv = true) :
    exec .keygen s = .next (s.complete (.raise .keyLocked)) := by
  rw [exec, execKeygen, State.sample_of_atStart h, if_pos hkv]
  rfl

theorem exec_keygen_of_badWidth (h : s.atStart = true) (hkv : s.snap.kv = false)
    (hbad : s.argument = 0 ∨ s.width / 2 < s.argument) :
    exec .keygen s = .next (s.complete (.raise .invalidArg)) := by
  rw [exec, execKeygen, State.sample_of_atStart h, if_neg (Bool.eq_false_iff.1 hkv), if_pos hbad]
  rfl

/-- KEYGEN of 1 to W/2 bits goes to loop P. -/
theorem exec_keygen_of_width (h : s.atStart = true) (hkv : s.snap.kv = false)
    (hlo : 1 ≤ s.argument) (hhi : s.argument ≤ s.width / 2) :
    exec .keygen s = .next (s.advance (.wait (.candidate .keygenP s.argument 0))) := by
  rw [exec, execKeygen, State.sample_of_atStart h, if_neg (Bool.eq_false_iff.1 hkv),
    if_neg (by omega)]

variable {rs1 rs2 : Reg}

theorem exec_keyderive_of_locked (h : s.atStart = true) (hkv : s.snap.kv = true) :
    exec (.keyderive rs1 rs2) s = .next (s.complete (.raise .keyLocked)) := by
  rw [exec, execKeyderive, State.sample_of_atStart h, if_pos hkv]
  rfl

theorem exec_keyderive_of_badWidth (h : s.atStart = true) (hkv : s.snap.kv = false)
    (hbad : s.argument = 0 ∨ s.width < s.argument) :
    exec (.keyderive rs1 rs2) s = .next (s.complete (.raise .invalidArg)) := by
  have hcheck : s.badWidth s.argument = true := decide_eq_true hbad
  rw [exec, execKeyderive, State.sample_of_atStart h, if_neg (Bool.eq_false_iff.1 hkv),
    if_pos hcheck]
  rfl

/-- With no keypair and a width of 1 to W bits, KEYDERIVE comes to its primes. -/
theorem exec_keyderive_of_width (h : s.atStart = true) (hkv : s.snap.kv = false)
    (hlo : 1 ≤ s.argument) (hhi : s.argument ≤ s.width) :
    exec (.keyderive rs1 rs2) s = .next (s.advance
      (if badPrimes (s.src rs1) (s.src rs2) then .done (.raise .invalidArg)
       else if 2 ^ s.width ≤ s.src rs1 * s.src rs2 then .done (.raise .resultOverflow)
       else beginDerive (s.src rs1) (s.src rs2) s.argument)) := by
  have hcheck : s.badWidth s.argument = false := State.badWidth_eq_false_iff.2 ⟨hlo, hhi⟩
  rw [exec, execKeyderive, State.sample_of_atStart h, if_neg (Bool.eq_false_iff.1 hkv),
    if_neg (Bool.eq_false_iff.1 hcheck)]

variable {rs3 : Reg}

theorem exec_keyderivee_of_locked (hkv : s.snap.kv = true) :
    exec (.keyderivee rs1 rs2 rs3) s = .next (s.complete (.raise .keyLocked)) := by
  simp only [exec, execKeyderivee, if_pos hkv]
  rfl

theorem exec_keyderivee_of_badPrimes (hkv : s.snap.kv = false)
    (hbad : s.src rs1 < 2 ∨ s.src rs2 < 2 ∨ s.src rs1 = s.src rs2) :
    exec (.keyderivee rs1 rs2 rs3) s = .next (s.complete (.raise .invalidArg)) := by
  simp only [exec, execKeyderivee, if_neg (Bool.eq_false_iff.1 hkv),
    if_pos (badPrimes_eq_true hbad)]
  rfl

/-- With no keypair and legal primes, KEYDERIVEE comes to the product, the range of e and the
inverse. -/
theorem exec_keyderivee_of_primes {phi : Nat} (hkv : s.snap.kv = false)
    (hprimes : 2 ≤ s.src rs1 ∧ 2 ≤ s.src rs2 ∧ s.src rs1 ≠ s.src rs2)
    (hphi : phi = (s.src rs1 - 1) * (s.src rs2 - 1)) :
    exec (.keyderivee rs1 rs2 rs3) s = .next (s.complete
      (if 2 ^ s.width ≤ s.src rs1 * s.src rs2 then .raise .resultOverflow
       else if s.src rs3 = 0 ∨ phi ≤ s.src rs3 then .raise .invalidArg
       else if Nat.gcd (s.src rs3) phi ≠ 1 then .raise .noInverse
       else .ok [.key (keyOf (s.src rs1) (s.src rs2) (s.src rs3)) true])) := by
  have hcheck := Bool.eq_false_iff.1 (badPrimes_eq_false_iff.2 hprimes)
  subst hphi
  simp only [exec, execKeyderivee, if_neg (Bool.eq_false_iff.1 hkv), if_neg hcheck, egcdNorm_g]
  rfl

end

/-! ## The lock (R200, 10_state R31) -/

/-- A result that writes no key register. -/
@[simp] def Result.KeepsKeys : Result → Prop
  | .ok ws => ∀ k kv, Write.key k kv ∉ ws
  | .raise _ => True

/-- While KV = 1 a sampling command has no keypair to write. -/
theorem Result.Sampled.keepsKeys {width : Nat} {r : Result} (h : r.Sampled width true) :
    r.KeepsKeys := by
  cases h with
  | raised e => trivial
  | number rd hv => simp
  | verdict rd v => simp
  | keypair hp hq hne hpq he hgcd hkv => cases hkv

theorem State.applyWrites_sameKeys {ws : List Write} (s : State)
    (h : ∀ k kv, Write.key k kv ∉ ws) : s.bank.SameKeys (ws.foldl State.applyWrite s).bank := by
  induction ws generalizing s with
  | nil => exact ⟨rfl, rfl⟩
  | cons w ws ih =>
    have htail := ih (s.applyWrite w) fun k kv hmem => h k kv (List.mem_cons_of_mem w hmem)
    cases w with
    | key k kv => exact absurd List.mem_cons_self (h k kv)
    | x _ _ | res _ | mont _ | bar _ | mbuf _ | mlen _ => exact htail

theorem State.complete_sameKeys {r : Result} (s : State) (h : r.KeepsKeys) :
    s.bank.SameKeys (s.complete r).bank := by
  cases r with
  | ok ws => exact s.applyWrites_sameKeys h
  | raise e => exact ⟨rfl, rfl⟩

/-- A command that is in range where it stands leaves a keypair as it is. -/
theorem State.advance_sameKeys {s : State} {width : Nat} {a : Advance}
    (h : a.InRange width true) : s.bank.SameKeys (s.advance a).bank := by
  cases a with
  | done r => exact s.complete_sameKeys (Result.Sampled.keepsKeys h)
  | wait p =>
    have hd := drive_inRange s.cap s.snap.efail s.entropy h
    rw [State.advance]
    cases hdrive : drive s.cap s.snap.efail s.entropy p with
    | ended r rest =>
      rw [hdrive] at hd
      exact State.complete_sameKeys { s with entropy := rest } (Result.Sampled.keepsKeys hd)
    | failed rest => exact ⟨rfl, rfl⟩
    | starved q => exact ⟨rfl, rfl⟩

/-- A meaning with a next state, in which the keypair is as it was. -/
def Out.KeepsKeys (s : State) (o : Out) : Prop := ∃ t, o = .next t ∧ s.bank.SameKeys t.bank

section
variable {s : State}

theorem State.finish_keepsKeys {r : Result} (hr : r.KeepsKeys) : Out.KeepsKeys s (s.finish r) :=
  ⟨s.complete r, rfl, s.complete_sameKeys hr⟩

theorem codecResult_keepsKeys (rd : Reg) (message exponent : Nat) :
    (codecResult s rd message exponent).KeepsKeys := by
  unfold codecResult
  split_ifs <;> simp

variable (h : s.Inv) (hkv : s.bank.kv = true)
include h hkv

theorem State.sample_keepsKeys {start : Advance} (hstart : start.InRange s.params.width true) :
    Out.KeepsKeys s (s.sample start) := by
  rw [← hkv] at hstart
  have hresume := State.resume_inRange h hstart
  rw [hkv] at hresume
  exact ⟨s.advance (s.resume start), rfl, State.advance_sameKeys hresume⟩

/-- A command that samples only from a width of 1 to W (60 R243). -/
theorem State.sample_badWidth_keepsKeys {k : Nat} {e : ErrCode} {start : Advance}
    (hstart : 1 ≤ k ∧ k ≤ s.params.width → start.InRange s.params.width true) :
    Out.KeepsKeys s (s.sample (if s.badWidth k then .done (.raise e) else start)) := by
  refine State.sample_keepsKeys h hkv ?_
  split
  · exact .raised e
  · next hw => exact hstart (State.badWidth_eq_false_iff.1 (Bool.eq_false_iff.2 hw))

/-- KEYGEN and KEYDERIVE start with the lock. -/
theorem State.sample_locked_keepsKeys (start : Advance) :
    Out.KeepsKeys s (s.sample (if s.snap.kv then .done (.raise .keyLocked) else start)) := by
  refine State.sample_keepsKeys h hkv ?_
  rw [h.snap_eq, if_pos hkv]
  exact .raised _

/-- Under the invariant no command but KEYCLR changes a keypair. -/
theorem exec_keepsKeys {i : Instr} (hi : i ≠ .keyclr) : Out.KeepsKeys s (exec i s) := by
  cases i with
  | rand rd =>
    exact State.sample_badWidth_keepsKeys h hkv fun hk => by
      simpa [Advance.InRange, WaitPoint.inRange] using hk
  | mrtest rd rs1 =>
    refine State.sample_keepsKeys h hkv ?_
    split
    · exact .raised _
    · exact beginMr_inRange trivial (h.src_lt rs1)
  | primegen rd =>
    exact State.sample_badWidth_keepsKeys h hkv fun hk => by
      simpa [Advance.InRange, WaitPoint.inRange, Search.inRange] using hk
  | coprimegen rd rs1 =>
    refine State.sample_badWidth_keepsKeys h hkv fun hk => ?_
    split
    · exact .raised _
    · next hm =>
      exact WaitPoint.inRange_coprime_iff.2 ⟨hk, Nat.one_le_iff_ne_zero.2 hm, h.src_lt rs1⟩
  | keygen | keyderive _ _ => exact State.sample_locked_keepsKeys h hkv _
  | keyderivee _ _ _ => exact State.finish_keepsKeys (by simp [h.snap_eq, hkv])
  | keyclr => exact absurd rfl hi
  | enc rd _ | dec rd _ => exact State.finish_keepsKeys (codecResult_keepsKeys rd _ _)
  | nop | gcd _ _ _ | coprime _ _ _ | b2i _ | i2b _ => exact State.finish_keepsKeys (by simp)
  | montsetup _ | montmul _ _ _ | montin _ _ | montout _ _ | barsetup _ | barred _ _
  | modexp _ _ _ _ | egcd _ _ _ | modinv _ _ _ =>
    exact State.finish_keepsKeys (by split_ifs <;> simp)

/-- A step that is no reset and runs no KEYCLR keeps the keypair. -/
theorem State.StepsTo.sameKeys {t : State} (hstep : s.StepsTo t) (hreset : s.resetComing = false)
    (hsoft : s.softResetComing = false) (hclr : s.fetch ≠ some (encode .keyclr)) :
    s.bank.SameKeys t.bank := by
  cases hstep with
  | nothing rest answers => exact ⟨rfl, rfl⟩
  | @access rest a hs =>
    rw [State.softResetComing_eq hs] at hsoft
    obtain ⟨hkeys, -⟩ := State.hostAccess_keepsResults (s := s.load rest s.entropy) hsoft
    exact hkeys
  | reset hs => simp [State.resetComing, hs] at hreset
  | illegal rest answers => exact ⟨rfl, rfl⟩
  | @command rest answers w i t hw hi ht =>
    have hne : i ≠ .keyclr := by
      rintro rfl
      exact hclr (by rw [encode_of_decode hi, hw])
    obtain ⟨u, hu, hkeys⟩ := exec_keepsKeys (h.load rest answers) hkv hne
    obtain rfl : u = t := Host.Outcome.next.inj (hu.symm.trans ht)
    exact hkeys

end

/-! ## The obligations -/

/-- Settles O28: the run from loop P performs loops P and Q and Derive, and loop Q skips p. -/
theorem keygenFollowsItsLoops : Obligations.KeygenFollowsItsLoops := by
  intro s hstart
  refine ⟨fun hkv => State.exists_failsCleanly (exec_keygen_of_locked hstart hkv),
    fun hkv hbad => State.exists_failsCleanly (exec_keygen_of_badWidth hstart hkv hbad),
    fun hkv hlo hhi => ⟨_, exec_keygen_of_width hstart hkv hlo hhi, ?_⟩⟩
  exact (keygen_performed s.argument).follows_commitKey
    (keygen_isDerived s.port s.entropy s.argument)

/-- Settles O29: the checks in R203's order, then the run performs Derive of the supplied primes. -/
theorem keyderiveFollowsDerive : Obligations.KeyderiveFollowsDerive := by
  intro s rs1 rs2 hstart
  refine ⟨fun hkv => State.exists_failsCleanly (exec_keyderive_of_locked hstart hkv),
    fun hkv hbad => State.exists_failsCleanly (exec_keyderive_of_badWidth hstart hkv hbad),
    fun hkv hlo hhi => ?_⟩
  have hexec := exec_keyderive_of_width (rs1 := rs1) (rs2 := rs2) hstart hkv hlo hhi
  refine ⟨fun hbad => ?_, fun hp hq hne => ?_⟩
  · rw [if_pos (badPrimes_eq_true hbad)] at hexec
    exact State.exists_failsCleanly hexec
  · rw [if_neg (Bool.eq_false_iff.1 (badPrimes_eq_false_iff.2 ⟨hp, hq, hne⟩))] at hexec
    refine ⟨fun hover => ?_, fun hpq => ?_⟩
    · rw [if_pos hover] at hexec
      exact State.exists_failsCleanly hexec
    · rw [if_neg hpq.not_ge] at hexec
      exact ⟨_, hexec, (deriveKey_performed _ _ s.argument).follows_commitKey
        (deriveKey_isDerived s.port s.entropy hp hq hne s.argument)⟩

/-- Settles O30: the checks in R204's order, then the key of p, q and e, whose d is the normalized
coefficient of e. -/
theorem keyderiveeDerivesTheKeypair : Obligations.KeyderiveeDerivesTheKeypair := by
  rintro s rs1 rs2 rs3 p q e phi rfl rfl rfl hphi
  refine ⟨fun hkv => State.exists_failsCleanly (exec_keyderivee_of_locked hkv),
    fun hkv hbad => State.exists_failsCleanly (exec_keyderivee_of_badPrimes hkv hbad),
    fun hkv hp hq hne => ?_⟩
  have hexec := exec_keyderivee_of_primes (rs3 := rs3) hkv ⟨hp, hq, hne⟩ hphi
  refine ⟨fun hover => ?_, fun hpq => ?_⟩
  · rw [if_pos hover] at hexec
    exact State.exists_failsCleanly hexec
  rw [if_neg hpq.not_ge] at hexec
  refine ⟨fun hrange => ?_, fun he0 he hgcd => ?_, fun he0 he hgcd => ?_⟩
  · rw [if_pos hrange] at hexec
    exact State.exists_failsCleanly hexec
  · rw [if_neg (by omega), if_pos hgcd] at hexec
    exact State.exists_failsCleanly hexec
  · rw [if_neg (by omega), if_neg (not_not_intro hgcd)] at hexec
    subst hphi
    obtain ⟨-, -, -, -, -, hd, hinv⟩ := keyOf_isDerived hp hq hne he hgcd
    exact ⟨_, _, hexec, ⟨rfl, rfl, rfl⟩, rfl, hd, hinv, rfl,
      s.complete_key_onlyKeys _ true s.entropy, State.complete_entropy _ _⟩

/-- Settles O38: no host access writes the keypair, and while KV = 1 the lock keeps every command
but KEYCLR from it. -/
theorem keypairChangesOnlyByKeyclrOrReset : Obligations.KeypairChangesOnlyByKeyclrOrReset := by
  intro s t h hkv ht hreset hsoft hclr
  obtain ⟨hkey, hkv'⟩ := (step_stepsTo ht).sameKeys h hkv hreset hsoft hclr
  exact ⟨hkey, hkv'.trans hkv⟩

/-- Settles O31: KEYCLR is one commit, of registers that are all 0, without a check. -/
theorem keyclrClearsTheKeypair : Obligations.KeyclrClearsTheKeypair := by
  intro s
  exact ⟨_, rfl, ⟨rfl, rfl, rfl⟩, rfl, rfl, s.complete_key_onlyKeys _ false s.entropy,
    State.complete_entropy _ _⟩

end Sys2Proof.Machine
end

section
/-! PROOFS. The codec commands (45_codec R221 to R227): ENC and DEC are modular powers that undo
each other for a keypair of primes, B2I and I2B read and write the big-endian digits of a value. -/

namespace Sys2Proof.Machine

/-! ## ENC and DEC (R223, R224) -/

/-- ENC with exponent KE, or DEC with exponent KD. -/
abbrev IsCodecPower (i : Instr) (rd rs1 : Reg) (key : KeyRegs) (exponent : Nat) : Prop :=
  (i = .enc rd rs1 ∧ exponent = key.ke) ∨ (i = .dec rd rs1 ∧ exponent = key.kd)

section
variable {s : State}

/-- ENC and DEC differ in the exponent only. -/
theorem exec_codecPower {i : Instr} {rd rs1 : Reg} {exponent : Nat}
    (h : IsCodecPower i rd rs1 s.snap.key exponent) :
    exec i s = .next (s.complete (codecResult s rd (s.src rs1) exponent)) := by
  obtain ⟨rfl, rfl⟩ | ⟨rfl, rfl⟩ := h
  · rfl
  · rfl

theorem codecResult_of_noKeypair (rd : Reg) (message exponent : Nat) (hkv : s.snap.kv = false) :
    codecResult s rd message exponent = .raise .noContext := by
  simp [codecResult, hkv]

theorem codecResult_of_overflow (rd : Reg) {message : Nat} (exponent : Nat)
    (hkv : s.snap.kv = true) (hchk : s.snap.chk = true) (hge : s.snap.key.kn ≤ message) :
    codecResult s rd message exponent = .raise .modulusOverflow := by
  simp [codecResult, hkv, hchk, hge]

/-- A value that is below KN, or is not checked, gives the power of R223 and R224. -/
theorem codecResult_of_accepted (rd : Reg) {message : Nat} (exponent : Nat)
    (hkv : s.snap.kv = true) (haccepted : s.snap.chk = false ∨ message < s.snap.key.kn) :
    codecResult s rd message exponent = .ok [.x rd (message ^ exponent % s.snap.key.kn)] := by
  have hcheck : (s.snap.chk && decide (s.snap.key.kn ≤ message)) = false := by
    simpa [← Bool.not_eq_true, imp_iff_not_or] using haccepted
  simp [codecResult, hkv, hcheck, powMod_eq]

end

/-- Settles O32: the keypair, then the check, then the power. -/
theorem encAndDecAreModularPowers : Obligations.EncAndDecAreModularPowers := by
  intro s rd rs1 i exponent hcmd
  have hexec := exec_codecPower hcmd
  refine ⟨fun hkv => ?_, fun hkv hchk hge => ?_, fun hkv haccepted => ?_⟩
  · rw [codecResult_of_noKeypair rd _ _ hkv] at hexec
    exact State.exists_failsCleanly hexec
  · rw [codecResult_of_overflow rd _ hkv hchk hge] at hexec
    exact State.exists_failsCleanly hexec
  · rw [codecResult_of_accepted rd _ hkv haccepted] at hexec
    exact State.exists_yieldsX hexec

/-! ## DEC after ENC (R225) -/

/-- What is said of a command's next state holds of the state its run ends in. -/
theorem State.RunsTo.satisfies {s t : State} {i : Instr} {P : State → Prop} (h : s.RunsTo i t)
    (hexec : ∃ u, exec i (s.start (encode i)) = .next u ∧ P u) : P t := by
  obtain ⟨u, hu, hP⟩ := hexec
  rwa [Host.Outcome.next.inj (h.symm.trans hu)]

/-- Fermat's little theorem for every residue, 0 too. -/
theorem pow_modEq_self_of_prime {p k : Nat} (m : Nat) (hp : p.Prime) (hk0 : k ≠ 0)
    (hk : k ≡ 1 [MOD p - 1]) : m ^ k ≡ m [MOD p] := by
  have := Fact.mk hp
  rw [← ZMod.natCast_eq_natCast_iff, Nat.cast_pow]
  by_cases hm : (m : ZMod p) = 0
  · rw [hm, zero_pow hk0]
  · obtain ⟨j, hj⟩ := (Nat.modEq_iff_dvd' (Nat.one_le_iff_ne_zero.2 hk0)).1 hk.symm
    obtain rfl : k = (p - 1) * j + 1 := by omega
    rw [pow_succ, pow_mul, ZMod.pow_card_sub_one_eq_one hm, one_pow, one_mul]

/-- Raising to KE and then to KD is the identity below KN = KP·KQ. -/
theorem KeyRegs.IsDerived.pow_pow_mod {k : KeyRegs} (h : k.IsDerived) (hp : k.kp.Prime)
    (hq : k.kq.Prime) (hne : k.kp ≠ k.kq) {m : Nat} (hm : m < k.kn) :
    (m ^ k.ke % k.kn) ^ k.kd % k.kn = m := by
  obtain ⟨hkn, hkphi, -, -, -, -, hinv⟩ := h
  have hmod : k.ke * k.kd ≡ 1 [MOD (k.kp - 1) * (k.kq - 1)] := by
    rw [← hkphi]
    calc k.ke * k.kd ≡ k.ke * k.kd % k.kphi [MOD k.kphi] := (Nat.mod_modEq _ _).symm
      _ = 1 := hinv
  have hne0 : k.ke * k.kd ≠ 0 := by
    intro h0
    simp [h0] at hinv
  have hpow : m ^ (k.ke * k.kd) ≡ m [MOD k.kn] := by
    rw [hkn]
    exact (Nat.modEq_and_modEq_iff_modEq_mul ((Nat.coprime_primes hp hq).2 hne)).1
      ⟨pow_modEq_self_of_prime m hp hne0 hmod.of_mul_right,
        pow_modEq_self_of_prime m hq hne0 hmod.of_mul_left⟩
  rw [← Nat.pow_mod, ← pow_mul, hpow, Nat.mod_eq_of_lt hm]

/-- A run of ENC or DEC on a value below KN writes its power and keeps the keypair. -/
theorem State.RunsTo.codecPower {s t : State} {i : Instr} {rd rs1 : Reg} {exponent : Nat}
    (h : s.RunsTo i t) (hcmd : IsCodecPower i rd rs1 s.bank.key exponent)
    (hkv : s.bank.kv = true) (hlt : s.bank.readX rs1 < s.bank.key.kn) :
    t.Succeeded ∧ t.bank.readX rd = s.bank.readX rs1 ^ exponent % s.bank.key.kn
      ∧ s.bank.SameKeys t.bank := by
  obtain ⟨-, -, hpower⟩ := encAndDecAreModularPowers (s.start (encode i)) rd rs1 i exponent hcmd
  obtain ⟨hok, hx, ⟨-, -, -, hkeys, -⟩, -⟩ := h.satisfies (hpower hkv (.inr hlt))
  exact ⟨hok, hx, hkeys⟩

/-- Settles O33: the two powers compose to the identity modulo the primes KP and KQ, so modulo KN. -/
theorem decInvertsEnc : Obligations.DecInvertsEnc := by
  rintro s t u a b c ⟨hlaws, -⟩ hkv hp hq hlt henc hdec
  obtain ⟨-, -, hne, hderived⟩ := hlaws hkv
  obtain ⟨-, hx, hkey, hkv'⟩ := henc.codecPower (.inl ⟨rfl, rfl⟩) hkv hlt
  have hlt' : t.bank.readX b < t.bank.key.kn := by
    rw [hx, hkey]
    exact Nat.mod_lt _ (Nat.zero_lt_of_lt hlt)
  obtain ⟨hok, hy, -⟩ := hdec.codecPower (.inr ⟨rfl, rfl⟩) (hkv'.trans hkv) hlt'
  rw [hx, hkey, hderived.pow_pow_mod hp hq hne hlt] at hy
  exact ⟨hok, hy⟩

/-! ## Big-endian digits (R221, R222) -/

/-- R221: each byte weighs 256 to the number of bytes after it. -/
theorem bytesToInt_map_range (f : Nat → Byte) (n : Nat) :
    bytesToInt ((List.range n).map f)
      = ∑ i ∈ Finset.range n, (f i).toNat * 256 ^ (n - 1 - i) := by
  induction n generalizing f with
  | zero => rfl
  | succ n ih =>
    rw [List.range_succ_eq_map, List.map_cons, List.map_map, bytesToInt_cons, ih,
      Finset.sum_range_succ']
    simp [Nat.sub_sub, add_comm]

/-- The big-endian digits of a value below 256^n sum to it. -/
theorem sum_bigEndian_digits {v n : Nat} (h : v < 256 ^ n) :
    ∑ i ∈ Finset.range n, v / 256 ^ (n - 1 - i) % 256 * 256 ^ (n - 1 - i) = v := by
  have hmod (n : Nat) : ∑ i ∈ Finset.range n, v / 256 ^ i % 256 * 256 ^ i = v % 256 ^ n := by
    induction n with
    | zero => simp [Nat.mod_one]
    | succ n ih => rw [Finset.sum_range_succ, ih, Nat.mod_pow_succ, mul_comm]
  rw [Finset.sum_range_reflect fun i => v / 256 ^ i % 256 * 256 ^ i, hmod, Nat.mod_eq_of_lt h]

theorem two_pow_eight_mul (n : Nat) : 2 ^ (8 * n) = 256 ^ n := pow_mul 2 8 n

theorem bitlen_le_iff {v k : Nat} : bitlen v ≤ k ↔ v < 2 ^ k :=
  ⟨fun h => (lt_two_pow_bitlen v).trans_le (Nat.pow_le_pow_right (by decide) h),
    bitlen_le_of_lt_two_pow⟩

/-- R222: the minimal length is the least L ≥ 1 with v < 256^L. -/
theorem intLength_le_iff {v n : Nat} (hn : 1 ≤ n) : intLength v ≤ n ↔ v < 256 ^ n := by
  have hbits : intLength v ≤ n ↔ bitlen v ≤ 8 * n := by
    rw [intLength]
    omega
  rw [hbits, bitlen_le_iff, two_pow_eight_mul]

theorem one_le_intLength (v : Nat) : 1 ≤ intLength v := le_max_left _ _

theorem lt_pow_intLength (v : Nat) : v < 256 ^ intLength v :=
  (intLength_le_iff (one_le_intLength v)).1 le_rfl

/-- One byte less would not hold the value. -/
theorem pow_intLength_pred_le {v : Nat} (h : 1 < intLength v) : 256 ^ (intLength v - 1) ≤ v := by
  by_contra hlt
  have := (intLength_le_iff (by omega)).2 (not_le.1 hlt)
  omega

theorem intToBytes_getElem_toNat {v i : Nat} (h : i < (intToBytes v).length) :
    (intToBytes v)[i].toNat = v / 256 ^ (intLength v - 1 - i) % 256 := by
  simp [intToBytes]

/-! ## The message buffer (R226, R227) -/

/-- What I2B stores: the minimal encoding, then 0 up to `size` bytes. -/
def paddedBytes (v size : Nat) : List Byte :=
  intToBytes v ++ List.replicate (size - (intToBytes v).length) 0

theorem exec_i2b (s : State) (rs1 : Reg) :
    exec (.i2b rs1) s
      = .next (s.complete (.ok [.mbuf (paddedBytes (s.src rs1) s.params.bytes),
          .mlen (intToBytes (s.src rs1)).length])) := rfl

section
variable {m : Memory} {v size : Nat}

theorem paddedBytes_length (hsize : intLength v ≤ size) : (paddedBytes v size).length = size := by
  simp [paddedBytes, hsize]

/-- A store from MBUF[0] on reads as the list stored. -/
theorem Memory.read_writeAll_zero {bs : List Byte} {i : Nat} (hm : m.wf = true)
    (hi : i < bs.length) : (m.writeAll 0 bs).read i = bs[i] := by
  simpa only [Nat.zero_add] using Memory.read_writeAll_inside (a := 0) bs hm hi

theorem Memory.read_writeAll_paddedBytes_of_lt (hm : m.wf = true) {i : Nat}
    (hi : i < intLength v) :
    ((m.writeAll 0 (paddedBytes v size)).read i).toNat
      = v / 256 ^ (intLength v - 1 - i) % 256 := by
  have hlt : i < (intToBytes v).length := by rwa [intToBytes_length]
  have hpadded : i < (paddedBytes v size).length := by
    rw [paddedBytes, List.length_append]
    exact hlt.trans_le (Nat.le_add_right _ _)
  rw [Memory.read_writeAll_zero hm hpadded]
  simp only [paddedBytes]
  rw [List.getElem_append_left hlt, intToBytes_getElem_toNat]

theorem Memory.read_writeAll_paddedBytes_of_ge (hm : m.wf = true) {i : Nat}
    (hsize : intLength v ≤ size) (hlo : intLength v ≤ i) (hhi : i < size) :
    (m.writeAll 0 (paddedBytes v size)).read i = 0 := by
  have hge : (intToBytes v).length ≤ i := by rwa [intToBytes_length]
  have hpadded : i < (paddedBytes v size).length := by rwa [paddedBytes_length hsize]
  rw [Memory.read_writeAll_zero hm hpadded]
  simp only [paddedBytes]
  rw [List.getElem_append_right hge, List.getElem_replicate]

theorem Memory.read_writeAll_paddedBytes_outside {i : Nat} (hsize : intLength v ≤ size)
    (hi : size ≤ i) : (m.writeAll 0 (paddedBytes v size)).read i = m.read i :=
  Memory.read_writeAll_outside _ (.inr (by rwa [paddedBytes_length hsize, Nat.zero_add]))

end

/-- Settles O34: the reading of R221 is the sum of its bytes' weights. -/
theorem b2iReadsTheMessage : Obligations.B2iReadsTheMessage := by
  intro s rd
  obtain ⟨t, ht, hok, hx, hframe⟩ := State.exists_yieldsX (o := exec (.b2i rd) s) rfl
  exact ⟨t, ht, hok, hx.trans (bytesToInt_map_range _ _), hframe⟩

/-- Settles O35: the length is the minimal one, which is at most W/8, and the store of W/8 bytes is
the encoding followed by zeros. -/
theorem i2bWritesTheMinimalEncoding : Obligations.I2bWritesTheMinimalEncoding := by
  intro s rs1 hv hwords hwf
  have hsize : intLength (s.src rs1) ≤ s.params.bytes := by
    have hbytes : 1 ≤ s.params.bytes := by
      rw [Params.bytes]
      omega
    rwa [intLength_le_iff hbytes, ← two_pow_eight_mul, ← Params.width_eq_bytes]
  refine ⟨_, exec_i2b s rs1, ⟨rfl, rfl, rfl⟩, ?_⟩
  obtain ⟨hbank, hres⟩ := s.complete_message (paddedBytes (s.src rs1) s.params.bytes)
    (intToBytes (s.src rs1)).length
  rw [hbank, intToBytes_length]
  exact ⟨one_le_intLength _, hsize, lt_pow_intLength _, pow_intLength_pred_le,
    fun i hi => Memory.read_writeAll_paddedBytes_of_lt hwf hi,
    fun i hlo hhi => Memory.read_writeAll_paddedBytes_of_ge hwf hsize hlo hhi,
    fun i hi => Memory.read_writeAll_paddedBytes_outside hsize hi,
    ⟨rfl, rfl, rfl, rfl, rfl, rfl⟩, fun _ _ => rfl, ⟨rfl, rfl, rfl, rfl⟩, ⟨rfl, rfl⟩, ⟨rfl, rfl⟩,
    ⟨rfl, rfl⟩, rfl, hres, rfl⟩

/-- Settles O36: B2I sums the digits that I2B has stored. -/
theorem b2iInvertsI2b : Obligations.B2iInvertsI2b := by
  intro s t u a b hinv _ hi2b hb2i
  obtain ⟨hx, -, -, -, -, hwf, -⟩ := hinv.fits
  obtain ⟨-, -, -, hlt, -, hdigits, -⟩ :=
    hi2b.satisfies (i2bWritesTheMinimalEncoding _ a (hx a) hinv.legal.1 hwf)
  obtain ⟨hok, hsum, -⟩ := hb2i.satisfies (b2iReadsTheMessage _ b)
  refine ⟨hok, hsum.trans ?_⟩
  calc ∑ i ∈ Finset.range t.bank.mlen,
        (t.bank.mbuf.read i).toNat * 256 ^ (t.bank.mlen - 1 - i)
      = ∑ i ∈ Finset.range t.bank.mlen,
          s.bank.readX a / 256 ^ (t.bank.mlen - 1 - i) % 256 * 256 ^ (t.bank.mlen - 1 - i) :=
        Finset.sum_congr rfl fun i hi => congrArg (· * _) (hdigits i (Finset.mem_range.1 hi))
    _ = s.bank.readX a := sum_bigEndian_digits hlt

end Sys2Proof.Machine
end

section
/-! PROOFS. Noninterference of the secret key registers (10_state R31, 60_exceptions R252): a step
from a masked state comes, once masked, to where the step from the state itself comes. So each
operation is shown to read nothing that masking hides. -/

namespace Sys2Proof.Machine

/-! ## Masking -/

/-- An outcome without the secret key registers of its state. -/
def Out.masked : Out → Out
  | .next s => .next s.masked
  | .fault r => .fault r
  | .refused r => .refused r

@[simp] theorem Bank.masked_cmd (b : Bank) : b.masked.cmd = b.cmd := rfl
@[simp] theorem Bank.masked_arg (b : Bank) : b.masked.arg = b.arg := rfl
@[simp] theorem Bank.masked_retryCap (b : Bank) : b.masked.retryCap = b.retryCap := rfl
@[simp] theorem Bank.masked_chk (b : Bank) : b.masked.chk = b.chk := rfl
@[simp] theorem Bank.masked_key (b : Bank) : b.masked.key = b.key.masked := rfl
@[simp] theorem Bank.masked_kv (b : Bank) : b.masked.kv = b.kv := rfl
@[simp] theorem Bank.masked_mont (b : Bank) : b.masked.mont = b.mont := rfl
@[simp] theorem Bank.masked_mv (b : Bank) : b.masked.mv = b.mv := rfl
@[simp] theorem Bank.masked_bar (b : Bank) : b.masked.bar = b.bar := rfl
@[simp] theorem Bank.masked_bv (b : Bank) : b.masked.bv = b.bv := rfl
@[simp] theorem Bank.masked_mbuf (b : Bank) : b.masked.mbuf = b.mbuf := rfl
@[simp] theorem Bank.masked_mlen (b : Bank) : b.masked.mlen = b.mlen := rfl
@[simp] theorem Bank.masked_efail (b : Bank) : b.masked.efail = b.efail := rfl

@[simp] theorem KeyRegs.masked_kn (k : KeyRegs) : k.masked.kn = k.kn := rfl
@[simp] theorem KeyRegs.masked_ke (k : KeyRegs) : k.masked.ke = k.ke := rfl
@[simp] theorem KeyRegs.masked_kd (k : KeyRegs) : k.masked.kd = k.kd := rfl

@[simp] theorem Bank.masked_masked (b : Bank) : b.masked.masked = b.masked := rfl

@[simp] theorem Bank.masked_readX (b : Bank) (r : Reg) : b.masked.readX r = b.readX r := rfl

theorem Bank.masked_roValue (b : Bank) (w : RoWindow) : b.masked.roValue w = b.roValue w := by
  cases w <;> rfl

@[simp] theorem Phase.masked_idle : Phase.idle.masked = .idle := rfl

@[simp] theorem Phase.masked_busy (b : Bank) (point : Option WaitPoint) :
    (Phase.busy b point).masked = .busy b.masked point := rfl

@[simp] theorem Phase.masked_masked (p : Phase) : p.masked.masked = p.masked := by
  cases p <;> rfl

section
variable (s : State)

@[simp] theorem State.masked_params : s.masked.params = s.params := rfl
@[simp] theorem State.masked_phase : s.masked.phase = s.phase.masked := rfl
@[simp] theorem State.masked_bank : s.masked.bank = s.bank.masked := rfl
@[simp] theorem State.masked_done : s.masked.done = s.done := rfl
@[simp] theorem State.masked_res : s.masked.res = s.res := rfl
@[simp] theorem State.masked_err : s.masked.err = s.err := rfl
@[simp] theorem State.masked_ign : s.masked.ign = s.ign := rfl
@[simp] theorem State.masked_cmdLost : s.masked.cmdLost = s.cmdLost := rfl
@[simp] theorem State.masked_schedule : s.masked.schedule = s.schedule := rfl

@[simp] theorem State.masked_masked : s.masked.masked = s.masked := by
  simp only [State.masked, Phase.masked_masked, Bank.masked_masked]

/-! ## What the engine and the host read is not masked -/

@[simp] theorem State.masked_snap : s.masked.snap = s.snap.masked := by
  cases hp : s.phase <;> simp [State.snap, hp]

@[simp] theorem State.masked_busy : s.masked.busy = s.busy := by
  cases hp : s.phase <;> simp [State.busy, hp]

@[simp] theorem State.masked_fetch : s.masked.fetch = s.fetch := by
  cases hp : s.phase <;> simp [State.fetch, hp]

@[simp] theorem State.masked_request : s.masked.request = s.request := by
  match hp : s.phase with
  | .idle | .busy _ none | .busy _ (some _) => simp [State.request, hp]

@[simp] theorem State.masked_resume (start : Advance) :
    s.masked.resume start = s.resume start := by
  match hp : s.phase with
  | .idle | .busy _ none | .busy _ (some _) => simp [State.resume, hp]

@[simp] theorem State.masked_src (r : Reg) : s.masked.src r = s.src r := by
  simp [State.src]

@[simp] theorem State.masked_argument : s.masked.argument = s.argument := by
  simp [State.argument]

@[simp] theorem State.masked_cap : s.masked.cap = s.cap := by
  simp [State.cap]

@[simp] theorem State.masked_width : s.masked.width = s.width := rfl

@[simp] theorem State.masked_badWidth (k : Nat) : s.masked.badWidth k = s.badWidth k := rfl

@[simp] theorem codecResult_masked (rd : Reg) (message exponent : Nat) :
    codecResult s.masked rd message exponent = codecResult s rd message exponent := by
  simp [codecResult]

/-- R31: no word of the map shows a secret key register. -/
@[simp] theorem State.masked_readTarget (d : Target) :
    s.masked.readTarget d = s.readTarget d := by
  cases d with
  | status => simp [State.readTarget, State.statusWord]
  | ro w k => exact congrArg (getWord · k) (Bank.masked_roValue s.bank w)
  | id | param | ctrl | cmd | arg | retryCap | mlen | bctxK | x _ _ | mbuf _ | unmapped => rfl

/-! ## Completion and the engine's run -/

theorem State.applyWrite_masked (w : Write) :
    (s.masked.applyWrite w).masked = (s.applyWrite w).masked := by
  cases w <;> simp only [State.applyWrite, State.masked, Phase.masked_masked] <;> rfl

end

theorem State.applyWrites_masked (ws : List Write) (s : State) :
    (ws.foldl State.applyWrite s.masked).masked = (ws.foldl State.applyWrite s).masked := by
  induction ws generalizing s with
  | nil => exact s.masked_masked
  | cons w ws ih =>
    calc (ws.foldl State.applyWrite (s.masked.applyWrite w)).masked
        = (ws.foldl State.applyWrite (s.masked.applyWrite w).masked).masked := (ih _).symm
      _ = (ws.foldl State.applyWrite (s.applyWrite w).masked).masked := by
        rw [s.applyWrite_masked w]
      _ = (ws.foldl State.applyWrite (s.applyWrite w)).masked := ih _

section
variable (s : State)

theorem State.complete_masked (r : Result) :
    (s.masked.complete r).masked = (s.complete r).masked := by
  cases r with
  | ok ws =>
    exact congrArg (fun t : State => { t with err := .ok, phase := .idle, done := true })
      (State.applyWrites_masked ws s)
  | raise e => rfl

theorem State.settle_masked (d : DriveEnd) :
    (s.masked.settle d).masked = (s.settle d).masked := by
  cases d with
  | ended r rest => exact State.complete_masked { s with entropy := rest } r
  | failed rest => rfl
  | starved p =>
    rw [State.settle, State.masked_snap]
    rfl

theorem State.advance_masked (a : Advance) :
    (s.masked.advance a).masked = (s.advance a).masked := by
  cases a with
  | done r => exact s.complete_masked r
  | wait p =>
    simp only [State.advance, State.masked_cap, State.masked_snap]
    exact s.settle_masked _

/-! ## Every command -/

/-- A command that draws nothing, if it comes to the same result. -/
theorem State.finish_masked {r r' : Result} (h : r' = r) :
    Out.masked (s.masked.finish r') = Out.masked (s.finish r) := by
  rw [h]
  exact congrArg Host.Outcome.next (s.complete_masked r)

/-- A sampling command, if it starts in the same way. -/
theorem State.sample_masked {start start' : Advance} (h : start' = start) :
    Out.masked (s.masked.sample start') = Out.masked (s.sample start) := by
  rw [h, State.sample, State.masked_resume]
  exact congrArg Host.Outcome.next (s.advance_masked _)

theorem exec_masked (i : Instr) : Out.masked (exec i s.masked) = Out.masked (exec i s) := by
  cases i with
  | nop | keyclr => exact s.finish_masked rfl
  | rand _ | mrtest _ _ | primegen _ | coprimegen _ _ | keygen | keyderive _ _ =>
    exact s.sample_masked (by simp)
  | montsetup _ | montmul _ _ _ | montin _ _ | montout _ _ | barsetup _ | barred _ _
  | modexp _ _ _ _ | gcd _ _ _ | coprime _ _ _ | egcd _ _ _ | modinv _ _ _
  | keyderivee _ _ _ | enc _ _ | dec _ _ | b2i _ | i2b _ => exact s.finish_masked (by simp)

/-! ## Every host access -/

theorem State.writeIdle_masked {b c : Bank} (h : b.masked = c.masked) :
    (s.masked.writeIdle b).masked = (s.writeIdle c).masked := by
  simp only [State.writeIdle, State.masked_busy]
  split <;> simp only [State.masked, Phase.masked_masked, Bank.masked_masked, h]

theorem State.writeCtrl_masked (v : Word) :
    (s.masked.writeCtrl v).masked = (s.writeCtrl v).masked := by
  simp only [State.writeCtrl, State.masked_busy]
  split <;> simp only [State.masked, Phase.masked_masked] <;> rfl

theorem State.writeTarget_masked (v : Word) (d : Target) :
    (s.masked.writeTarget v d).masked = (s.writeTarget v d).masked := by
  cases d with
  | ctrl =>
    simp only [State.writeTarget]
    split
    · rfl
    · exact s.writeCtrl_masked v
  | status => exact congrArg (State.acknowledge · v) s.masked_masked
  | cmd =>
    simp only [State.writeTarget, State.masked_busy]
    split
    · exact congrArg (fun t : State => { t with cmdLost := true }) s.masked_masked
    · rfl
  | arg | retryCap | mlen | x _ _ | mbuf _ => exact s.writeIdle_masked rfl
  | id | param | bctxK | ro _ _ | unmapped => exact s.masked_masked

theorem State.hostAccess_masked (a : Access) :
    (s.masked.hostAccess a).masked = (s.hostAccess a).masked := by
  have hanswer {t u : State} (r : Response) (h : t.masked = u.masked) :
      { t with response := some r }.masked = { u with response := some r }.masked :=
    congrArg (fun t : State => { t with response := some r }) h
  cases a with
  | read offset bytes =>
    simp only [State.hostAccess, State.masked_readTarget]
    split
    · exact hanswer _ s.masked_masked
    · exact hanswer _ s.masked_masked
  | write offset bytes v =>
    simp only [State.hostAccess]
    split
    · exact hanswer _ s.masked_masked
    · exact hanswer _ (s.writeTarget_masked v _)

/-! ## Every step (70_reset_and_hazards R279) -/

theorem engineStep_masked : Out.masked (engineStep s.masked) = Out.masked (engineStep s) := by
  simp only [engineStep, State.masked_fetch]
  split
  · exact congrArg Host.Outcome.next s.masked_masked
  · split
    · exact exec_masked s _
    · exact s.finish_masked rfl

theorem answerStep_masked (a : Answer) :
    Out.masked (answerStep a s.masked) = Out.masked (answerStep a s) := by
  simp only [answerStep, State.masked_request]
  split
  · exact engineStep_masked { s with entropy := a :: s.entropy }
  · exact congrArg Host.Outcome.next s.masked_masked

theorem eventStep_masked (e : Event) :
    Out.masked (eventStep e s.masked) = Out.masked (eventStep e s) := by
  cases e with
  | host a => exact congrArg Host.Outcome.next (s.hostAccess_masked a)
  | engine => exact engineStep_masked s
  | answer a => exact answerStep_masked s a
  | lateAnswer a => exact congrArg Host.Outcome.next s.masked_masked
  | hardReset => rfl

/-- A step reads nothing that masking hides. -/
theorem step_masked : Out.masked (step s.masked) = Out.masked (step s) := by
  simp only [step, State.masked_schedule]
  split
  · exact engineStep_masked s
  · next e rest _ => exact eventStep_masked { s with schedule := rest } e

end

theorem Out.exists_next_of_masked_eq {o : Out} {t : State} (h : Out.masked o = .next t) :
    ∃ t', o = .next t' ∧ t'.masked = t := by
  cases o with
  | next t' => exact ⟨t', rfl, Host.Outcome.next.inj h⟩
  | fault r => cases h
  | refused r => cases h

/-- Settles O41: the two steps agree, once masked, with the step of the one state both mask to. -/
theorem secretKeyRegistersDoNotLeak : Obligations.SecretKeyRegistersDoNotLeak := by
  intro s t s' hst hs
  have hmasked : Out.masked (step t) = .next s'.masked := by
    rw [← step_masked t, ← hst, step_masked s, hs]
    rfl
  obtain ⟨t', ht', heq⟩ := Out.exists_next_of_masked_eq hmasked
  exact ⟨t', ht', heq.symm⟩

end Sys2Proof.Machine
end

section
/-! PROOFS. Completion, errors, the interrupt and EFAIL (60_exceptions R240 to R259): the three ways
a command's step ends, read off for each of these, and what the two resets do to irq. -/

namespace Sys2Proof.Machine

/-! ## How a command's step ends -/

section
variable {s t : State} {i : Instr}

/-- A command's next state is where some rule has advanced to. -/
theorem exists_advance_of_exec (h : exec i s = .next t) : ∃ a, t = s.advance a := by
  obtain ⟨a, ha⟩ := exec_eq_advance i s
  exact ⟨a, Host.Outcome.next.inj (h.symm.trans ha)⟩

theorem State.sameOutside_advance (s : State) (a : Advance) : s.SameOutside (s.advance a) :=
  ⟨s.advance_params a, s.advance_ie a, s.advance_ign a, s.advance_cmdLost a, s.advance_schedule a,
    s.advance_response a⟩

/-- R257: what an advance leaves of the answers is the end of what it had. -/
theorem State.advance_entropy (s : State) (a : Advance) :
    ∃ used, s.entropy = used ++ (s.advance a).entropy := by
  obtain ⟨r, rest, h, hused⟩ | ⟨rest, h, hused⟩ | ⟨p, h, -⟩ := s.advance_cases a
  · simpa [h] using hused
  · simpa [h] using hused
  · exact ⟨s.entropy, by simp [h]⟩

/-- R240, R247, R257: an advance completes the command or leaves it waiting. -/
theorem State.advance_completes_or_waits (s : State) (a : Advance) :
    ((s.advance a).phase = .idle ∧ (s.advance a).done = true)
      ∨ s.WaitsForAnswer (s.advance a) := by
  obtain ⟨r, rest, h, -⟩ | ⟨rest, h, -⟩ | ⟨p, h, -⟩ := s.advance_cases a
  · exact .inl (by simp [h])
  · exact .inl (by simp [h])
  · rw [h]
    exact .inr ⟨⟨p, rfl⟩, ⟨rfl, rfl, rfl, rfl, rfl, rfl⟩, rfl, rfl, rfl, rfl, rfl⟩

theorem State.advance_done_of_idle {a : Advance} (h : (s.advance a).phase = .idle) :
    (s.advance a).done = true := by
  obtain ⟨-, hdone⟩ | ⟨⟨p, hbusy⟩, -⟩ := s.advance_completes_or_waits a
  · exact hdone
  · rw [h] at hbusy
    cases hbusy

/-- R245: an error commits no scheduled write; an answer FAIL also sets EFAIL (R259). -/
theorem State.advance_of_error {a : Advance} (hidle : (s.advance a).phase = .idle)
    (herr : (s.advance a).err ≠ .ok) :
    (s.advance a).res = s.res
      ∧ ((s.advance a).bank = s.bank
        ∨ (s.advance a).bank = { s.bank with efail := true }
          ∧ (s.advance a).err = .entropyUnavailable) := by
  obtain ⟨r, rest, h, -⟩ | ⟨rest, h, -⟩ | ⟨p, h, -⟩ := s.advance_cases a
  · rw [h] at herr ⊢
    cases r with
    | ok ws => exact absurd rfl herr
    | raise e => exact ⟨rfl, .inl rfl⟩
  · rw [h]
    exact ⟨rfl, .inr ⟨rfl, rfl⟩⟩
  · rw [h] at hidle
    cases hidle

/-! ## Resets (70_reset_and_hazards R270, R271) -/

theorem step_of_resetComing (h : s.resetComing = true) (ht : step s = .next t) :
    ∃ rest, t = (s.load rest s.entropy).hardReset := by
  unfold State.resetComing at h
  split at h
  · next rest hs =>
    rw [step, hs] at ht
    exact ⟨rest, (Host.Outcome.next.inj ht).symm⟩
  · cases h

theorem State.hostAccess_of_softResets {a : Access} (h : a.softResets = true) :
    ∃ r, s.hostAccess a = { s.softReset with response := r } := by
  cases a with
  | read offset bytes => cases h
  | write offset bytes v =>
    simp only [Access.softResets, Bool.and_eq_true, Bool.not_eq_true', beq_iff_eq] at h
    obtain ⟨⟨hgood, hoffset⟩, hsrst⟩ := h
    have hctrl : busTarget s.params.words offset.toNat = .ctrl := by
      rw [hoffset]
      rfl
    simp only [State.hostAccess, hgood, hctrl, State.writeTarget, hsrst]
    exact ⟨_, rfl⟩

theorem step_of_softResetComing (h : s.softResetComing = true) (ht : step s = .next t) :
    ∃ rest r, t = { (s.load rest s.entropy).softReset with response := r } := by
  cases hs : s.schedule with
  | nil => simp [State.softResetComing, hs] at h
  | cons e rest =>
    cases e with
    | host a =>
      rw [State.softResetComing_eq hs] at h
      obtain ⟨r, hr⟩ := State.hostAccess_of_softResets (s := s.load rest s.entropy) h
      exact ⟨rest, r, (Host.Outcome.next.inj ((step_host hs).symm.trans ht)).symm.trans hr⟩
    | engine | answer _ | lateAnswer _ | hardReset => simp [State.softResetComing, hs] at h

/-! ## EFAIL (R259) -/

theorem State.applyWrite_efail (s : State) (w : Write) :
    (s.applyWrite w).bank.efail = s.bank.efail := by
  cases w <;> rfl

theorem State.applyWrites_efail (ws : List Write) (s : State) :
    (ws.foldl State.applyWrite s).bank.efail = s.bank.efail := by
  induction ws generalizing s with
  | nil => rfl
  | cons w ws ih => exact (ih _).trans (s.applyWrite_efail w)

theorem State.complete_efail (s : State) (r : Result) :
    (s.complete r).bank.efail = s.bank.efail := by
  cases r with
  | ok ws => exact State.applyWrites_efail ws s
  | raise e => rfl

/-- No command clears EFAIL. -/
theorem State.advance_efail {a : Advance} (h : s.bank.efail = true) :
    (s.advance a).bank.efail = true := by
  obtain ⟨r, rest, heq, -⟩ | ⟨rest, heq, -⟩ | ⟨p, heq, -⟩ := s.advance_cases a
  · rw [heq]
    exact (State.complete_efail { s with entropy := rest } r).trans h
  · rw [heq]
    rfl
  · rw [heq]
    exact h

theorem State.writeIdle_efail {b : Bank} (h : b.efail = s.bank.efail) :
    (s.writeIdle b).bank.efail = s.bank.efail := by
  unfold State.writeIdle
  split
  · rfl
  · exact h

/-- No host write touches EFAIL, a soft reset included (70_reset_and_hazards R271). -/
theorem State.writeTarget_efail (s : State) (v : Word) (d : Target) :
    (s.writeTarget v d).bank.efail = s.bank.efail := by
  cases d with
  | ctrl =>
    rw [State.writeTarget, State.writeCtrl_eq]
    split
    · rfl
    · rfl
  | cmd =>
    rw [State.writeTarget]
    split
    · rfl
    · rfl
  | arg | retryCap | mlen | x _ _ | mbuf _ => exact State.writeIdle_efail rfl
  | status | id | param | bctxK | ro _ _ | unmapped => rfl

theorem State.hostAccess_efail (s : State) (a : Access) :
    (s.hostAccess a).bank.efail = s.bank.efail := by
  obtain ⟨v, d, r, heq, -⟩ := s.hostAccess_eq_writeTarget a
  rw [heq]
  exact s.writeTarget_efail v d

theorem State.StepsTo.efail (hstep : s.StepsTo t) (h : s.bank.efail = true)
    (hreset : s.resetComing = false) : t.bank.efail = true := by
  cases hstep with
  | nothing rest answers => exact h
  | @access rest a hs => exact ((s.load rest s.entropy).hostAccess_efail a).trans h
  | reset hs => simp [State.resetComing, hs] at hreset
  | illegal rest answers => exact h
  | @command rest answers w i t hw hi ht =>
    obtain ⟨a, rfl⟩ := exists_advance_of_exec ht
    exact State.advance_efail h

/-- R257: with EFAIL in the snapshot a rule ends by itself, or its draw is refused. -/
theorem State.advance_of_efail (h : s.snap.efail = true) (a : Advance) :
    ∃ r, s.advance a = s.complete r := by
  cases a with
  | done r => exact ⟨r, rfl⟩
  | wait p =>
    obtain ⟨e, he⟩ := blocked_of_efail s.cap p
    exact ⟨.raise e, State.advance_of_blocked (h ▸ he)⟩

end

/-! ## The obligations -/

/-- Settles O7: every command is an advance, which completes or waits. -/
theorem everyCommandCompletesOrWaits : Obligations.EveryCommandCompletesOrWaits := by
  intro i s
  obtain ⟨a, ha⟩ := exec_eq_advance i s
  exact ⟨s.advance a, ha, s.sameOutside_advance a, s.advance_entropy a,
    s.advance_completes_or_waits a⟩

/-- Settles O8: an advance that ends with an error keeps the bank, but for EFAIL after FAIL. -/
theorem failedCommandChangesOnlyStatus : Obligations.FailedCommandChangesOnlyStatus := by
  intro i s t ht hidle herr
  obtain ⟨a, rfl⟩ := exists_advance_of_exec ht
  obtain ⟨hres, hbank⟩ := State.advance_of_error hidle herr
  refine ⟨s.sameOutside_advance a, State.advance_done_of_idle hidle, hres, ?_, ?_,
    s.advance_entropy a⟩
  · obtain hbank | ⟨hbank, -⟩ := hbank <;> rw [hbank]
  · obtain hbank | ⟨hbank, hcode⟩ := hbank
    · exact .inl (by rw [hbank])
    · exact .inr ⟨by rw [hbank], hcode⟩

/-- Settles O10: DONE and IE after a completion, after each of the three host writes, and after
both resets. -/
theorem interruptFollowsDoneAndEnable : Obligations.InterruptFollowsDoneAndEnable := by
  refine ⟨fun s => by simp [State.irq], fun i s t ht hidle => ?_, fun s t v rest hs hv ht => ?_,
    fun s t v rest hs hidle ht => ?_, fun s t v rest hs hv ht => ?_, fun s t hreset ht => ?_⟩
  · obtain ⟨a, rfl⟩ := exists_advance_of_exec ht
    simp [State.irq, State.advance_done_of_idle hidle]
  · obtain ⟨-, hack⟩ := statusIsReadAndAcknowledged s v rest
    obtain rfl := Host.Outcome.next.inj ((hack hs).symm.trans ht)
    simp [State.irq, hv]
  · obtain ⟨hstart, -⟩ := cmdWriteStartsACommand s v rest
    obtain rfl := Host.Outcome.next.inj ((hstart hs hidle).symm.trans ht)
    simp [State.irq]
  · obtain ⟨hctrl, -⟩ := ctrlWriteStoresEnableAndCheck s v rest
    obtain rfl := Host.Outcome.next.inj ((hctrl hs hv).symm.trans ht)
    exact ⟨rfl, rfl⟩
  · obtain hhard | hsoft := hreset
    · obtain ⟨rest, rfl⟩ := step_of_resetComing hhard ht
      rfl
    · obtain ⟨rest, r, rfl⟩ := step_of_softResetComing hsoft ht
      rfl

/-- Settles O39: no write of a host or a command clears EFAIL, and every draw under it is
refused before an answer is taken. -/
theorem entropyFailureIsSticky : Obligations.EntropyFailureIsSticky := by
  refine ⟨fun s t h ht hreset => (step_stepsTo ht).efail h hreset, fun i s t h ht => ?_⟩
  obtain ⟨a, rfl⟩ := exists_advance_of_exec ht
  obtain ⟨r, hr⟩ := State.advance_of_efail h a
  simp [hr]

end Sys2Proof.Machine
end

section
/-! PROOFS. Reset, termination and granularity (70_reset_and_hazards R270 to R280): what a reset
leaves, the answers on which a sampling command completes, the search that never ends, how many
draws a command makes at most, and that a command answered later ends as if it had run at once. -/

namespace Sys2Proof.Machine

/-! ## Resets (R270, R271) -/

theorem Bank.reset_readX (p : Params) (efail : Bool) (r : Reg) :
    (Bank.reset p efail).readX r = 0 := by
  simp [Bank.reset, Bank.readX]

theorem State.hardReset_inv {s : State} (h : s.params.Legal) : s.hardReset.Inv :=
  have ⟨hreset, _⟩ := resetMeetsTheInvariant
  hreset s.params h

/-- An answer with no request outstanding is discarded. -/
theorem answerStep_of_not_waiting {s : State} (a : Answer) (h : s.waiting = false) :
    answerStep a s = .next s := by
  unfold State.waiting at h
  split at h
  · cases h
  · next hnone =>
    have hrequest : s.request = none := by
      unfold State.request
      split
      · next p hp => exact absurd hp (hnone _ p)
      · rfl
    rw [answerStep, hrequest]

/-! ## Answers that a sampling loop accepts at once (R276) -/

section
variable {s : State}

/-- The first draw of a sampling loop is refused under EFAIL only. -/
theorem WaitPoint.blocked_of_first {p : WaitPoint} (hc : p.count = some 0) (cap : Nat) :
    p.blocked cap false = none := by
  rw [WaitPoint.blocked_of_count hc, if_neg (fun ⟨hne, hzero⟩ => hne hzero.symm)]
  rfl

/-- The first draw of a loop whose answer ends the command. -/
theorem State.advance_of_first (p : WaitPoint) {v : Nat} {rest : List Answer} {r : Result}
    (hc : p.count = some 0) (hefail : s.snap.efail = false) (hs : s.entropy = .value v :: rest)
    (hv : v < 2 ^ p.width) (hr : p.answered v = .done r) :
    s.advance (.wait p) = State.complete { s with entropy := rest } r :=
  State.advance_of_value (hefail ▸ WaitPoint.blocked_of_first hc s.cap) hs
    ((Nat.mod_eq_of_lt hv).symm ▸ hr)

/-- How a run ends does not depend on the answers that were at hand before it. -/
theorem State.settle_of_answers (s : State) (answers : List Answer) (d : DriveEnd) :
    State.settle { s with entropy := answers } d = s.settle d := by
  cases d with
  | ended r rest | failed rest | starved p => rfl

/-- The first draw of a loop whose answer leads to another draw. -/
theorem State.advance_of_first_wait (p : WaitPoint) {q : WaitPoint} {v : Nat} {rest : List Answer}
    (hc : p.count = some 0) (hefail : s.snap.efail = false) (hs : s.entropy = .value v :: rest)
    (hv : v < 2 ^ p.width) (hq : p.answered v = .wait q) :
    s.advance (.wait p) = State.advance { s with entropy := rest } (.wait q) := by
  have hdrive : drive s.cap s.snap.efail s.entropy p = drive s.cap s.snap.efail rest q := by
    rw [hs]
    exact drive_value_wait rest (hefail ▸ WaitPoint.blocked_of_first hc s.cap)
      ((Nat.mod_eq_of_lt hv).symm ▸ hq)
  rw [State.advance, hdrive]
  exact (s.settle_of_answers rest _).symm

theorem lt_two_pow_of_lt_four {v k : Nat} (hv : v < 4) (hk : 2 ≤ k) : v < 2 ^ k :=
  calc v < 2 ^ 2 := hv
    _ ≤ 2 ^ k := Nat.pow_le_pow_right Nat.two_pos hk

/-- MR passes 2 and 3 without a draw (42_primality R151). -/
theorem beginMr_of_two_or_three (use : MrUse) {num : Nat} (k : Nat) (h : num = 2 ∨ num = 3) :
    beginMr use num k = verdict use num true := by
  rw [beginMr, if_neg (by omega), if_pos h]

/-- A search takes 2 and 3 at once, but for the p that loop Q rejects. -/
theorem candidateDrawn_of_two_or_three {search : Search} {cand : Nat} (nb c : Nat)
    (hskip : search ≠ .keygenQ cand) (h : cand = 2 ∨ cand = 3) :
    candidateDrawn search nb c cand = primeFound search nb cand := by
  rw [candidateDrawn, if_neg hskip, beginMr_of_two_or_three _ _ h]
  rfl

theorem coprimeDrawn_of_coprime (use : CoprimeUse) {m v : Nat} (nb c : Nat) (hlt : v < m)
    (hgcd : Nat.gcd m v = 1) : coprimeDrawn use m nb c v = coprimeFound use v :=
  if_pos ⟨hlt, hgcd⟩

/-- φ of two different primes is at least 2 (44_keypair R202). -/
theorem one_lt_phi {p q : Nat} (hp : 2 ≤ p) (hq : 2 ≤ q) (hne : p ≠ q) :
    1 < (p - 1) * (q - 1) := by
  obtain hlt | hlt := Nat.lt_or_gt_of_ne hne
  · exact Nat.mul_le_mul (show 1 ≤ p - 1 by omega) (show 2 ≤ q - 1 by omega)
  · exact Nat.mul_le_mul (show 2 ≤ p - 1 by omega) (show 1 ≤ q - 1 by omega)

/-- The key of the exponent 1: d is its inverse, 1. -/
theorem keyOf_one {p q : Nat} (hp : 2 ≤ p) (hq : 2 ≤ q) (hne : p ≠ q) :
    keyOf p q 1 = { kn := p * q, ke := 1, kd := 1, kp := p, kq := q,
                    kphi := (p - 1) * (q - 1) } := by
  obtain ⟨-, -, -, -, -, hlt, hinv⟩ :=
    keyOf_isDerived hp hq hne (one_lt_phi hp hq hne) (Nat.gcd_one_left _)
  have hkd : (keyOf p q 1).kd = 1 := by
    rwa [show (keyOf p q 1).ke = 1 from rfl, one_mul, Nat.mod_eq_of_lt hlt] at hinv
  calc keyOf p q 1 = ⟨p * q, 1, (keyOf p q 1).kd, p, q, (p - 1) * (q - 1)⟩ := rfl
    _ = ⟨p * q, 1, 1, p, q, (p - 1) * (q - 1)⟩ := by rw [hkd]

/-- Derive on the answer 1 (44_keypair R202). -/
theorem State.advance_derive_of_one {p q eb : Nat} {rest : List Answer}
    (hp : 2 ≤ p) (hq : 2 ≤ q) (hne : p ≠ q) (heb : 1 ≤ eb) (hefail : s.snap.efail = false)
    (hs : s.entropy = .value 1 :: rest) :
    s.advance (beginDerive p q eb) = State.complete { s with entropy := rest }
      (.ok [.key { kn := p * q, ke := 1, kd := 1, kp := p, kq := q,
                   kphi := (p - 1) * (q - 1) } true]) := by
  rw [← keyOf_one hp hq hne]
  exact State.advance_of_first (.coprime (.derive p q) ((p - 1) * (q - 1)) eb 0) rfl hefail hs
    (Nat.one_lt_two_pow (Nat.ne_zero_of_lt heb))
    (coprimeDrawn_of_coprime _ eb 1 (one_lt_phi hp hq hne) (Nat.gcd_one_right _))

/-- A committed keypair is all a key command writes (44_keypair R200). -/
theorem State.exists_commitsKey {o : Out} {k : KeyRegs} {rest : List Answer}
    (h : o = .next (State.complete { s with entropy := rest } (.ok [.key k true]))) :
    ∃ t, o = .next t ∧ t.Succeeded ∧ t.bank.kv = true ∧ t.bank.key = k ∧ s.OnlyKeys t
      ∧ t.entropy = rest :=
  ⟨_, h, ⟨rfl, rfl, rfl⟩, rfl, rfl, s.complete_key_onlyKeys k true rest, rfl⟩

/-- Loop P takes 2, loop Q takes 3, and Derive takes 1 (44_keypair R201). -/
theorem State.advance_keygen_of_two_three_one {nb : Nat} {rest : List Answer} (hnb : 2 ≤ nb)
    (hefail : s.snap.efail = false)
    (hs : s.entropy = .value 2 :: .value 3 :: .value 1 :: rest) :
    s.advance (.wait (.candidate .keygenP nb 0)) = State.complete { s with entropy := rest }
      (.ok [.key { kn := 6, ke := 1, kd := 1, kp := 2, kq := 3, kphi := 2 } true]) := by
  have htwo := State.advance_of_first_wait (.candidate .keygenP nb 0) rfl hefail hs
    (lt_two_pow_of_lt_four (by decide) hnb)
    (candidateDrawn_of_two_or_three nb 1 (by simp) (.inl rfl))
  have hthree := State.advance_of_first_wait
    (s := { s with entropy := .value 3 :: .value 1 :: rest }) (.candidate (.keygenQ 2) nb 0)
    rfl hefail rfl (lt_two_pow_of_lt_four (by decide) hnb)
    (candidateDrawn_of_two_or_three nb 1 (by simp) (.inr rfl))
  have hone := State.advance_derive_of_one (s := { s with entropy := .value 1 :: rest })
    (p := 2) (q := 3) (by decide) (by decide) (by decide) (Nat.le_of_lt hnb) hefail rfl
  exact htwo.trans (hthree.trans hone)

end

/-! ## The search that never ends (R276) -/

section
variable {s : State} {search : Search}

/-- No number of one bit passes: a one-bit search goes on to its next draw. -/
theorem candidateDrawn_of_lt_two (search : Search) {cand : Nat} (c : Nat) (h : cand < 2) :
    candidateDrawn search 1 c cand = .wait (.candidate search 1 c) := by
  unfold candidateDrawn
  split
  · rfl
  · rw [beginMr, if_pos h]
    rfl

/-- Without a cap a one-bit search consumes every list of values, and is then starved. -/
theorem drive_one_bit_search {answers : List Answer} (c : Nat) (h : ∀ a ∈ answers, a ≠ .fail) :
    ∃ q, drive 0 false answers (.candidate search 1 c) = .starved q := by
  have hopen := blocked_of_no_cap (.candidate search 1 c)
  induction answers generalizing c with
  | nil => exact ⟨_, drive_nil hopen⟩
  | cons a rest ih =>
    obtain ⟨ha, hrest⟩ := List.forall_mem_cons.1 h
    cases a with
    | fail => exact absurd rfl ha
    | value v =>
      have hbit : v % 2 ^ (WaitPoint.candidate search 1 c).width < 2 := Nat.mod_lt v Nat.two_pos
      rw [drive_value_wait rest hopen (candidateDrawn_of_lt_two search (c + 1) hbit)]
      exact ih (c + 1) hrest (blocked_of_no_cap _)

/-- A starved run leaves the command waiting. -/
theorem State.waitsForAnswer_of_starved {p q : WaitPoint}
    (h : drive s.cap s.snap.efail s.entropy p = .starved q) :
    s.WaitsForAnswer (s.advance (.wait p)) := by
  rw [State.advance, h]
  exact ⟨⟨q, rfl⟩, ⟨rfl, rfl, rfl, rfl, rfl, rfl⟩, rfl, rfl, rfl, rfl, rfl⟩

theorem State.waitsForAnswer_of_one_bit_search (hcap : s.cap = 0) (hefail : s.snap.efail = false)
    (h : ∀ a ∈ s.entropy, a ≠ .fail) :
    s.WaitsForAnswer (s.advance (.wait (.candidate search 1 0))) := by
  obtain ⟨q, hq⟩ := drive_one_bit_search (search := search) 0 h
  exact State.waitsForAnswer_of_starved (by rw [hcap, hefail, hq])

end

/-! ## How many draws a procedure makes (R277) -/

/-- The procedure, run over `answers`, draws at most `bound` of them, and lacks an answer only where
there are fewer than that. -/
def Ran.DrawsAtMost {α : Type} (bound : Nat) (answers : List Answer) : Ran α → Prop
  | .value _ rest => rest.length ≤ answers.length ∧ answers.length ≤ rest.length + bound
  | .raised _ _ rest => answers.length ≤ rest.length + bound
  | .starved => answers.length < bound

section
variable {α β : Type} {answers : List Answer}

theorem Ran.drawsAtMost_value (bound : Nat) (a : α) :
    (Ran.value a answers).DrawsAtMost bound answers :=
  ⟨le_rfl, Nat.le_add_right _ _⟩

/-- What a procedure draws after `n` answers have been drawn adds to them. -/
theorem Ran.DrawsAtMost.after {m : Ran α} {rest : List Answer} {n b bound : Nat}
    (h : m.DrawsAtMost b rest) (hrest : rest.length ≤ answers.length)
    (hn : answers.length ≤ rest.length + n) (hbound : n + b ≤ bound) :
    m.DrawsAtMost bound answers := by
  match m with
  | .value _ rest' =>
    obtain ⟨hle, hdrawn⟩ : rest'.length ≤ rest.length ∧ rest.length ≤ rest'.length + b := h
    exact ⟨by omega, by omega⟩
  | .raised _ _ rest' =>
    have hdrawn : rest.length ≤ rest'.length + b := h
    exact show answers.length ≤ rest'.length + bound by omega
  | .starved =>
    have hfew : rest.length < b := h
    exact show answers.length < bound by omega

/-- One procedure after another draws no more than both. -/
theorem Ran.DrawsAtMost.andThen {m : Ran α} {f : α → List Answer → Ran β} {n b bound : Nat}
    (hm : m.DrawsAtMost n answers)
    (hf : ∀ a rest, rest.length ≤ answers.length → (f a rest).DrawsAtMost b rest)
    (hbound : n + b ≤ bound) : (m.andThen f).DrawsAtMost bound answers := by
  match m with
  | .value a rest =>
    obtain ⟨hrest, hn⟩ := hm
    exact (hf a rest hrest).after hrest hn hbound
  | .raised _ _ rest =>
    have hn : answers.length ≤ rest.length + n := hm
    exact show answers.length ≤ rest.length + bound by omega
  | .starved =>
    have hfew : answers.length < n := hm
    exact show answers.length < bound by omega

variable {port : Port} (hcap : 0 < port.cap)
include hcap

/-- A turn of a loop that has made `c` draws: at CAP it ends (60_exceptions R258), and below it one
answer is drawn. -/
theorem cappedEntropy_draws {f : Nat → List Answer → Ran α} {c k b bound : Nat}
    (hc : c ≤ port.cap)
    (hf : c < port.cap → ∀ v rest, rest.length < answers.length → (f v rest).DrawsAtMost b rest)
    (hbound : c < port.cap → 1 + b ≤ bound) :
    ((Procedure.cappedEntropy port c k answers).andThen f).DrawsAtMost bound answers := by
  unfold Procedure.cappedEntropy Procedure.entropy
  split
  · exact Nat.le_add_right _ _
  next hopen =>
  have hlt : c < port.cap := by omega
  split
  · exact Nat.le_add_right _ _
  match answers with
  | [] => exact show 0 < bound from (Nat.le_add_right 1 b).trans (hbound hlt)
  | .fail :: rest =>
    have hone := hbound hlt
    exact show rest.length + 1 ≤ rest.length + bound by omega
  | .value v :: rest =>
    exact (hf hlt _ rest (Nat.lt_succ_self _)).after (Nat.le_succ _) le_rfl (hbound hlt)

theorem sampleLoop_draws (hi : Nat) {fuel w c : Nat} (hc : c ≤ port.cap)
    (hfuel : answers.length < fuel) :
    (Procedure.sampleLoop port hi fuel w c answers).DrawsAtMost (port.cap - c) answers := by
  induction fuel generalizing w c answers with
  | zero => exact absurd hfuel (Nat.not_lt_zero _)
  | succ fuel ih =>
    refine cappedEntropy_draws hcap hc (b := port.cap - (c + 1)) (fun hlt v rest hrest => ?_)
      (by omega)
    split
    · exact Ran.drawsAtMost_value _ v
    · split
      · exact ih hlt (by omega)
      · exact ih hlt (by omega)

theorem rounds_draws (num k : Nat) :
    (Procedure.rounds port num k answers).DrawsAtMost (k * port.cap) answers := by
  induction k generalizing answers with
  | zero => exact Ran.drawsAtMost_value _ true
  | succ k ih =>
    refine (sampleLoop_draws hcap (num - 2) (Nat.zero_le _) (Nat.lt_succ_self _)).andThen
      (fun a rest _ => ?_) (b := k * port.cap) (by rw [Nat.succ_mul]; omega)
    split
    · exact ih
    · exact Ran.drawsAtMost_value _ false

theorem mr_draws (num k : Nat) :
    (Procedure.mr port num k answers).DrawsAtMost (k * port.cap) answers := by
  unfold Procedure.mr
  split
  · exact Ran.drawsAtMost_value _ false
  · split
    · exact Ran.drawsAtMost_value _ true
    · exact rounds_draws hcap num k

/-- Each candidate costs its own draw and those of 10 rounds. -/
theorem primeLoop_draws (nb : Nat) (skip : Option Nat) {fuel c : Nat} (hc : c ≤ port.cap)
    (hfuel : answers.length < fuel) :
    (Procedure.primeLoop port nb skip fuel c answers).DrawsAtMost
      ((port.cap - c) * (1 + 10 * port.cap)) answers := by
  induction fuel generalizing c answers with
  | zero => exact absurd hfuel (Nat.not_lt_zero _)
  | succ fuel ih =>
    have hturn (hlt : c < port.cap) : (port.cap - c) * (1 + 10 * port.cap)
        = 1 + (10 * port.cap + (port.cap - (c + 1)) * (1 + 10 * port.cap)) := by
      rw [show port.cap - c = (port.cap - (c + 1)) + 1 by omega, Nat.succ_mul]
      omega
    refine cappedEntropy_draws hcap hc (fun hlt cand rest hrest => ?_) fun hlt => (hturn hlt).ge
    split
    · exact (ih hlt (by omega)).after le_rfl (Nat.le_add_right _ _) le_rfl
    · refine (mr_draws hcap cand Config.primegenRounds).andThen (fun v rest' hle => ?_) le_rfl
      cases v with
      | true => exact Ran.drawsAtMost_value _ cand
      | false => exact ih hlt (by omega)

theorem findPrime_draws (nb : Nat) (skip : Option Nat) :
    (Procedure.findPrime port nb skip answers).DrawsAtMost
      (port.cap * (1 + 10 * port.cap)) answers :=
  primeLoop_draws hcap nb skip (Nat.zero_le _) (Nat.lt_succ_self _)

theorem coprimeLoop_draws (m nb : Nat) {fuel c : Nat} (hc : c ≤ port.cap)
    (hfuel : answers.length < fuel) :
    (Procedure.coprimeLoop port m nb fuel c answers).DrawsAtMost (port.cap - c) answers := by
  induction fuel generalizing c answers with
  | zero => exact absurd hfuel (Nat.not_lt_zero _)
  | succ fuel ih =>
    refine cappedEntropy_draws hcap hc (b := port.cap - (c + 1)) (fun hlt v rest hrest => ?_)
      (by omega)
    split
    · exact Ran.drawsAtMost_value _ v
    · exact ih hlt (by omega)

theorem findCoprime_draws (m nb : Nat) :
    (Procedure.findCoprime port m nb answers).DrawsAtMost port.cap answers :=
  coprimeLoop_draws hcap m nb (Nat.zero_le _) (Nat.lt_succ_self _)

theorem deriveKey_draws (p q eb : Nat) :
    (Procedure.deriveKey port p q eb answers).DrawsAtMost port.cap answers :=
  (findCoprime_draws hcap _ eb).andThen (fun e _ _ => Ran.drawsAtMost_value 0 (keyOf p q e)) le_rfl

theorem keygen_draws (nb : Nat) :
    (Procedure.keygen port nb answers).DrawsAtMost
      (2 * port.cap * (1 + 10 * port.cap) + port.cap) answers :=
  (findPrime_draws hcap nb none).andThen
    (fun p _ _ => (findPrime_draws hcap nb (some p)).andThen
      (fun q _ _ => deriveKey_draws hcap p q nb) le_rfl)
    (by rw [Nat.mul_assoc]; omega)

end

/-! ## The draws of a command (R277) -/

/-- A command's meaning completes it, with any outcome, and consumes at most `bound` answers. -/
def Out.CompletesWithin (s : State) (bound : Nat) (o : Out) : Prop :=
  ∃ t, o = .next t ∧ t.phase = .idle ∧ t.done = true
    ∧ s.entropy.length ≤ t.entropy.length + bound

section
variable {s : State} {o : Out} {bound : Nat}

theorem State.finish_completesWithin (s : State) (r : Result) (bound : Nat) :
    Out.CompletesWithin s bound (s.finish r) :=
  ⟨_, rfl, s.complete_phase r, s.complete_done r,
    (s.complete_entropy r).symm ▸ Nat.le_add_right _ _⟩

theorem Out.completesWithin_of_failsCleanly {e : ErrCode}
    (h : ∃ t, o = .next t ∧ s.FailsCleanly t e) : o.CompletesWithin s bound := by
  obtain ⟨t, ht, ⟨hidle, hdone, -⟩, -, -, hentropy⟩ := h
  exact ⟨t, ht, hidle, hdone, hentropy ▸ Nat.le_add_right _ _⟩

/-- A command that follows a procedure completes on as many answers as that draws at most. -/
theorem Out.completesWithin_of_follows {α : Type} {m : Ran α} {P : State → α → Prop}
    (h : ∃ t, o = .next t ∧ s.Follows t m (P t)) (hm : m.DrawsAtMost bound s.entropy)
    (hlen : bound ≤ s.entropy.length) : o.CompletesWithin s bound := by
  obtain ⟨t, ht, hfollows⟩ := h
  match m with
  | .value a rest =>
    obtain ⟨⟨hidle, hdone, -⟩, rfl, -⟩ := hfollows
    exact ⟨t, ht, hidle, hdone, hm.2⟩
  | .raised e failed rest =>
    obtain ⟨⟨hidle, hdone, -⟩, -, -, -, rfl⟩ := hfollows
    exact ⟨t, ht, hidle, hdone, hm⟩
  | .starved => exact absurd hm hlen.not_gt

theorem exec_rand_completesWithin (h : s.atStart = true) (rd : Reg)
    (hlen : 1 ≤ s.entropy.length) : Out.CompletesWithin s 1 (exec (.rand rd) s) := by
  obtain ⟨hbad, hwidth⟩ := randWritesOneDraw s rd h
  by_cases hk : s.argument = 0 ∨ s.width < s.argument
  · exact Out.completesWithin_of_failsCleanly (hbad hk)
  obtain ⟨hrefused, hdraw⟩ := hwidth (by omega) (by omega)
  cases hefail : s.snap.efail with
  | true => exact Out.completesWithin_of_failsCleanly (hrefused hefail)
  | false =>
    obtain ⟨hvalue, hfail, -⟩ := hdraw hefail
    cases hs : s.entropy with
    | nil => simp [hs] at hlen
    | cons a rest =>
      cases a with
      | value v =>
        obtain ⟨t, ht, ⟨hidle, hdone, -⟩, -, -, -, rfl⟩ := hvalue v rest hs
        exact ⟨t, ht, hidle, hdone, by simp [hs]⟩
      | fail =>
        obtain ⟨t, ht, ⟨hidle, hdone, -⟩, -, -, -, rfl⟩ := hfail rest hs
        exact ⟨t, ht, hidle, hdone, by simp [hs]⟩

variable (h : s.atStart = true) (hcap : 0 < s.cap)
include h hcap

theorem exec_mrtest_completesWithin (rd rs1 : Reg) (hlen : s.argument * s.cap ≤ s.entropy.length) :
    Out.CompletesWithin s (s.argument * s.cap) (exec (.mrtest rd rs1) s) := by
  obtain ⟨hzero, hfollows⟩ := mrtestFollowsMillerRabin s rd rs1 h
  by_cases hk : s.argument = 0
  · exact Out.completesWithin_of_failsCleanly (hzero hk)
  · exact Out.completesWithin_of_follows (hfollows hk) (mr_draws hcap _ _) hlen

theorem exec_primegen_completesWithin (rd : Reg)
    (hlen : s.cap * (1 + 10 * s.cap) ≤ s.entropy.length) :
    Out.CompletesWithin s (s.cap * (1 + 10 * s.cap)) (exec (.primegen rd) s) := by
  obtain ⟨hbad, hfollows⟩ := primegenFollowsTheCandidateLoop s rd h
  by_cases hk : s.argument = 0 ∨ s.width < s.argument
  · exact Out.completesWithin_of_failsCleanly (hbad hk)
  · exact Out.completesWithin_of_follows (hfollows (by omega) (by omega))
      (findPrime_draws hcap _ _) hlen

theorem exec_coprimegen_completesWithin (rd rs1 : Reg) (hlen : s.cap ≤ s.entropy.length) :
    Out.CompletesWithin s s.cap (exec (.coprimegen rd rs1) s) := by
  obtain ⟨hbad, hfollows⟩ := coprimegenFollowsTheCoprimeLoop s rd rs1 h
  by_cases hk : s.argument = 0 ∨ s.width < s.argument ∨ s.src rs1 = 0
  · exact Out.completesWithin_of_failsCleanly (hbad hk)
  · exact Out.completesWithin_of_follows (hfollows (by omega) (by omega) (by omega))
      (findCoprime_draws hcap _ _) hlen

theorem exec_keygen_completesWithin
    (hlen : 2 * s.cap * (1 + 10 * s.cap) + s.cap ≤ s.entropy.length) :
    Out.CompletesWithin s (2 * s.cap * (1 + 10 * s.cap) + s.cap) (exec .keygen s) := by
  obtain ⟨hlocked, hbad, hfollows⟩ := keygenFollowsItsLoops s h
  cases hkv : s.snap.kv with
  | true => exact Out.completesWithin_of_failsCleanly (hlocked hkv)
  | false =>
    by_cases hk : s.argument = 0 ∨ s.width / 2 < s.argument
    · exact Out.completesWithin_of_failsCleanly (hbad hkv hk)
    · exact Out.completesWithin_of_follows (hfollows hkv (by omega) (by omega))
        (keygen_draws hcap _) hlen

theorem exec_keyderive_completesWithin (rs1 rs2 : Reg) (hlen : s.cap ≤ s.entropy.length) :
    Out.CompletesWithin s s.cap (exec (.keyderive rs1 rs2) s) := by
  obtain ⟨hlocked, hbad, hwidth⟩ := keyderiveFollowsDerive s rs1 rs2 h
  cases hkv : s.snap.kv with
  | true => exact Out.completesWithin_of_failsCleanly (hlocked hkv)
  | false =>
    by_cases hk : s.argument = 0 ∨ s.width < s.argument
    · exact Out.completesWithin_of_failsCleanly (hbad hkv hk)
    obtain ⟨hbadPrimes, hprimes⟩ := hwidth hkv (by omega) (by omega)
    by_cases hpq : s.src rs1 < 2 ∨ s.src rs2 < 2 ∨ s.src rs1 = s.src rs2
    · exact Out.completesWithin_of_failsCleanly (hbadPrimes hpq)
    obtain ⟨hover, hfollows⟩ := hprimes (by omega) (by omega) fun heq => hpq (.inr (.inr heq))
    by_cases hproduct : 2 ^ s.width ≤ s.src rs1 * s.src rs2
    · exact Out.completesWithin_of_failsCleanly (hover hproduct)
    · exact Out.completesWithin_of_follows (hfollows (not_le.1 hproduct))
        (deriveKey_draws hcap _ _ _) hlen

end

/-! ## A command answered later (R280) -/

section
variable {s t : State} {i : Instr}

/-- The run over more answers goes on from where it lacked one. -/
theorem drive_append_of_starved {cap : Nat} {efail : Bool} {answers : List Answer} {p q : WaitPoint}
    (later : List Answer) (h : drive cap efail answers p = .starved q) :
    drive cap efail (answers ++ later) p = drive cap efail later q := by
  induction answers generalizing p with
  | nil =>
    cases hb : p.blocked cap efail with
    | some e => simp [drive_of_blocked [] hb] at h
    | none =>
      obtain rfl : p = q := by simpa [drive_nil hb] using h
      rfl
  | cons a rest ih =>
    cases hb : p.blocked cap efail with
    | some e => simp [drive_of_blocked (a :: rest) hb] at h
    | none =>
      cases a with
      | fail => simp [drive_fail rest hb] at h
      | value v =>
        cases ha : p.answered (v % 2 ^ p.width) with
        | done r => simp [drive_value_done rest hb ha] at h
        | wait p' =>
          rw [drive_value_wait rest hb ha] at h
          exact (drive_value_wait (rest ++ later) hb ha).trans (ih h)

theorem State.applyWrites_of_phase (ws : List Write) (s : State) (phase : Phase) :
    ws.foldl State.applyWrite { s with phase := phase }
      = { ws.foldl State.applyWrite s with phase := phase } := by
  induction ws generalizing s with
  | nil => rfl
  | cons w ws ih =>
    have hw : State.applyWrite { s with phase := phase } w
        = { s.applyWrite w with phase := phase } := by
      cases w <;> rfl
    rw [List.foldl_cons, hw]
    exact ih (s.applyWrite w)

/-- A completion ends in IDLE, wherever the command stood. -/
theorem State.complete_of_phase (s : State) (phase : Phase) (r : Result) :
    State.complete { s with phase := phase } r = s.complete r := by
  cases r with
  | ok ws => rw [State.complete, State.applyWrites_of_phase]; rfl
  | raise e => rfl

/-- How a run ends does not depend on the answers at hand before it, nor on where the command stood,
its snapshot being the same. -/
theorem State.settle_of_resumed (s : State) (answers : List Answer) (point : Option WaitPoint)
    (d : DriveEnd) :
    State.settle { s with entropy := answers, phase := .busy s.snap point } d = s.settle d := by
  cases d with
  | ended r rest => exact State.complete_of_phase { s with entropy := rest } _ r
  | failed rest | starved p => rfl

theorem State.finish_eq_advance_done (s : State) (r : Result) :
    s.finish r = .next (s.advance (.done r)) := rfl

/-- A command that has just been accepted runs from a start that the answers have no part in. -/
theorem exec_start (i : Instr) (h : s.atStart = true) :
    ∃ start, exec i s = .next (s.advance start) ∧ ∀ answers,
      exec i { s with entropy := answers }
        = .next (State.advance { s with entropy := answers } start) := by
  cases i with
  | rand _ | mrtest _ _ | primegen _ | coprimegen _ _ | keygen | keyderive _ _ =>
    exact ⟨_, State.sample_of_atStart h _,
      fun answers => State.sample_of_atStart (s := { s with entropy := answers }) h _⟩
  | nop | montsetup _ | montmul _ _ _ | montin _ _ | montout _ _ | barsetup _ | barred _ _
  | modexp _ _ _ _ | gcd _ _ _ | coprime _ _ _ | egcd _ _ _ | modinv _ _ _
  | keyderivee _ _ _ | keyclr | enc _ _ | dec _ _ | b2i _ | i2b _ =>
    exact ⟨_, s.finish_eq_advance_done _, fun _ => State.finish_eq_advance_done _ _⟩

theorem State.finish_not_waiting {r : Result} (h : s.finish r = .next t) : t.waiting = false := by
  obtain rfl := Host.Outcome.next.inj h
  rw [State.waiting, State.complete_phase]

/-- A command that can come to wait goes on from the point it waits at. -/
theorem exec_resume {u : State} {b : Bank} {p : WaitPoint} (h : exec i s = .next t)
    (ht : t.waiting = true) (hu : u.phase = .busy b (some p)) :
    exec i u = .next (u.advance (.wait p)) := by
  cases i with
  | rand _ | mrtest _ _ | primegen _ | coprimegen _ _ | keygen | keyderive _ _ =>
    exact congrArg (fun a => Host.Outcome.next (u.advance a)) (State.resume_of_waiting _ hu)
  | nop | montsetup _ | montmul _ _ _ | montin _ _ | montout _ _ | barsetup _ | barred _ _
  | modexp _ _ _ _ | gcd _ _ _ | coprime _ _ _ | egcd _ _ _ | modinv _ _ _
  | keyderivee _ _ _ | keyclr | enc _ _ | dec _ _ | b2i _ | i2b _ =>
    rw [State.finish_not_waiting h] at ht
    cases ht

/-- A rule that has come to wait has been starved at the point it waits at. -/
theorem State.advance_of_waiting {a : Advance} (h : (s.advance a).waiting = true) :
    ∃ p q, a = .wait p ∧ drive s.cap s.snap.efail s.entropy p = .starved q
      ∧ s.advance a = { s with entropy := [], phase := .busy s.snap (some q) } := by
  have hidle {u : State} (hu : u.phase = .idle) : u.waiting ≠ true := by
    simp [State.waiting, hu]
  cases a with
  | done r => exact absurd h (hidle (s.complete_phase r))
  | wait p =>
    rw [State.advance] at h ⊢
    cases hd : drive s.cap s.snap.efail s.entropy p with
    | ended r rest =>
      rw [hd] at h
      exact absurd h (hidle (State.complete_phase _ r))
    | failed rest =>
      rw [hd] at h
      exact absurd h (hidle rfl)
    | starved q => exact ⟨p, q, rfl, hd, rfl⟩

/-- A starved rule that is resumed with answers advances as if they had been at hand. -/
theorem State.advance_resumed {p q : WaitPoint} (later : List Answer)
    (h : drive s.cap s.snap.efail s.entropy p = .starved q) :
    State.advance { s with entropy := later, phase := .busy s.snap (some q) } (.wait q)
      = State.advance { s with entropy := s.entropy ++ later } (.wait p) := by
  calc State.advance { s with entropy := later, phase := .busy s.snap (some q) } (.wait q)
      = s.settle (drive s.cap s.snap.efail later q) := s.settle_of_resumed later (some q) _
    _ = s.settle (drive s.cap s.snap.efail (s.entropy ++ later) p) := by
      rw [drive_append_of_starved later h]
    _ = State.advance { s with entropy := s.entropy ++ later } (.wait p) :=
      (s.settle_of_answers (s.entropy ++ later) _).symm

end

/-! ## The obligations -/

/-- Settles O37: each command's checks lead to the first draw of its loop, or to MR's verdict, and
each answer is accepted. -/
theorem samplingCommandsCompleteOnAcceptedAnswers :
    Obligations.SamplingCommandsCompleteOnAcceptedAnswers := by
  intro s rd rs1 rs2 v rest hstart
  refine ⟨fun harg hsmall => ?_, fun hefail hs => ⟨fun hlo hhi => ?_, fun hlo hhi hv => ?_,
    fun hlo hhi hv => ?_, fun hkv hlo hhi hp hq hne hpq hv => ?_,
    fun hkv hlo hhi hv rest' hrest => ?_⟩⟩
  · have hexec := exec_mrtest_of_ne_zero hstart rd rs1 harg
    rw [beginMr_of_two_or_three _ _ hsmall] at hexec
    exact ⟨_, hexec, ⟨rfl, rfl, rfl⟩, s.bank.readX_writeX_same rd 1, rfl,
      s.complete_x_res_onlyX rd 1 true s.entropy, rfl⟩
  · obtain ⟨-, hwidth⟩ := randWritesOneDraw s rd hstart
    obtain ⟨-, hdraw⟩ := hwidth hlo hhi
    obtain ⟨hvalue, -⟩ := hdraw hefail
    exact hvalue v rest hs
  · have hexec := exec_primegen_of_width hstart rd (by omega) hhi
    rw [State.advance_of_first (.candidate (.primegen rd) s.argument 0) rfl hefail hs
      (lt_two_pow_of_lt_four (by omega) hlo)
      (candidateDrawn_of_two_or_three _ 1 (by simp) hv)] at hexec
    exact ⟨_, hexec, s.yieldsX_complete_x rd v rest⟩
  · obtain ⟨hm, hlt, hbit, hgcd⟩ : s.src rs1 ≠ 0 ∧ v < s.src rs1 ∧ v < 2
        ∧ Nat.gcd (s.src rs1) v = 1 := by
      obtain ⟨hm, rfl⟩ | ⟨hm, rfl⟩ := hv
      · exact ⟨by omega, hm, by decide, Nat.gcd_one_right _⟩
      · exact ⟨by omega, by omega, by decide, by rw [hm, Nat.gcd_one_left]⟩
    have hexec := exec_coprimegen_of_good hstart rd hlo hhi hm
    rw [beginCoprime, State.advance_of_first
      (.coprime (.coprimegen rd) (s.src rs1) s.argument 0) rfl hefail hs
      (hbit.trans_le (Nat.le_self_pow (Nat.ne_zero_of_lt hlo) 2))
      (coprimeDrawn_of_coprime _ _ 1 hlt hgcd)] at hexec
    exact ⟨_, hexec, s.yieldsX_complete_x rd v rest⟩
  · subst hv
    have hexec := exec_keyderive_of_width (rs1 := rs1) (rs2 := rs2) hstart hkv hlo hhi
    rw [if_neg (Bool.eq_false_iff.1 (badPrimes_eq_false_iff.2 ⟨hp, hq, hne⟩)), if_neg hpq.not_ge,
      State.advance_derive_of_one hp hq hne hlo hefail hs] at hexec
    exact State.exists_commitsKey hexec
  · subst hv hrest
    have hexec := exec_keygen_of_width hstart hkv (by omega) hhi
    rw [State.advance_keygen_of_two_three_one hlo hefail hs] at hexec
    exact State.exists_commitsKey hexec

/-- Settles O58: each command follows its procedure, whose draws are bounded loop by loop. -/
theorem commandsTerminateWithinTheirDrawBounds :
    Obligations.CommandsTerminateWithinTheirDrawBounds := by
  intro i s hstart hcap hlen
  cases i with
  | rand rd => exact exec_rand_completesWithin hstart rd hlen
  | mrtest rd rs1 => exact exec_mrtest_completesWithin hstart hcap rd rs1 hlen
  | primegen rd => exact exec_primegen_completesWithin hstart hcap rd hlen
  | coprimegen rd rs1 => exact exec_coprimegen_completesWithin hstart hcap rd rs1 hlen
  | keygen => exact exec_keygen_completesWithin hstart hcap hlen
  | keyderive rs1 rs2 => exact exec_keyderive_completesWithin hstart hcap rs1 rs2 hlen
  | nop | montsetup _ | montmul _ _ _ | montin _ _ | montout _ _ | barsetup _ | barred _ _
  | modexp _ _ _ _ | gcd _ _ _ | coprime _ _ _ | egcd _ _ _ | modinv _ _ _
  | keyderivee _ _ _ | keyclr | enc _ _ | dec _ _ | b2i _ | i2b _ =>
    exact s.finish_completesWithin _ 0

/-- Settles O59: both commands come to a one-bit search, which takes no candidate. -/
theorem uncappedSearchForOneBitPrimesNeverEnds :
    Obligations.UncappedSearchForOneBitPrimesNeverEnds := by
  intro s rd hstart hcap harg hwidth hefail hvalues
  have hwaits (search : Search) :
      s.WaitsForAnswer (s.advance (.wait (.candidate search s.argument 0))) := by
    rw [harg]
    exact State.waitsForAnswer_of_one_bit_search hcap hefail hvalues
  exact ⟨⟨_, exec_primegen_of_width hstart rd (by omega) (by omega), hwaits _⟩,
    fun hkv => ⟨_, exec_keygen_of_width hstart hkv (by omega) (by omega), hwaits _⟩⟩

/-- Settles O60: the rule that was starved runs on from its point as it would have run from its
start. -/
theorem resumingEqualsRunningAtOnce : Obligations.ResumingEqualsRunningAtOnce := by
  intro i s t later hstart ht hwait
  obtain ⟨start, hexec, hmore⟩ := exec_start i hstart
  obtain rfl := Host.Outcome.next.inj (hexec.symm.trans ht)
  obtain ⟨p, q, rfl, hdrive, hadvance⟩ := State.advance_of_waiting hwait
  rw [hadvance] at ht hwait ⊢
  rw [hmore, exec_resume ht hwait rfl, State.advance_resumed later hdrive]

/-- Settles O51: the reset bank has the reset values, and a late answer finds no request. -/
theorem hardResetRestoresEveryRegister : Obligations.HardResetRestoresEveryRegister := by
  intro s rest
  refine ⟨fun hs => ⟨State.hardReset { s with schedule := rest }, by rw [step, hs]; rfl, ?_⟩, ?_⟩
  · exact ⟨rfl, rfl, rfl, rfl, rfl, rfl, rfl, rfl, rfl, Bank.reset_readX s.params false, rfl, rfl,
      rfl, rfl, rfl, rfl, rfl, rfl, rfl, rfl, fun _ => rfl, rfl, rfl, State.hardReset_inv, rfl, rfl,
      rfl⟩
  · rintro a (hs | ⟨hs, hwait⟩)
    · rw [step, hs]
      rfl
    · rw [step, hs]
      exact answerStep_of_not_waiting a hwait

/-- Settles O52: a write of CTRL with SRST is the soft reset. -/
theorem softResetKeepsOnlyEntropyFailure : Obligations.SoftResetKeepsOnlyEntropyFailure := by
  intro s v rest hs hv
  exact step_write .ctrl hs rfl rfl (if_pos hv)

end Sys2Proof.Machine
end
